-- ==== Sys2Proof/Word.lean ====
section
/-! DEFINITION. Word.lean: the widths of the block's data (00_scope.md rule R9). -/

namespace Sys2Proof

/-- `u8` of rule R9. -/
abbrev Byte := BitVec 8
/-- `u32` of rule R9: host port data, digest words, command words. -/
abbrev Word32 := BitVec 32
/-- `u64` of rule R9: general registers, keys, draws. -/
abbrev Word64 := BitVec 64
/-- A byte offset of the host port, rule R71. -/
abbrev Offset := BitVec 16
/-- The index i of a general register Xi, rules R21 and R92. -/
abbrev Reg := Fin 8

end Sys2Proof
end

