-- ==== Sys2Proof/Syntax.lean ====
section
/-! DEFINITION. Syntax.lean: the commands (30_encoding.md rule R94) and the one word format (rule R91). -/

namespace Sys2Proof

/-- The sixteen commands of rule R94. Operands stand in the assembler's order (rule R100): destinations
D1, D2, D3 first, then sources S1, S2, S3. -/
inductive Instr where
  | nop
  | deInit
  | deUpdate (s1 s2 : Reg)
  | deFinal
  | deHash (s1 s2 : Reg)
  | deHex (d1 s1 : Reg)
  | arPowmod (d1 s1 s2 s3 : Reg)
  | arGcd (d1 s1 s2 : Reg)
  | arEgcd (d1 d2 d3 s1 s2 : Reg)
  | arInv (d1 s1 s2 : Reg)
  | arJacobi (d1 s1 s2 : Reg)
  | arPrime (d1 s1 : Reg)
  | kcKeygen
  | kcBpb (d1 s1 : Reg)
  | kcEncode (d1 s1 s2 s3 : Reg)
  | kcDecode (d1 s1 s2 s3 : Reg)
deriving DecidableEq, Repr

/-- Format R, the only format of a command word (rule R91), field by field. -/
structure Format where
  opc : BitVec 8 := 0
  d1 : BitVec 3 := 0
  s1 : BitVec 3 := 0
  s2 : BitVec 3 := 0
  s3 : BitVec 3 := 0
  d2 : BitVec 3 := 0
  d3 : BitVec 3 := 0
  rsv : BitVec 6 := 0
deriving DecidableEq, Repr

/-- Why a word is no command (rule R97). All three complete with the one code ILLEGAL. -/
inductive IllegalWord where
  /-- An OPC value of no row of rule R94. -/
  | unassignedOpcode
  /-- A bit of RSV[31:26] is set (rule R96). -/
  | reservedNonzero
  /-- A field the command does not use is not 0 (rule R95). -/
  | unusedFieldNonzero
deriving DecidableEq, Repr

end Sys2Proof
end

