-- ==== Sys2Proof/WellFormed.lean ====
section
/-! DEFINITION. WellFormed.lean: which formats are commands (30_encoding.md rules R94 to R97). -/

namespace Sys2Proof

/-- Which register fields a command uses: a row of rule R94's columns D1 to D3. -/
structure FieldUse where
  d1 : Bool := false
  s1 : Bool := false
  s2 : Bool := false
  s3 : Bool := false
  d2 : Bool := false
  d3 : Bool := false
deriving DecidableEq, Repr

/-- The columns of rule R94 by OPC; none for an unassigned OPC. -/
def fieldUse (opc : BitVec 8) : Option FieldUse :=
  match opc.toNat with
  | 0x00 => some {}
  | 0x10 => some {}
  | 0x11 => some { s1 := true, s2 := true }
  | 0x12 => some {}
  | 0x13 => some { s1 := true, s2 := true }
  | 0x14 => some { d1 := true, s1 := true }
  | 0x20 => some { d1 := true, s1 := true, s2 := true, s3 := true }
  | 0x21 => some { d1 := true, s1 := true, s2 := true }
  | 0x22 => some { d1 := true, s1 := true, s2 := true, d2 := true, d3 := true }
  | 0x23 => some { d1 := true, s1 := true, s2 := true }
  | 0x24 => some { d1 := true, s1 := true, s2 := true }
  | 0x25 => some { d1 := true, s1 := true }
  | 0x30 => some {}
  | 0x31 => some { d1 := true, s1 := true }
  | 0x32 => some { d1 := true, s1 := true, s2 := true, s3 := true }
  | 0x33 => some { d1 := true, s1 := true, s2 := true, s3 := true }
  | _ => none

/-- A field that is not used must be 0 (rule R95). -/
def fieldOk (used : Bool) (v : BitVec 3) : Bool := used || v == 0

/-- Every unused field of a format is 0 (rule R95). -/
def FieldUse.unusedZero (u : FieldUse) (f : Format) : Bool :=
  fieldOk u.d1 f.d1 && fieldOk u.s1 f.s1 && fieldOk u.s2 f.s2 && fieldOk u.s3 f.s3 &&
  fieldOk u.d2 f.d2 && fieldOk u.d3 f.d3

/-- What is wrong with a format, if anything (rules R95 to R97). -/
def Format.problem (f : Format) : Option IllegalWord :=
  match fieldUse f.opc with
  | none => some .unassignedOpcode
  | some u =>
    if f.rsv != 0 then some .reservedNonzero
    else if u.unusedZero f then none
    else some .unusedFieldNonzero

/-- A format that is a command. -/
def Format.wf (f : Format) : Bool := f.problem == none

/-- The format of a command: its OPC and its used fields by rule R94, every other field 0. -/
def Instr.format : Instr → Format
  | .nop => { opc := 0x00 }
  | .deInit => { opc := 0x10 }
  | .deUpdate s1 s2 => { opc := 0x11, s1 := .ofFin s1, s2 := .ofFin s2 }
  | .deFinal => { opc := 0x12 }
  | .deHash s1 s2 => { opc := 0x13, s1 := .ofFin s1, s2 := .ofFin s2 }
  | .deHex d1 s1 => { opc := 0x14, d1 := .ofFin d1, s1 := .ofFin s1 }
  | .arPowmod d1 s1 s2 s3 =>
    { opc := 0x20, d1 := .ofFin d1, s1 := .ofFin s1, s2 := .ofFin s2, s3 := .ofFin s3 }
  | .arGcd d1 s1 s2 => { opc := 0x21, d1 := .ofFin d1, s1 := .ofFin s1, s2 := .ofFin s2 }
  | .arEgcd d1 d2 d3 s1 s2 =>
    { opc := 0x22, d1 := .ofFin d1, s1 := .ofFin s1, s2 := .ofFin s2, d2 := .ofFin d2, d3 := .ofFin d3 }
  | .arInv d1 s1 s2 => { opc := 0x23, d1 := .ofFin d1, s1 := .ofFin s1, s2 := .ofFin s2 }
  | .arJacobi d1 s1 s2 => { opc := 0x24, d1 := .ofFin d1, s1 := .ofFin s1, s2 := .ofFin s2 }
  | .arPrime d1 s1 => { opc := 0x25, d1 := .ofFin d1, s1 := .ofFin s1 }
  | .kcKeygen => { opc := 0x30 }
  | .kcBpb d1 s1 => { opc := 0x31, d1 := .ofFin d1, s1 := .ofFin s1 }
  | .kcEncode d1 s1 s2 s3 =>
    { opc := 0x32, d1 := .ofFin d1, s1 := .ofFin s1, s2 := .ofFin s2, s3 := .ofFin s3 }
  | .kcDecode d1 s1 s2 s3 =>
    { opc := 0x33, d1 := .ofFin d1, s1 := .ofFin s1, s2 := .ofFin s2, s3 := .ofFin s3 }

/-- A command is well formed if its format is. Register indices are well formed by their type. -/
def Instr.wf (i : Instr) : Bool := i.format.wf

end Sys2Proof
end

