-- ==== Sys2Proof/Decode.lean ====
section
/-! DEFINITION. Decode.lean: the decode procedure (30_encoding.md rule R99), total on every word, and after it the
encoder. -/

namespace Sys2Proof

/-- The fields of a command word at the bit positions of rule R91. -/
def Format.ofWord (w : Word32) : Format where
  opc := w.extractLsb' 0 8
  d1 := w.extractLsb' 8 3
  s1 := w.extractLsb' 11 3
  s2 := w.extractLsb' 14 3
  s3 := w.extractLsb' 17 3
  d2 := w.extractLsb' 20 3
  d3 := w.extractLsb' 23 3
  rsv := w.extractLsb' 26 6

/-- A row of rule R94's opcode map: a word w is this command iff `(w & mask) = pattern` (the rule's `match`). -/
structure OpcodeRow where
  pattern : Word32
  mask : Word32
  build : Format → Instr

/-- The digest rows of rule R94, and nop. -/
def digestRows : List OpcodeRow := [
  ⟨0x00000000, 0xFFFFFFFF, fun _ => .nop⟩,
  ⟨0x00000010, 0xFFFFFFFF, fun _ => .deInit⟩,
  ⟨0x00000011, 0xFFFE07FF, fun f => .deUpdate f.s1.toFin f.s2.toFin⟩,
  ⟨0x00000012, 0xFFFFFFFF, fun _ => .deFinal⟩,
  ⟨0x00000013, 0xFFFE07FF, fun f => .deHash f.s1.toFin f.s2.toFin⟩,
  ⟨0x00000014, 0xFFFFC0FF, fun f => .deHex f.d1.toFin f.s1.toFin⟩]

/-- The arithmetic rows of rule R94. -/
def arithRows : List OpcodeRow := [
  ⟨0x00000020, 0xFFF000FF, fun f => .arPowmod f.d1.toFin f.s1.toFin f.s2.toFin f.s3.toFin⟩,
  ⟨0x00000021, 0xFFFE00FF, fun f => .arGcd f.d1.toFin f.s1.toFin f.s2.toFin⟩,
  ⟨0x00000022, 0xFC0E00FF, fun f => .arEgcd f.d1.toFin f.d2.toFin f.d3.toFin f.s1.toFin f.s2.toFin⟩,
  ⟨0x00000023, 0xFFFE00FF, fun f => .arInv f.d1.toFin f.s1.toFin f.s2.toFin⟩,
  ⟨0x00000024, 0xFFFE00FF, fun f => .arJacobi f.d1.toFin f.s1.toFin f.s2.toFin⟩,
  ⟨0x00000025, 0xFFFFC0FF, fun f => .arPrime f.d1.toFin f.s1.toFin⟩]

/-- The cipher rows of rule R94. -/
def cipherRows : List OpcodeRow := [
  ⟨0x00000030, 0xFFFFFFFF, fun _ => .kcKeygen⟩,
  ⟨0x00000031, 0xFFFFC0FF, fun f => .kcBpb f.d1.toFin f.s1.toFin⟩,
  ⟨0x00000032, 0xFFF000FF, fun f => .kcEncode f.d1.toFin f.s1.toFin f.s2.toFin f.s3.toFin⟩,
  ⟨0x00000033, 0xFFF000FF, fun f => .kcDecode f.d1.toFin f.s1.toFin f.s2.toFin f.s3.toFin⟩]

/-- The opcode map of rule R94. -/
def opcodeRows : List OpcodeRow := digestRows ++ arithRows ++ cipherRows

/-- A word is a row's command (rule R94). -/
def OpcodeRow.hits (r : OpcodeRow) (w : Word32) : Bool := w &&& r.mask == r.pattern

/-- The decode procedure of rule R99. A word of no row is illegal; the reason named is the model's (rule R97 gives all of
them the one error code ILLEGAL). -/
def decode (w : Word32) : Except IllegalWord Instr :=
  match opcodeRows.find? (·.hits w) with
  | some r => .ok (r.build (Format.ofWord w))
  | none => .error ((Format.ofWord w).problem.getD .unassignedOpcode)

/-- The word of a format: the fields of rule R91, RSV uppermost, OPC lowest. -/
def Format.toWord (f : Format) : Word32 :=
  f.rsv ++ f.d3 ++ f.d2 ++ f.s3 ++ f.s2 ++ f.s1 ++ f.d1 ++ f.opc

/-- The one word of a command (rule R95: "exactly one word per choice of its used fields"). -/
def encode (i : Instr) : Word32 := i.format.toWord

/-- The command the decoder reads from the low `nbits` bits of `w`, the bits above them 0. A command is one 32-bit word
(rule R90), so there is no byte order to lay out: the host port carries the word whole. -/
def decodeTableWord (nbits w : Nat) : Option Instr :=
  if nbits ≤ 32 then
    match decode (BitVec.ofNat 32 (w % 2 ^ nbits)) with
    | .ok i => some i
    | .error _ => none
  else none

end Sys2Proof
end

