-- ==== Sys2Proof/Config.lean ====
section
/-! DEFINITION. Config.lean: the parameters of the block (00_scope.md rule R8) and the free values
(93_implementation_defined.md). -/

namespace Sys2Proof

/-- MULMOD_MODE (41_arith.md rule R151, decision D10). -/
inductive MulmodMode where
  /-- The product wraps mod 2^64 before it is reduced mod n; the default. -/
  | wrap64
  /-- The product is exact. -/
  | exact
deriving DecidableEq, Repr

/-- The two values rule R8 marks "parameter". A machine keeps them for good; State holds them so that a statement over
every state holds for every parameter (log entry 6). -/
structure Params where
  mulmodMode : MulmodMode
  /-- BMEM_SIZE in bytes. -/
  bmemSize : Nat
deriving DecidableEq, Repr

/-- The defaults of rule R8. -/
def Params.default : Params where
  mulmodMode := .wrap64
  bmemSize := 4096

/-- Rule R8: BMEM_SIZE is a multiple of 4, at most 4096. -/
abbrev Params.wf (p : Params) : Prop := p.bmemSize % 4 = 0 ∧ p.bmemSize ≤ 4096

/-- FREE VALUE: the byte BMEM[a] holds after the reset with number `resets`, until it is written (20_memory.md rule R78,
70_reset_and_hazards.md rule R262: "a draw under no law"). Log entry 5. -/
opaque Config.freeByte (resets a : Nat) : Byte

/-- FREE VALUE: the draw with number `pos` the random source delivers once the draws listed in State.source.queue are used
up (42_cipher.md rule R190, 70_reset_and_hazards.md rule R272: "any 64-bit value, under no law"). Log entry 4. -/
opaque Config.freeDraw (pos : Nat) : Word64

end Sys2Proof
end

