-- ==== Sys2Proof/Machine/State.lean ====
section
/-! DEFINITION. State.lean: the architectural state of the block (10_state.md rule R20), the model's own fields beside it,
and the state after reset (rule R56). -/

namespace Sys2Proof.Machine

/-- Four 32-bit words: the HashState H[0..3] (rule R45) or the digest registers DG0..DG3 (rule R48). -/
structure HashState where
  h0 : Word32
  h1 : Word32
  h2 : Word32
  h3 : Word32
deriving DecidableEq, Repr

/-- The digest engine's session registers (rules R45, R46, R47, R52). -/
structure Session where
  /-- H[0..3], read as DE_H0 to DE_H3. -/
  h : HashState
  /-- LEN, the bytes absorbed, mod 2^64. -/
  len : Word64
  /-- FILL, the bytes of the current partial block. -/
  fill : BitVec 6
  /-- BUF[0..63], read as DE_BUF0 to DE_BUF15. -/
  buf : Vector Byte 64
deriving DecidableEq, Repr

/-- The bits of STATUS (rule R28). -/
structure Status where
  /-- Bit 0: a command is accepted and not yet executed (rule R29). -/
  busy : Bool
  /-- Bit 1, sticky: some command completed with an error (rule R30). -/
  err : Bool
  /-- Bit 2, sticky: some host access was refused (rule R31). -/
  accErr : Bool
  /-- Bit 3: a KC.KEYGEN succeeded (rule R32). -/
  keygen : Bool
  /-- Bit 4: DG0 to DG3 hold the digest of a completed absorb (rule R33). -/
  dvalid : Bool
  /-- Bit 5: a digest session is open (rule R34). -/
  dsess : Bool
deriving DecidableEq, Repr

/-- The configuration registers (rules R37 to R42). -/
structure ConfigRegs where
  /-- K of CFG_K. -/
  k : BitVec 8
  /-- CAP of CFG_CAP. -/
  cap : Word32
  pmin : Word32
  pmax : Word32
  sep : Word32
  /-- SEPLEN, at most 4 by the write rule R42. -/
  sepLen : BitVec 3
deriving DecidableEq, Repr

/-- The cipher key registers (rules R50, R51). -/
structure Keys where
  kn : Word64
  ke : Word64
  kd : Word64
  kp : Word64
  kq : Word64
  kphi : Word64
deriving DecidableEq, Repr

/-- The random source as the engine sees it (42_cipher.md rule R190), with the register that counts its draws. -/
structure Source where
  /-- DRAWS (10_state.md rule R44). -/
  draws : Word32
  /-- The model's own: the next draws the source delivers, oldest first (log entry 4). -/
  queue : List Word64
  /-- The model's own: how many draws were taken after the queue ran out, the index of Config.freeDraw (log entry 4). -/
  pos : Nat
deriving DecidableEq, Repr

/-- BMEM (20_memory.md rule R70) as the bytes written since reset, by rising address. -/
abbrev Memory := List Host.Cell

/-- One move of one agent (00_scope.md rule R16, 20_memory.md rule R81). -/
inductive Move where
  /-- The engine takes its turn (rule R80). -/
  | engine
  /-- The host reads 32 bits at a byte offset (rule R72). -/
  | hostRead (off : Offset)
  /-- The host writes 32 bits at a byte offset (rule R72). -/
  | hostWrite (off : Offset) (v : Word32)
  /-- The platform asserts reset (70_reset_and_hazards.md rule R260). `lost` is how many draws the random source had
  already given to a command this reset abandons, which rule R261 leaves open (log entry 9). -/
  | reset (lost : Nat)
deriving DecidableEq, Repr

/-- The error codes of 60_exceptions.md rule R231. -/
inductive ErrCode where
  | ok
  | illegal
  | ioRange
  | ioNoSession
  | noDigest
  | divZero
  | domain
  | noInv
  | arg
  | exhausted
deriving DecidableEq, Repr

/-- The machine's state: everything of rule R20, and below it the model's own fields. -/
structure State where
  /-- X0 to X7 (rule R21). -/
  x : Vector Word64 8
  /-- LASTCMD (rule R35). -/
  lastCmd : Word32
  /-- PENDING, the hidden command latch (rule R24). -/
  pending : Word32
  /-- STATUS (rule R28). -/
  status : Status
  /-- LASTERR[7:0] (rule R36). -/
  lastErr : Byte
  /-- CFG_K, CFG_CAP, CFG_PMIN, CFG_PMAX, SEP, SEPLEN (rules R37 to R42). -/
  cfg : ConfigRegs
  /-- CMDCNT (rule R43). -/
  cmdCnt : Word32
  /-- DRAWS (rule R44) and the random source it counts. -/
  source : Source
  /-- H, LEN, FILL, BUF (rules R45, R46, R47, R52). -/
  de : Session
  /-- DG0 to DG3 (rule R48). -/
  dg : HashState
  /-- KN, KE, KD, KP, KQ, KPHI (rules R50, R51). -/
  keys : Keys
  /-- BMEM (20_memory.md rule R70). -/
  bmem : Memory
  /-- The parameters MULMOD_MODE and BMEM_SIZE (00_scope.md rule R8; log entry 6). No step changes them. -/
  params : Params
  /-- The model's own: how many resets there were, which names the unwritten bytes of BMEM (log entry 5). -/
  resets : Nat
  /-- The model's own: the agents' moves still to come, the next one first (log entry 1). -/
  moves : List Move
  /-- The model's own: what the last host read returned (log entry 7). -/
  portData : Word32
deriving DecidableEq, Repr

/-- Why a step stops with a fault. There is NO reason: an error of TOYCRYPT is a completion with a code (60_exceptions.md
rules R230, R236), a bad host access is refused with ACCERR (rule R246), and no step of the model faults (log entry 8). -/
inductive Fault where
deriving DecidableEq, Repr

/-- Why a step is refused. -/
inductive Refusal where
  /-- Raised by exec's arm of a command that has no meaning yet (safe: the model stops where the hardware goes on). No arm
  of this model raises it. -/
  | notModelled (mnemonic : String)
deriving DecidableEq, Repr

/-- What a step answers. -/
abbrev Outcome := Host.Outcome State Fault Refusal

/-- All of H or DG at 0. -/
def HashState.zero : HashState := ⟨0, 0, 0, 0⟩

/-- The machine right after reset: rule R56, with nothing written in BMEM (rule R78). The last four fields are the model's
own (log entries 1, 4, 5, 7). -/
def State.reset : State where
  x := Vector.replicate 8 0
  lastCmd := 0
  pending := 0
  status := ⟨false, false, false, false, false, false⟩
  lastErr := 0x00
  cfg := { k := 20, cap := 0x00100000, pmin := 3, pmax := 65535, sep := 0x0000003A, sepLen := 1 }
  cmdCnt := 0
  source := { draws := 0, queue := [], pos := 0 }
  de := { h := HashState.zero, len := 0, fill := 0, buf := Vector.replicate 64 0x00 }
  dg := HashState.zero
  keys := ⟨0, 0, 0, 0, 0, 0⟩
  bmem := []
  params := Params.default
  resets := 0
  moves := []
  portData := 0

end Sys2Proof.Machine
end

