-- ==== Sys2Proof/Machine/Ops.lean ====
section
/-! DEFINITION. Ops.lean: byte order, BMEM, the random source, raising an error and completing a command, accepting a
command, and reset: the operations every command and every host access is written with. -/

namespace Sys2Proof.Machine

/-! ### Byte order (00_scope.md rule R11) -/

/-- `le32` of rule R11. -/
def le32 (b0 b1 b2 b3 : Byte) : Word32 := b3 ++ b2 ++ b1 ++ b0

/-- `bytes_le32` of rule R11. -/
def bytesLe32 (w : Word32) : List Byte :=
  [w.extractLsb' 0 8, w.extractLsb' 8 8, w.extractLsb' 16 8, w.extractLsb' 24 8]

/-- `bytes_le64` of rule R11. -/
def bytesLe64 (v : Word64) : List Byte :=
  [v.extractLsb' 0 8, v.extractLsb' 8 8, v.extractLsb' 16 8, v.extractLsb' 24 8,
   v.extractLsb' 32 8, v.extractLsb' 40 8, v.extractLsb' 48 8, v.extractLsb' 56 8]

/-- The integer of a little-endian byte sequence: `le32` and `le64` of rule R11 for any length. -/
def leNat : List Byte → Nat
  | [] => 0
  | b :: bs => b.toNat + 256 * leNat bs

/-! ### BMEM (20_memory.md rules R70, R77, R78; 00_scope.md rule R13) -/

/-- The canonical form: addresses strictly rising. An unlisted address has no value of its own to compare an entry with:
what it reads as is a free value (log entry 5). -/
abbrev Memory.wf (m : Memory) : Prop := m.Pairwise (fun p q => p.1 < q.1)

/-- The byte written at an address since reset, none if there is none. -/
def Memory.lookup : Memory → Nat → Option Byte
  | [], _ => none
  | (k, v) :: m, a => if k = a then some v else Memory.lookup m a

/-- Write one byte, keeping the addresses rising. -/
def Memory.insert : Memory → Nat → Byte → Memory
  | [], a, b => [(a, b)]
  | (k, v) :: m, a, b =>
    if a < k then (a, b) :: (k, v) :: m
    else if a = k then (a, b) :: m
    else (k, v) :: Memory.insert m a b

/-- What an unlisted address reads as: an arbitrary byte, chosen once per byte and reset (rules R78, R262). -/
def State.unwritten (s : State) (a : Nat) : Byte := Config.freeByte s.resets a

/-- BMEM[a]. -/
def State.readByte (s : State) (a : Nat) : Byte := (s.bmem.lookup a).getD (s.unwritten a)

/-- `BMEM[a] <- b`. -/
def State.writeByte (s : State) (a : Nat) (b : Byte) : State := { s with bmem := s.bmem.insert a b }

/-- `MemRead(addr, n)` of rule R13. -/
def State.memRead (s : State) : Nat → Nat → List Byte
  | _, 0 => []
  | addr, n + 1 => s.readByte addr :: s.memRead (addr + 1) n

/-- `MemWrite(addr, n, bs)` of rule R13, n the length of bs; ascending addresses (rule R77). -/
def State.memWrite (s : State) : Nat → List Byte → State
  | _, [] => s
  | addr, b :: bs => (s.writeByte addr b).memWrite (addr + 1) bs

/-- The range check of rule R76, in exact arithmetic. A range of length 0 is in range iff its address is at most
BMEM_SIZE. -/
def State.inRange (s : State) (addr len : Nat) : Bool := addr + len ≤ s.params.bmemSize

/-! ### The random source (42_cipher.md rules R190, R191) -/

/-- `Draw()`: the next value of the source, consumed and counted in DRAWS mod 2^32. -/
def Source.draw (r : Source) : Word64 × Source :=
  match r.queue with
  | d :: ds => (d, { r with draws := r.draws + 1, queue := ds })
  | [] => (Config.freeDraw r.pos, { r with draws := r.draws + 1, pos := r.pos + 1 })

/-- A random integer in [lo, hi]: `lo + (Draw() mod (hi - lo + 1))` (rule R191), one draw. -/
def Source.drawIn (r : Source) (lo hi : Nat) : Nat × Source :=
  (lo + r.draw.1.toNat % (hi - lo + 1), r.draw.2)

/-! ### Errors and completion (60_exceptions.md rules R231, R236, R243) -/

/-- The code an error has in LASTERR (rule R231). -/
def ErrCode.byte : ErrCode → Byte
  | .ok => 0x00
  | .illegal => 0x01
  | .ioRange => 0x10
  | .ioNoSession => 0x11
  | .noDigest => 0x12
  | .divZero => 0x20
  | .domain => 0x21
  | .noInv => 0x22
  | .arg => 0x23
  | .exhausted => 0x30

/-- `complete(code)` of rule R243, the end of every engine step. -/
def State.complete (s : State) (code : ErrCode) : State :=
  { s with
    lastErr := code.byte
    status := { s.status with err := s.status.err || code != .ok, busy := false }
    cmdCnt := s.cmdCnt + 1 }

/-- What a command's pseudocode comes to: its code and the writes it performed. -/
structure Result where
  code : ErrCode
  state : State

/-- The pseudocode ran to its end. -/
def done (s : State) : Result := ⟨.ok, s⟩

/-- `raise E` (rule R236): the writes in `s` take effect and nothing after. -/
def raise (e : ErrCode) (s : State) : Result := ⟨e, s⟩

/-- Go on after a part of a command, unless it raised an error (40_digest.md rule R125, "stopping at the first error"). -/
def Result.andThen (r : Result) (f : State → Result) : Result :=
  match r.code with
  | .ok => f r.state
  | _ => r

/-- The end of an engine step: the command completes, whatever its code. The one way a command, or an illegal word, ends. -/
def conclude (r : Result) : Outcome := .next (r.state.complete r.code)

/-! ### Acceptance and reset (10_state.md rule R25; 70_reset_and_hazards.md rules R260 to R262) -/

/-- Acceptance of a command word (rule R25). -/
def State.accept (s : State) (w : Word32) : State :=
  { s with lastCmd := w, pending := w, status := { s.status with busy := true } }

/-- What is left of the source's queue when reset abandons a command that had taken `lost` draws (rule R261). -/
def State.lostDraws (s : State) (lost : Nat) : List Word64 :=
  if s.status.busy then s.source.queue.drop lost else s.source.queue

/-- The reset event: every piece of state at the value of 10_state.md rule R56, BMEM unspecified anew (rule R262). The
parameters, the random source outside the block, the moves to come and the host's own data stay. -/
def State.resetEvent (s : State) (lost : Nat) : State :=
  { State.reset with
    params := s.params
    source := { State.reset.source with queue := s.lostDraws lost, pos := s.source.pos }
    resets := s.resets + 1
    moves := s.moves
    portData := s.portData }

/-- A refused host access: ACCERR, and nothing else (10_state.md rule R31). -/
def State.refuse (s : State) : State := { s with status := { s.status with accErr := true } }

end Sys2Proof.Machine
end

