-- ==== Sys2Proof/Machine/Operands.lean ====
section
/-! DEFINITION. Operands.lean: the operand forms. A command has register operands only, 3-bit fields naming X0 to X7
(30_encoding.md rules R92, R93), and reaches key and configuration registers implicitly. -/

namespace Sys2Proof.Machine

/-- `x[i]` of 00_scope.md rule R12. -/
def State.readX (s : State) (i : Reg) : Word64 := s.x[i]

/-- A source operand as the unsigned integer a helper computes on (41_arith.md rule R150, 30_encoding.md rule R93). -/
def State.xNat (s : State) (i : Reg) : Nat := (s.readX i).toNat

/-- `x[i] <- v`. -/
def State.writeX (s : State) (i : Reg) (v : Word64) : State := { s with x := s.x.set i v }

/-- `x[i] <- v` of an integer, reduced mod 2^64 (rule R12). -/
def State.writeXNat (s : State) (i : Reg) (v : Nat) : State := s.writeX i (BitVec.ofNat 64 v)

/-- `x[i] <- v` of a signed integer, stored as v mod 2^64: two's complement (rule R12). -/
def State.writeXInt (s : State) (i : Reg) (v : Int) : State := s.writeX i (BitVec.ofInt 64 v)

/-- The half of a 64-bit register the host port shows: HI or LO (10_state.md rule R22, 20_memory.md rule R73). -/
def half (v : Word64) (hi : Bool) : Word32 := if hi then v.extractLsb' 32 32 else v.extractLsb' 0 32

/-- A 64-bit register with one half replaced and the other kept (rule R22). -/
def withHalf (v : Word64) (hi : Bool) (w : Word32) : Word64 :=
  if hi then w ++ v.extractLsb' 0 32 else v.extractLsb' 32 32 ++ w

/-- The separator bytes sep[0] to sep[SEPLEN - 1] (10_state.md rules R41, R42). -/
def ConfigRegs.sepBytes (c : ConfigRegs) : List Byte := (bytesLe32 c.sep).take c.sepLen.toNat

end Sys2Proof.Machine
end

