-- ==== Sys2Proof/Machine/Arith.lean ====
section
/-! DEFINITION. Arith.lean: the modular-arithmetic helpers (41_arith.md) and the commands ar.powmod, ar.gcd, ar.egcd, ar.inv,
ar.jacobi, ar.prime. Every helper computes on exact integers (rule R150): Nat and Int. A loop of the spec is a recursion on
fuel that its own bound never uses up (log entry 10; Laws/Arith.lean proves the spec's loop equations). -/

namespace Sys2Proof.Machine

/-! ### The helpers -/

/-- `bitlen(n)` of 00_scope.md rule R10: 0 for 0. -/
def bitlen (n : Nat) : Nat := if n = 0 then 0 else Nat.log2 n + 1

/-- `mulmod(x, y, n)` of rule R151. -/
def mulmod (mode : MulmodMode) (x y n : Nat) : Nat :=
  match mode with
  | .wrap64 => x * y % 2 ^ 64 % n
  | .exact => x * y % n

/-- The loop of `powmod` (rule R152), right to left over the bits of e. -/
def powmodLoop (mode : MulmodMode) (n : Nat) : Nat → Nat → Nat → Nat → Nat
  | 0, r, _, _ => r
  | fuel + 1, r, b, e =>
    if e = 0 then r
    else powmodLoop mode n fuel (if e % 2 = 1 then mulmod mode r b n else r) (mulmod mode b b n) (e / 2)

/-- `powmod(b, e, n)` of rule R152; its loop runs bitlen(e) times. -/
def powmod (mode : MulmodMode) (b e n : Nat) : Nat := powmodLoop mode n (bitlen e) (1 % n) (b % n) e

/-- The loop of `gcd` (rule R153); b falls at every turn. -/
def gcdLoop : Nat → Nat → Nat → Nat
  | 0, a, _ => a
  | fuel + 1, a, b => if b = 0 then a else gcdLoop fuel b (a % b)

/-- `gcd(a, b)` of rule R153 (Euclid). -/
def gcd (a b : Nat) : Nat := gcdLoop b a b

/-- The three results of `egcd`: a*s + b*t = g. -/
structure Bezout where
  g : Nat
  s : Int
  t : Int
deriving DecidableEq, Repr

/-- The loop of `egcd` (rule R154) on (r0, r1), (s0, s1), (t0, t1); r1 falls at every turn. -/
def egcdLoop : Nat → Nat → Nat → Int → Int → Int → Int → Bezout
  | 0, r0, _, s0, _, t0, _ => ⟨r0, s0, t0⟩
  | fuel + 1, r0, r1, s0, s1, t0, t1 =>
    if r1 = 0 then ⟨r0, s0, t0⟩
    else
      let q : Int := (r0 / r1 : Nat)
      egcdLoop fuel r1 (r0 % r1) s1 (s0 - q * s1) t1 (t0 - q * t1)

/-- `egcd(a, b)` of rule R154. -/
def egcd (a b : Nat) : Bezout := egcdLoop b a b 1 0 0 1

/-- `modinv(e, m)` of rule R156; none is its `raise NOINV`. -/
def modinv (e m : Nat) : Option Nat :=
  if (egcd e m).g = 1 then some ((egcd e m).s % (m : Int)).toNat else none

/-- The inner loop of `jacobi` (rule R158): halve a while it is even, turning the sign for n mod 8 = 3 or 5. a falls at
every turn. -/
def stripTwos (n : Nat) : Nat → Nat → Int → Nat × Int
  | 0, a, t => (a, t)
  | fuel + 1, a, t =>
    if a % 2 = 0 then stripTwos n fuel (a / 2) (if n % 8 = 3 ∨ n % 8 = 5 then -t else t)
    else (a, t)

/-- The outer loop of `jacobi` (rule R158) from `a mod n`: strip the twos, swap with the reciprocity sign, reduce. a falls
at every turn. -/
def jacobiLoop : Nat → Nat → Nat → Int → Int
  | 0, _, n, t => if n = 1 then t else 0
  | fuel + 1, a, n, t =>
    if a = 0 then (if n = 1 then t else 0)
    else
      let (odd, t) := stripTwos n a a t
      jacobiLoop fuel (n % odd) odd (if n % 4 = 3 ∧ odd % 4 = 3 then -t else t)

/-- `jacobi(a, n)` of rule R158, for odd n (rule R157). -/
def jacobi (a n : Nat) : Int := jacobiLoop (a % n) (a % n) n 1

/-- `trial(c, a)` of rule R161: true is PASS. The expected residue of j is `j mod c`. -/
def trial (mode : MulmodMode) (c a : Nat) : Bool :=
  let j := jacobi a c
  if j = 0 then false
  else (powmod mode a ((c - 1) / 2) c : Int) == j % (c : Int)

/-- The trials of `sstest` (rule R162): K of them at most, one draw each, up to the first rejection. The witness is
`2 + (Draw() mod (c - 3))` (rule R160). -/
def trials (mode : MulmodMode) (c : Nat) : Nat → Source → Bool × Source
  | 0, r => (true, r)
  | k + 1, r =>
    let (a, r) := r.drawIn 2 (c - 2)
    if trial mode c a then trials mode c k r else (false, r)

/-- `sstest(c, K)` of rule R162: true is PRIME. Small and even candidates take no draw (rule R159). -/
def sstest (mode : MulmodMode) (c k : Nat) (r : Source) : Bool × Source :=
  if c < 2 then (false, r)
  else if c = 2 ∨ c = 3 then (true, r)
  else if c % 2 = 0 then (false, r)
  else trials mode c k r

/-! ### The commands -/

/-- `ar.powmod xD1, xS1, xS2, xS3` (rule R163). -/
def execArPowmod (d1 s1 s2 s3 : Reg) (s : State) : Outcome :=
  let n := s.xNat s3
  conclude (
    if n = 0 then raise .divZero s
    else done (s.writeXNat d1 (powmod s.params.mulmodMode (s.xNat s1) (s.xNat s2) n)))

/-- `ar.gcd xD1, xS1, xS2` (rule R164). -/
def execArGcd (d1 s1 s2 : Reg) (s : State) : Outcome :=
  conclude (done (s.writeXNat d1 (gcd (s.xNat s1) (s.xNat s2))))

/-- `ar.egcd xD1, xD2, xD3, xS1, xS2` (rule R165): g, s, t are written in that order, so the later write to one register
stays (10_state.md rule R23). -/
def execArEgcd (d1 d2 d3 s1 s2 : Reg) (s : State) : Outcome :=
  let z := egcd (s.xNat s1) (s.xNat s2)
  conclude (done (((s.writeXNat d1 z.g).writeXInt d2 z.s).writeXInt d3 z.t))

/-- `ar.inv xD1, xS1, xS2` (rule R166). -/
def execArInv (d1 s1 s2 : Reg) (s : State) : Outcome :=
  let m := s.xNat s2
  conclude (
    if m = 0 then raise .divZero s
    else match modinv (s.xNat s1) m with
      | some d => done (s.writeXNat d1 d)
      | none => raise .noInv s)

/-- `ar.jacobi xD1, xS1, xS2` (rule R167). -/
def execArJacobi (d1 s1 s2 : Reg) (s : State) : Outcome :=
  let n := s.xNat s2
  conclude (
    if n % 2 = 0 then raise .domain s
    else done (s.writeXInt d1 (jacobi (s.xNat s1) n)))

/-- `ar.prime xD1, xS1` (rule R168). -/
def execArPrime (d1 s1 : Reg) (s : State) : Outcome :=
  let k := s.cfg.k.toNat
  let verdict := sstest s.params.mulmodMode (s.xNat s1) k s.source
  conclude (
    if k = 0 then raise .arg s
    else done ({ s with source := verdict.2 }.writeXNat d1 (if verdict.1 then 1 else 0)))

end Sys2Proof.Machine
end

