-- ==== Sys2Proof/Machine/Cipher.lean ====
section
/-! DEFINITION. Cipher.lean: the Key-Pair Cipher (42_cipher.md): key generation, block packing, encode and decode, and the
commands kc.keygen, kc.bpb, kc.encode, kc.decode. -/

namespace Sys2Proof.Machine

/-! ### Key generation (rules R192 to R198) -/

/-- What a key search reads: MULMOD_MODE, K, PMIN, PMAX and CAP (rule R199). -/
structure Search where
  mode : MulmodMode
  k : Nat
  pmin : Nat
  pmax : Nat
  cap : Nat

/-- The configuration registers as a search reads them (rule R199). -/
def State.search (s : State) : Search where
  mode := s.params.mulmodMode
  k := s.cfg.k.toNat
  pmin := s.cfg.pmin.toNat
  pmax := s.cfg.pmax.toNat
  cap := s.cfg.cap.toNat

/-- The configuration check of rule R192: true is `raise ARG`. -/
def Search.illegal (z : Search) : Bool := z.k == 0 || z.pmin < 2 || z.pmin > z.pmax

/-- `find_prime()` of rule R193 with the tries the cap still allows; none is EXHAUSTED (rule R194). -/
def Search.findPrime (z : Search) : Nat → Source → Option Nat × Source
  | 0, r => (none, r)
  | tries + 1, r =>
    let (c, r) := r.drawIn z.pmin z.pmax
    let (prime, r) := sstest z.mode c z.k r
    if prime then (some c, r) else z.findPrime tries r

/-- One pair attempt (rule R195): first the p search, then the q search, each with its own tries. -/
def Search.drawPair (z : Search) (r : Source) : Option (Nat × Nat) × Source :=
  match z.findPrime z.cap r with
  | (none, r) => (none, r)
  | (some p, r) =>
    match z.findPrime z.cap r with
    | (none, r) => (none, r)
    | (some q, r) => (some (p, q), r)

/-- The pair search of rule R195 with the attempts the cap still allows; none is EXHAUSTED. -/
def Search.findPair (z : Search) : Nat → Source → Option (Nat × Nat) × Source
  | 0, r => (none, r)
  | pairs + 1, r =>
    match z.drawPair r with
    | (none, r) => (none, r)
    | (some (p, q), r) =>
      if p = q then z.findPair pairs r
      else if p * q < 128 then z.findPair pairs r
      else (some (p, q), r)

/-- The exponent search of rule R197 from e, with the increments the cap still allows; none is EXHAUSTED. DESIGN CHOICE (log
entry 17): CAP increments are allowed, at CAP = 1 one, as rule R197's pseudocode and 95_test_vectors.md section 2.8 have it,
where rule R194 says that CAP = 1 has no exponent increment. -/
def findExponent (phi : Nat) : Nat → Nat → Option Nat
  | 0, e => if gcd e phi = 1 then some e else none
  | incs + 1, e => if gcd e phi = 1 then some e else findExponent phi incs (e + 1)

/-- A key pair as kc.keygen writes it (rule R199). -/
structure KeyPair where
  p : Nat
  q : Nat
  e : Nat
  d : Nat
deriving DecidableEq, Repr

/-- n = p * q (rule R195). -/
def KeyPair.n (z : KeyPair) : Nat := z.p * z.q

/-- φ = (p - 1) * (q - 1) (rule R196). -/
def totient (p q : Nat) : Nat := (p - 1) * (q - 1)

/-- The body of kc.keygen after its configuration check (rule R199): the pair, the exponent from one draw in [2, φ - 1], and
its inverse. The inverse never fails (rule R198), so its none is never met. -/
def Search.keyPair (z : Search) (r : Source) : Option KeyPair × Source :=
  match z.findPair z.cap r with
  | (none, r) => (none, r)
  | (some (p, q), r) =>
    let phi := totient p q
    let (e0, r) := r.drawIn 2 (phi - 1)
    match findExponent phi z.cap e0 with
    | none => (none, r)
    | some e => ((modinv e phi).map fun d => ⟨p, q, e, d⟩, r)

/-- The key registers of a key pair (rule R199). -/
def KeyPair.registers (z : KeyPair) : Keys where
  kn := BitVec.ofNat 64 z.n
  ke := BitVec.ofNat 64 z.e
  kd := BitVec.ofNat 64 z.d
  kp := BitVec.ofNat 64 z.p
  kq := BitVec.ofNat 64 z.q
  kphi := BitVec.ofNat 64 (totient z.p z.q)

/-! ### Block packing (rules R204 to R208) -/

/-- `bpb(n)` of rule R204. -/
def bpb (n : Nat) : Nat := if bitlen n ≥ 22 then 3 else if bitlen n ≥ 15 then 2 else 1

/-- `pack` of rule R205: little-endian radix 128, each byte whole. -/
def pack : List Byte → Nat
  | [] => 0
  | b :: bs => b.toNat + 128 * pack bs

/-- `unpack(m, k)` of rule R206: k digits of radix 128, the first the least. -/
def unpack (m : Nat) : Nat → List Byte
  | 0 => []
  | k + 1 => BitVec.ofNat 8 (m % 128) :: unpack (m / 128) k

/-- The number of blocks of rule R207: `max(1, ceil(L / k))`. -/
def blockCount (len k : Nat) : Nat := max 1 ((len + k - 1) / k)

/-- Block i of the plaintext padded with 0x00 (rule R207). -/
def plainBlock (p : List Byte) (k i : Nat) : List Byte := (List.range k).map fun j => p.getD (i * k + j) 0x00

/-- `encode(P, n, e)` of rule R207. -/
def encodeText (mode : MulmodMode) (p : List Byte) (n e : Nat) : List Nat :=
  (List.range (blockCount p.length (bpb n))).map fun i => powmod mode (pack (plainBlock p (bpb n) i)) e n

/-- Remove all trailing 0x00 bytes (rule R208). -/
def stripNulls (bs : List Byte) : List Byte := (bs.reverse.dropWhile (· == 0x00)).reverse

/-- `decode(C, n, d)` of rule R208. -/
def decodeText (mode : MulmodMode) (c : List Nat) (n d : Nat) : List Byte :=
  stripNulls (c.flatMap fun w => unpack (powmod mode w d n) (bpb n))

/-- cnt ciphertext words of BMEM from addr, 8 bytes each, little-endian (rules R210, R211). -/
def State.cipherWords (s : State) (addr cnt : Nat) : List Nat :=
  (List.range cnt).map fun i => leNat (s.memRead (addr + 8 * i) 8)

/-- The bytes ciphertext words take in BMEM (rule R210). -/
def cipherBytes (c : List Nat) : List Byte := c.flatMap fun w => bytesLe64 (BitVec.ofNat 64 w)

/-! ### The commands -/

/-- `kc.keygen` (rule R199). The draws it took stay taken, whether it succeeds or fails (rule R236). -/
def execKcKeygen (s : State) : Outcome :=
  let found := s.search.keyPair s.source
  conclude (
    if s.search.illegal then raise .arg s
    else match found.1 with
      | none => raise .exhausted { s with source := found.2 }
      | some z => done { s with
          source := found.2
          keys := z.registers
          status := { s.status with keygen := true } })

/-- `kc.bpb xD1, xS1` (rule R209). -/
def execKcBpb (d1 s1 : Reg) (s : State) : Outcome := conclude (done (s.writeXNat d1 (bpb (s.xNat s1))))

/-- `kc.encode xD1, xS1, xS2, xS3` (rule R210). -/
def execKcEncode (d1 s1 s2 s3 : Reg) (s : State) : Outcome :=
  let src := s.xNat s1
  let len := s.xNat s2
  let dst := s.xNat s3
  let n := s.keys.kn.toNat
  let nblk := blockCount len (bpb n)
  conclude (
    if n = 0 then raise .divZero s
    else if !s.inRange src len then raise .ioRange s
    else if !s.inRange dst (8 * nblk) then raise .ioRange s
    else done ((s.memWrite dst
      (cipherBytes (encodeText s.params.mulmodMode (s.memRead src len) n s.keys.ke.toNat))).writeXNat d1 nblk))

/-- `kc.decode xD1, xS1, xS2, xS3` (rule R211). -/
def execKcDecode (d1 s1 s2 s3 : Reg) (s : State) : Outcome :=
  let src := s.xNat s1
  let cnt := s.xNat s2
  let dst := s.xNat s3
  let n := s.keys.kn.toNat
  let out := decodeText s.params.mulmodMode (s.cipherWords src cnt) n s.keys.kd.toNat
  conclude (
    if n = 0 then raise .divZero s
    else if !s.inRange src (8 * cnt) then raise .ioRange s
    else if !s.inRange dst out.length then raise .ioRange s
    else done ((s.memWrite dst out).writeXNat d1 out.length))

end Sys2Proof.Machine
end

