-- ==== Sys2Proof/Machine/Control.lean ====
section
/-! DEFINITION. Control.lean: the no-operation command and the illegal word (60_exceptions.md rules R232, R254). -/

namespace Sys2Proof.Machine

/-- `nop` (rule R254): only the completion with code 0x00. -/
def execNop (s : State) : Outcome := conclude (done s)

/-- A word that is no command (rule R232): it completes with ILLEGAL and nothing else. -/
def execIllegal (s : State) : Outcome := conclude (raise .illegal s)

end Sys2Proof.Machine
end

