-- ==== Sys2Proof/Machine/Flags.lean ====
section
/-! DEFINITION. Flags.lean: the STATUS word (10_state.md rule R28). The block has no condition codes: no command sets a flag
from an arithmetic result (rule R57), and these bits are its only flags. -/

namespace Sys2Proof.Machine

/-- One flag as a bit of a word. -/
def flagBit (f : Bool) : Word32 := if f then 1 else 0

/-- STATUS as the host reads it: bits [5:0], the rest zero (rule R28). -/
def Status.word (t : Status) : Word32 :=
  flagBit t.busy ||| flagBit t.err <<< 1 ||| flagBit t.accErr <<< 2 |||
  flagBit t.keygen <<< 3 ||| flagBit t.dvalid <<< 4 ||| flagBit t.dsess <<< 5

/-- A host write of v to STATUS: v[1] clears ERR, v[2] clears ACCERR, every other bit is ignored (rule R28). -/
def Status.clearBy (t : Status) (v : Word32) : Status :=
  { t with err := t.err && !v.getLsbD 1, accErr := t.accErr && !v.getLsbD 2 }

/-- A session is opened: DSESS <- 1, DVALID <- 0 (40_digest.md rule R122). -/
def Status.openSession (t : Status) : Status := { t with dsess := true, dvalid := false }

/-- A session is aborted by a digest I/O error: DSESS <- 0, DVALID <- 0 (40_digest.md rule R123). -/
def Status.abortSession (t : Status) : Status := { t with dsess := false, dvalid := false }

/-- A digest is published: DVALID <- 1, DSESS <- 0 (40_digest.md rule R124). -/
def Status.publish (t : Status) : Status := { t with dsess := false, dvalid := true }

end Sys2Proof.Machine
end

