-- ==== Sys2Proof/Machine/Digest.lean ====
section
/-! DEFINITION. Digest.lean: the Digest Engine (40_digest.md): compression, padding, hex rendering, and the commands
de.init, de.update, de.final, de.hash, de.hex. -/

namespace Sys2Proof.Machine

/-! ### The compression function (rules R111 to R117) -/

/-- The initial values of rule R111. -/
def digestIV : HashState := ⟨0x67452301, 0xEFCDAB89, 0x98BADCFE, 0x10325476⟩

/-- Word M[j] of a block (rule R112); j is taken mod 16. -/
def blockWord (blk : Vector Byte 64) (j : Nat) : Word32 :=
  le32 (blk[4 * (j % 16)]'(by omega)) (blk[4 * (j % 16) + 1]'(by omega))
    (blk[4 * (j % 16) + 2]'(by omega)) (blk[4 * (j % 16) + 3]'(by omega))

/-- The boolean function of a pass (rule R113), passes counted from 0. -/
def passFn (pass : Nat) (b c d : Word32) : Word32 :=
  match pass with
  | 0 => (b &&& c) ||| (~~~b &&& d)
  | 1 => (b &&& d) ||| (c &&& ~~~d)
  | 2 => b ^^^ c ^^^ d
  | _ => c ^^^ (b ||| ~~~d)

/-- T[0..15] of rule R115. -/
def roundConsts0 : List Word32 := [
  0xD76AA478, 0xE8C7B756, 0x242070DB, 0xC1BDCEEE, 0xF57C0FAF, 0x4787C62A, 0xA8304613, 0xFD469501,
  0x698098D8, 0x8B44F7AF, 0xFFFF5BB1, 0x895CD7BE, 0x6B901122, 0xFD987193, 0xA679438E, 0x49B40821]

/-- T[16..31] of rule R115. -/
def roundConsts1 : List Word32 := [
  0xF61E2562, 0xC040B340, 0x265E5A51, 0xE9B6C7AA, 0xD62F105D, 0x02441453, 0xD8A1E681, 0xE7D3FBC8,
  0x21E1CDE6, 0xC33707D6, 0xF4D50D87, 0x455A14ED, 0xA9E3E905, 0xFCEFA3F8, 0x676F02D9, 0x8D2A4C8A]

/-- T[32..47] of rule R115. -/
def roundConsts2 : List Word32 := [
  0xFFFA3942, 0x8771F681, 0x6D9D6122, 0xFDE5380C, 0xA4BEEA44, 0x4BDECFA9, 0xF6BB4B60, 0xBEBFBC70,
  0x289B7EC6, 0xEAA127FA, 0xD4EF3085, 0x04881D05, 0xD9D4D039, 0xE6DB99E5, 0x1FA27CF8, 0xC4AC5665]

/-- T[48..63] of rule R115. -/
def roundConsts3 : List Word32 := [
  0xF4292244, 0x432AFF97, 0xAB9423A7, 0xFC93A039, 0x655B59C3, 0x8F0CCC92, 0xFFEFF47D, 0x85845DD1,
  0x6FA87E4F, 0xFE2CE6E0, 0xA3014314, 0x4E0811A1, 0xF7537E82, 0xBD3AF235, 0x2AD7D2BB, 0xEB86D391]

/-- T[i] of rule R115, i = 0..63. -/
def roundConst (i : Nat) : Word32 :=
  (roundConsts0 ++ roundConsts1 ++ roundConsts2 ++ roundConsts3).getD i 0

/-- S[i] of rule R116: by pass, and within a pass by i mod 4. -/
def shiftAmount (i : Nat) : Nat :=
  match i / 16 with
  | 0 => [7, 12, 17, 22].getD (i % 4) 0
  | 1 => [5, 9, 14, 20].getD (i % 4) 0
  | 2 => [4, 11, 16, 23].getD (i % 4) 0
  | _ => [6, 10, 15, 21].getD (i % 4) 0

/-- sched(i) of rule R117. -/
def sched (i : Nat) : Nat :=
  match i / 16 with
  | 0 => i % 16
  | 1 => (5 * i + 1) % 16
  | 2 => (3 * i + 5) % 16
  | _ => 7 * i % 16

/-- `rol32(x, s)` of 00_scope.md rule R10. -/
def rol32 (x : Word32) (s : Nat) : Word32 := x <<< s ||| x >>> (32 - s)

/-- Round i of the compression step on the working copy (a, b, c, d) (rule R114). -/
def digestRound (blk : Vector Byte 64) (v : HashState) (i : Nat) : HashState :=
  let t := v.h0 + passFn (i / 16) v.h1 v.h2 v.h3 + blockWord blk (sched i) + roundConst i
  ⟨v.h3, v.h1 + rol32 t (shiftAmount i), v.h1, v.h2⟩

/-- The feed-forward: the working registers are added into the state registers, mod 2^32 each (rule R114). -/
def HashState.add (h v : HashState) : HashState := ⟨h.h0 + v.h0, h.h1 + v.h1, h.h2 + v.h2, h.h3 + v.h3⟩

/-- `compress(H, blk)` of rule R114. -/
def compress (h : HashState) (blk : Vector Byte 64) : HashState :=
  h.add ((List.range 64).foldl (digestRound blk) h)

/-! ### Absorbing, padding, serialising (rules R119, R120, R121, R123) -/

/-- One byte of the absorb loop of rule R123: it goes to BUF[FILL], and a full block is compressed. -/
def Session.absorbByte (d : Session) (v : Byte) : Session :=
  let buf := d.buf.set d.fill.toNat v d.fill.isLt
  if d.fill.toNat + 1 = 64 then { d with buf, fill := 0, h := compress d.h buf }
  else { d with buf, fill := d.fill + 1 }

/-- The absorb loop and the length of rule R123. -/
def Session.absorb (d : Session) (bs : List Byte) : Session :=
  { bs.foldl Session.absorbByte d with len := d.len + BitVec.ofNat 64 bs.length }

/-- Byte j of the length field: `bytes_le64((8 * L) mod 2^64)` of rule R119. -/
def lengthByte (len : Word64) (j : Nat) : Byte := (8 * len).extractLsb' (8 * j) 8

/-- The first block of `pad_final` (rule R119): the r tail bytes, the marker 0x80 in place at r, zeros, and the length in
the last 8 bytes if r < 56. -/
def padFirst (buf : Vector Byte 64) (r : Nat) (len : Word64) : Vector Byte 64 :=
  Vector.ofFn fun i : Fin 64 =>
    if i.val < r then buf[i]
    else if i.val = r then 0x80
    else if r < 56 ∧ 56 ≤ i.val then lengthByte len (i.val - 56)
    else 0x00

/-- The second block of `pad_final` when r >= 56 (rule R119): zeros and the length. -/
def padSecond (len : Word64) : Vector Byte 64 :=
  Vector.ofFn fun i : Fin 64 => if 56 ≤ i.val then lengthByte len (i.val - 56) else 0x00

/-- `pad_final` of rule R119 for the tail BUF[0..r-1] and the total length L: one or two blocks. -/
def padFinal (buf : Vector Byte 64) (r : Nat) (len : Word64) : List (Vector Byte 64) :=
  if r < 56 then [padFirst buf r len] else [padFirst buf r len, padSecond len]

/-- H after the final block or blocks (rule R124). -/
def Session.finalHash (d : Session) : HashState :=
  (padFinal d.buf d.fill.toNat d.len).foldl compress d.h

/-- The 16 digest bytes, each word little-endian (rule R120). -/
def HashState.bytes (h : HashState) : List Byte :=
  bytesLe32 h.h0 ++ bytesLe32 h.h1 ++ bytesLe32 h.h2 ++ bytesLe32 h.h3

/-- `digit(v)` of rule R121 for a nibble: ASCII '0'-'9', 'A'-'F'. -/
def hexDigit (v : Nat) : Byte := if v < 10 then BitVec.ofNat 8 (0x30 + v) else BitVec.ofNat 8 (0x41 + (v - 10))

/-- A byte as two uppercase hex digits, the high nibble first (rule R121). -/
def hexPair (b : Byte) : List Byte := [hexDigit (b.toNat / 16), hexDigit (b.toNat % 16)]

/-- `hex(dg, sep)` of rule R121, for any byte sequence: a separator before every byte but the first. -/
def hexRender (dg sep : List Byte) : List Byte :=
  match dg with
  | [] => []
  | b :: bs => hexPair b ++ bs.flatMap (fun v => sep ++ hexPair v)

/-! ### The parts of the commands -/

/-- The register writes of `de.init` (rule R122). -/
def State.openSession (s : State) : State :=
  { s with
    de := { h := digestIV, len := 0, fill := 0, buf := Vector.replicate 64 0x00 }
    status := s.status.openSession }

/-- The pseudocode of `de.update` (rule R123). -/
def updatePart (src len : Nat) (s : State) : Result :=
  if !s.status.dsess then raise .ioNoSession s
  else if !s.inRange src len then raise .ioRange { s with status := s.status.abortSession }
  else done { s with de := s.de.absorb (s.memRead src len) }

/-- The pseudocode of `de.final` (rule R124). -/
def finalPart (s : State) : Result :=
  if !s.status.dsess then raise .ioNoSession s
  else done { s with
    de := { s.de with h := s.de.finalHash }
    dg := s.de.finalHash
    status := s.status.publish }

/-! ### The commands -/

/-- `de.init` (rule R122). -/
def execDeInit (s : State) : Outcome := conclude (done s.openSession)

/-- `de.update xS1, xS2` (rule R123). -/
def execDeUpdate (s1 s2 : Reg) (s : State) : Outcome := conclude (updatePart (s.xNat s1) (s.xNat s2) s)

/-- `de.final` (rule R124). -/
def execDeFinal (s : State) : Outcome := conclude (finalPart s)

/-- `de.hash xS1, xS2` (rule R125): the effects of de.init, then de.update, then de.final, stopping at the first error. -/
def execDeHash (s1 s2 : Reg) (s : State) : Outcome :=
  conclude ((updatePart (s.xNat s1) (s.xNat s2) s.openSession).andThen finalPart)

/-- `de.hex xD1, xS1` (rule R126). -/
def execDeHex (d1 s1 : Reg) (s : State) : Outcome :=
  let dst := s.xNat s1
  let out := hexRender s.dg.bytes s.cfg.sepBytes
  let outLen := 32 + 15 * s.cfg.sepLen.toNat
  conclude (
    if !s.status.dvalid then raise .noDigest s
    else if !s.inRange dst outLen then raise .ioRange s
    else done ((s.memWrite dst out).writeXNat d1 outLen))

end Sys2Proof.Machine
end

