-- ==== Sys2Proof/Machine/Dispatch.lean ====
section
/-! DEFINITION. Dispatch.lean: one arm per command of 30_encoding.md rule R94. exec is the engine's whole step for a decoded
command, its completion (60_exceptions.md rule R243) included. -/

namespace Sys2Proof.Machine

def exec (i : Instr) (s : State) : Host.Outcome State Fault Refusal :=
  match i with
  | .nop => Sys2Proof.Machine.execNop s
  | .deInit => Sys2Proof.Machine.execDeInit s
  | .deUpdate s1 s2 => Sys2Proof.Machine.execDeUpdate s1 s2 s
  | .deFinal => Sys2Proof.Machine.execDeFinal s
  | .deHash s1 s2 => Sys2Proof.Machine.execDeHash s1 s2 s
  | .deHex d1 s1 => Sys2Proof.Machine.execDeHex d1 s1 s
  | .arPowmod d1 s1 s2 s3 => Sys2Proof.Machine.execArPowmod d1 s1 s2 s3 s
  | .arGcd d1 s1 s2 => Sys2Proof.Machine.execArGcd d1 s1 s2 s
  | .arEgcd d1 d2 d3 s1 s2 => Sys2Proof.Machine.execArEgcd d1 d2 d3 s1 s2 s
  | .arInv d1 s1 s2 => Sys2Proof.Machine.execArInv d1 s1 s2 s
  | .arJacobi d1 s1 s2 => Sys2Proof.Machine.execArJacobi d1 s1 s2 s
  | .arPrime d1 s1 => Sys2Proof.Machine.execArPrime d1 s1 s
  | .kcKeygen => Sys2Proof.Machine.execKcKeygen s
  | .kcBpb d1 s1 => Sys2Proof.Machine.execKcBpb d1 s1 s
  | .kcEncode d1 s1 s2 s3 => Sys2Proof.Machine.execKcEncode d1 s1 s2 s3 s
  | .kcDecode d1 s1 s2 s3 => Sys2Proof.Machine.execKcDecode d1 s1 s2 s3 s

end Sys2Proof.Machine
end

