-- ==== Sys2Proof/Machine/Port.lean ====
section
/-! DEFINITION. Port.lean: the host port (10_state.md rules R26 to R55, 20_memory.md rules R72 to R75 and R87). -/

namespace Sys2Proof.Machine

/-- The six cipher key registers (rules R50, R51). -/
inductive KeyReg where
  | kn
  | ke
  | kd
  | kp
  | kq
  | kphi
deriving DecidableEq, Repr

/-- What stands at an offset of the register map (rule R26). `hi` picks the half of a 64-bit register. -/
inductive Place where
  | id
  | status
  | cmd
  | lastErr
  | cfgK
  | cfgCap
  | cfgPmin
  | cfgPmax
  | sep
  | sepLen
  | cmdCnt
  | draws
  | deH (i : Fin 4)
  | deLen (hi : Bool)
  | deFill
  | dg (i : Fin 4)
  | x (i : Reg) (hi : Bool)
  | key (r : KeyReg) (hi : Bool)
  | deBuf (k : Fin 16)
  | bmem (a : Nat)
deriving DecidableEq, Repr

/-- The twelve words 0x000 to 0x02C. -/
def controlPlaces : List Place :=
  [.id, .status, .cmd, .lastErr, .cfgK, .cfgCap, .cfgPmin, .cfgPmax, .sep, .sepLen, .cmdCnt, .draws]

/-- The key registers from 0x0C0, in the map's order. -/
def keyOrder : List KeyReg := [.kn, .ke, .kd, .kp, .kq, .kphi]

/-- The register map of rule R26 by word index off / 4; none for a reserved offset (rule R53). `size` is BMEM_SIZE. -/
def placeAt (size word : Nat) : Option Place :=
  if word < 0x030 / 4 then controlPlaces[word]?
  else if 0x040 / 4 ≤ word ∧ word < 0x050 / 4 then some (.deH (Fin.ofNat 4 word))
  else if word = 0x050 / 4 then some (.deLen false)
  else if word = 0x054 / 4 then some (.deLen true)
  else if word = 0x058 / 4 then some .deFill
  else if 0x060 / 4 ≤ word ∧ word < 0x070 / 4 then some (.dg (Fin.ofNat 4 word))
  else if 0x080 / 4 ≤ word ∧ word < 0x0C0 / 4 then some (.x (Fin.ofNat 8 (word / 2)) (word % 2 == 1))
  else if 0x0C0 / 4 ≤ word ∧ word < 0x0F0 / 4 then
    keyOrder[(word - 0x0C0 / 4) / 2]?.map fun r => .key r (word % 2 == 1)
  else if 0x100 / 4 ≤ word ∧ word < 0x140 / 4 then some (.deBuf (Fin.ofNat 16 word))
  else if 0x1000 / 4 ≤ word ∧ 4 * word + 4 ≤ 0x1000 + size then some (.bmem (4 * word - 0x1000))
  else none

/-- What a host access at a byte offset reaches: none if it is misaligned (rule R74) or reserved (rules R53, R75). -/
def locate (size : Nat) (off : Offset) : Option Place :=
  if off.toNat % 4 = 0 then placeAt size (off.toNat / 4) else none

/-- Word i of H or DG. -/
def HashState.word (h : HashState) (i : Fin 4) : Word32 :=
  match i with
  | 0 => h.h0
  | 1 => h.h1
  | 2 => h.h2
  | 3 => h.h3

/-- A key register by name. -/
def Keys.get (k : Keys) (r : KeyReg) : Word64 :=
  match r with
  | .kn => k.kn
  | .ke => k.ke
  | .kd => k.kd
  | .kp => k.kp
  | .kq => k.kq
  | .kphi => k.kphi

/-- DE_BUFk of rule R52. -/
def Session.bufWord (d : Session) (k : Fin 16) : Word32 :=
  le32 (d.buf[4 * k.val]'(by omega)) (d.buf[4 * k.val + 1]'(by omega)) (d.buf[4 * k.val + 2]'(by omega))
    (d.buf[4 * k.val + 3]'(by omega))

/-- The value a host read returns (rules R27 to R52; 20_memory.md rule R73). No read has a side effect (rule R79). -/
def State.readPlace (s : State) : Place → Word32
  | .id => 0x544F5901
  | .status => s.status.word
  | .cmd => s.lastCmd
  | .lastErr => s.lastErr.setWidth 32
  | .cfgK => s.cfg.k.setWidth 32
  | .cfgCap => s.cfg.cap
  | .cfgPmin => s.cfg.pmin
  | .cfgPmax => s.cfg.pmax
  | .sep => s.cfg.sep
  | .sepLen => s.cfg.sepLen.setWidth 32
  | .cmdCnt => s.cmdCnt
  | .draws => s.source.draws
  | .deH i => s.de.h.word i
  | .deLen hi => half s.de.len hi
  | .deFill => s.de.fill.setWidth 32
  | .dg i => s.dg.word i
  | .x i hi => half (s.readX i) hi
  | .key r hi => half (s.keys.get r) hi
  | .deBuf k => s.de.bufWord k
  | .bmem a => le32 (s.readByte a) (s.readByte (a + 1)) (s.readByte (a + 2)) (s.readByte (a + 3))

/-- The length a write of v to SEPLEN stores: `min(v[2:0], 4)` (rule R42). -/
def sepLenOf (v : Word32) : BitVec 3 :=
  let n := v.extractLsb' 0 3
  if n.toNat ≤ 4 then n else 4

/-- KN, KE or KD with one half replaced (rule R50); none for KP, KQ, KPHI, which are RO (rule R51). -/
def Keys.write (k : Keys) (r : KeyReg) (hi : Bool) (v : Word32) : Option Keys :=
  match r with
  | .kn => some { k with kn := withHalf k.kn hi v }
  | .ke => some { k with ke := withHalf k.ke hi v }
  | .kd => some { k with kd := withHalf k.kd hi v }
  | .kp => none
  | .kq => none
  | .kphi => none

/-- A host write of v with BUSY = 0: the bits the register's rule defines are stored and the others ignored; none for a
RO register (rule R55). -/
def State.writePlace (s : State) (v : Word32) : Place → Option State
  | .id => none
  | .status => some { s with status := s.status.clearBy v }
  | .cmd => some (s.accept v)
  | .lastErr => none
  | .cfgK => some { s with cfg := { s.cfg with k := v.extractLsb' 0 8 } }
  | .cfgCap => some { s with cfg := { s.cfg with cap := v } }
  | .cfgPmin => some { s with cfg := { s.cfg with pmin := v } }
  | .cfgPmax => some { s with cfg := { s.cfg with pmax := v } }
  | .sep => some { s with cfg := { s.cfg with sep := v } }
  | .sepLen => some { s with cfg := { s.cfg with sepLen := sepLenOf v } }
  | .cmdCnt => none
  | .draws => none
  | .deH _ => none
  | .deLen _ => none
  | .deFill => none
  | .dg _ => none
  | .x i hi => some (s.writeX i (withHalf (s.readX i) hi v))
  | .key r hi => (s.keys.write r hi v).map fun k => { s with keys := k }
  | .deBuf _ => none
  | .bmem a => some (s.memWrite a (bytesLe32 v))

/-- The places a host may read while BUSY = 1: ID and STATUS (20_memory.md rule R87). -/
def Place.readableBusy : Place → Bool
  | .id => true
  | .status => true
  | _ => false

/-- The one place a host may write while BUSY = 1: STATUS (20_memory.md rule R87). -/
def Place.writableBusy : Place → Bool
  | .status => true
  | _ => false

/-- A host read: the value it returns and the state after it. A refused read returns 0 and sets ACCERR (rule R31). -/
def State.portRead (s : State) (off : Offset) : Word32 × State :=
  match locate s.params.bmemSize off with
  | none => (0, s.refuse)
  | some p => if s.status.busy && !p.readableBusy then (0, s.refuse) else (s.readPlace p, s)

/-- A host write: the state after it. A refused write sets ACCERR and changes nothing else (rule R31). -/
def State.portWrite (s : State) (off : Offset) (v : Word32) : State :=
  match locate s.params.bmemSize off with
  | none => s.refuse
  | some p => if s.status.busy && !p.writableBusy then s.refuse else (s.writePlace v p).getD s.refuse

/-- A host read as a move: the value goes to portData, which is the host's (log entry 7). -/
def State.hostRead (s : State) (off : Offset) : State := { (s.portRead off).2 with portData := (s.portRead off).1 }

end Sys2Proof.Machine
end

