-- ==== Sys2Proof/Machine/Turn.lean ====
section
/-! DEFINITION. Turn.lean: the turn of each agent (00_scope.md rule R16), and which agent moves next (20_memory.md rule R81). -/

namespace Sys2Proof.Machine

/-- The engine's turn: with BUSY = 1 it decodes PENDING and executes it as one indivisible step (30_encoding.md rule R99,
20_memory.md rule R80); with BUSY = 0 it is idle (70_reset_and_hazards.md rule R264). -/
def engineTurn (s : State) : Outcome :=
  if s.status.busy then
    match decode s.pending with
    | .ok i => exec i s
    | .error _ => execIllegal s
  else .next s

/-- One move of one agent. -/
def runMove (m : Move) (s : State) : Outcome :=
  match m with
  | .engine => engineTurn s
  | .hostRead off => .next (s.hostRead off)
  | .hostWrite off v => .next (s.portWrite off v)
  | .reset lost => .next (s.resetEvent lost)

/-- The next move of the interleaving. When no move is listed the engine has its turn, so that a command is never left
waiting for ever (70_reset_and_hazards.md rule R273; log entry 2). -/
def nextTurn (s : State) : Outcome :=
  match s.moves with
  | [] => engineTurn s
  | m :: rest => runMove m { s with moves := rest }

/-- The moves to come with the engine's turn first; an empty list means that already. -/
def engineFirst (moves : List Move) : List Move :=
  match moves with
  | [] => []
  | m :: rest => .engine :: m :: rest

/-- A command word accepted (10_state.md rule R25) and the engine's turn next. -/
def State.loadWord (s : State) (w : Word32) : State := { s.accept w with moves := engineFirst s.moves }

end Sys2Proof.Machine
end

