-- ==== Sys2Proof/Machine/Step.lean ====
section
/-! DEFINITION. Step.lean: one step of the machine, and the state whose next step runs a given command word. -/

namespace Sys2Proof.Machine

/-- One step: one move of one agent (20_memory.md rule R81). -/
def step (s : State) : Host.Outcome State Fault Refusal := nextTurn s

/-- s with a command word accepted, so that the very next step runs it. The block fetches nothing (10_state.md rule R24):
this is what a host write to CMD does with BUSY = 0 (rule R25), and the engine's turn after it (log entry 3). -/
def State.withFetchWord (s : State) (nbits w : Nat) : State := s.loadWord (BitVec.ofNat 32 (w % 2 ^ min nbits 32))

end Sys2Proof.Machine
end

