-- ==== Sys2Proof/Safety.lean ====
section
/-! DEFINITION. Safety.lean: the terms claims are made in: the forms every run keeps, a clean run, the state a command
leaves, and reference functions written apart from the machine (the padded message, the digest of a message, the Euler
check, binary powers, the searches of a key generation by their counters, the register map's values, hex characters). -/

namespace Sys2Proof.Machine

/-! ### The forms every step keeps -/

/-- MEMORY FORM: the parameters are those of 00_scope.md rule R8, and BMEM is in canonical form inside BMEM_SIZE. -/
abbrev State.memoryForm (s : State) : Prop :=
  s.params.wf ∧ Memory.wf s.bmem ∧ ∀ c ∈ s.bmem, c.1 < s.params.bmemSize

/-- DIGEST FORM: FILL counts the bytes past the last whole block of LEN (40_digest.md rule R123), no session is open while a
digest is valid (10_state.md rule R59), and a valid digest is H (40_digest.md rule R124). -/
abbrev State.digestForm (s : State) : Prop :=
  s.de.fill = s.de.len.setWidth 6 ∧ ¬(s.status.dsess = true ∧ s.status.dvalid = true) ∧
    (s.status.dvalid = true → s.de.h = s.dg)

/-- The values LASTERR may hold (60_exceptions.md rule R231). -/
def legalCodes : List Byte := [0x00, 0x01, 0x10, 0x11, 0x12, 0x20, 0x21, 0x22, 0x23, 0x30]

/-- REGISTER FORM: PENDING is the word LASTCMD shows (10_state.md rule R24), LASTERR is a code of 60_exceptions.md rule R231,
and SEPLEN is at most 4 (10_state.md rule R42). -/
abbrev State.registerForm (s : State) : Prop :=
  s.pending = s.lastCmd ∧ s.lastErr ∈ legalCodes ∧ s.cfg.sepLen.toNat ≤ 4

/-- KEY FORM: KP, KQ and KPHI are 0 until a key is generated and those of one key after it (10_state.md rules R32, R51;
42_cipher.md rule R200). -/
abbrev State.keyForm (s : State) : Prop :=
  (s.status.keygen = false → s.keys.kp = 0 ∧ s.keys.kq = 0 ∧ s.keys.kphi = 0) ∧
  (s.status.keygen = true → s.keys.kp ≠ s.keys.kq ∧ 128 ≤ s.keys.kp.toNat * s.keys.kq.toNat ∧
    s.keys.kp.toNat * s.keys.kq.toNat < 2 ^ 64 ∧
    s.keys.kphi.toNat = (s.keys.kp.toNat - 1) * (s.keys.kq.toNat - 1))

/-- A CLEAN RUN so far: no command failed and no access was refused since the bits were last cleared, the premises
70_reset_and_hazards.md rule R276 asks a claim to name. -/
abbrev State.clean (s : State) : Prop := s.status.err = false ∧ s.status.accErr = false

/-! ### What a command leaves -/

/-- A state with the completion of a successful command (60_exceptions.md rule R243, code 0x00). -/
def State.succeeded (s : State) : State :=
  { s with lastErr := 0x00, cmdCnt := s.cmdCnt + 1, status := { s.status with busy := false } }

/-- A state with the completion of a failing command (rule R243, code not 0x00). -/
def State.failed (s : State) (code : Byte) : State :=
  { s with lastErr := code, cmdCnt := s.cmdCnt + 1, status := { s.status with err := true, busy := false } }

/-- A state after a refused host access (10_state.md rule R31). -/
def State.refused (s : State) : State := { s with status := { s.status with accErr := true } }

/-- The destination registers a command names (30_encoding.md rule R94, columns D1, D2, D3). -/
def destRegs : Instr → List Reg
  | .nop => []
  | .deInit => []
  | .deUpdate _ _ => []
  | .deFinal => []
  | .deHash _ _ => []
  | .deHex d1 _ => [d1]
  | .arPowmod d1 _ _ _ => [d1]
  | .arGcd d1 _ _ => [d1]
  | .arEgcd d1 d2 d3 _ _ => [d1, d2, d3]
  | .arInv d1 _ _ => [d1]
  | .arJacobi d1 _ _ => [d1]
  | .arPrime d1 _ => [d1]
  | .kcKeygen => []
  | .kcBpb d1 _ => [d1]
  | .kcEncode d1 _ _ _ => [d1]
  | .kcDecode d1 _ _ _ => [d1]

/-- A command of the digest engine that writes its session: de.init, de.update, de.final, de.hash. -/
def sessionCommand : Instr → Bool
  | .deInit => true
  | .deUpdate _ _ => true
  | .deFinal => true
  | .deHash _ _ => true
  | _ => false

/-- A command that draws from the random source (42_cipher.md rule R190: "Only AR.PRIME and KC.KEYGEN draw"). -/
def drawingCommand : Instr → Bool
  | .arPrime _ _ => true
  | .kcKeygen => true
  | _ => false

/-- The BMEM range a command stores to when it succeeds, as first address and length: the destination address operand and
the length of what de.hex (rule R126), kc.encode (rule R210) and kc.decode (rule R211) write; length 0 for the others. -/
def storedRange (i : Instr) (s : State) : Nat × Nat :=
  match i with
  | .deHex _ s1 => (s.xNat s1, 32 + 15 * s.cfg.sepLen.toNat)
  | .kcEncode _ _ s2 s3 => (s.xNat s3, 8 * blockCount (s.xNat s2) (bpb s.keys.kn.toNat))
  | .kcDecode _ s1 s2 s3 =>
    (s.xNat s3, (decodeText s.params.mulmodMode (s.cipherWords (s.xNat s1) (s.xNat s2)) s.keys.kn.toNat
      s.keys.kd.toNat).length)
  | _ => (0, 0)

/-! ### Reference functions of the digest -/

/-- Bytes 64 i to 64 i + 63 of a message as a block. -/
def blockOf (bs : List Byte) (i : Nat) : Vector Byte 64 := Vector.ofFn fun j : Fin 64 => bs.getD (64 * i + j.val) 0x00

/-- All whole blocks of a byte sequence compressed in order (40_digest.md rule R118). -/
def compressAll (h : HashState) (bs : List Byte) : HashState :=
  (List.range (bs.length / 64)).foldl (fun h i => compress h (blockOf bs i)) h

/-- What follows the last r bytes of a message of length L (mod 2^64): the marker, zeros up to 56 mod 64, the length in bits
(40_digest.md rule R119). -/
def padding (r : Nat) (len : Word64) : List Byte :=
  [0x80] ++ List.replicate ((119 - r % 64) % 64) 0x00 ++ bytesLe64 (8 * len)

/-- The digest of a whole message, written apart from the streaming engine (40_digest.md rules R118, R119). -/
def digestOf (m : List Byte) : HashState :=
  compressAll digestIV (m ++ padding m.length (BitVec.ofNat 64 m.length))

/-- BUF after a session's bytes `all`, counted from the start of the current block, went through it (40_digest.md rule R123,
10_state.md rule R52): place j holds the last of them whose position is j mod 64, and its old byte if there is none. -/
def bufferAfter (old : Vector Byte 64) (all : List Byte) : Vector Byte 64 :=
  Vector.ofFn fun j : Fin 64 =>
    if j.val < all.length then all.getD (j.val + 64 * ((all.length - 1 - j.val) / 64)) 0x00 else old[j]

/-- The states of an open session that absorbed a message: de.init opens it, each successful de.update adds its bytes, and
what happens in between leaves the session registers and DSESS alone. -/
inductive Absorbed : List Byte → State → Prop where
  | opened {s t : State} (h : exec .deInit s = .next t) : Absorbed [] t
  | updated {m : List Byte} {s t : State} (s1 s2 : Reg) (hm : Absorbed m s) (h : exec (.deUpdate s1 s2) s = .next t)
      (ok : t.lastErr = 0x00) : Absorbed (m ++ s.memRead (s.xNat s1) (s.xNat s2)) t
  | between {m : List Byte} {s t : State} (hm : Absorbed m s) (hd : t.de = s.de)
      (hs : t.status.dsess = s.status.dsess) : Absorbed m t

/-- The uppercase hex digits (40_digest.md rule R121), as their ASCII codes. -/
def hexChar (v : Nat) : Byte :=
  [0x30, 0x31, 0x32, 0x33, 0x34, 0x35, 0x36, 0x37, 0x38, 0x39, 0x41, 0x42, 0x43, 0x44, 0x45, 0x46].getD v 0x00

/-! ### Reference functions of the arithmetic -/

/-- Where modular multiplication is exact on residues: MULMOD_MODE = EXACT, or n at most 2^32 (41_arith.md rule R151). -/
abbrev exactFor (mode : MulmodMode) (n : Nat) : Prop := mode = .exact ∨ n ≤ 2 ^ 32

/-- A power by the bits of the exponent, lowest first: square at every bit, multiply at every set one. -/
def binaryPower (mul : Nat → Nat → Nat) (b e one bits : Nat) : Nat :=
  ((List.range bits).foldl (fun p i => (if e.testBit i then mul p.1 p.2 else p.1, mul p.2 p.2)) (one, b)).1

/-- A power of a residue in the terms of number theory where multiplication is exact, by the bits of the exponent under
WRAP64 otherwise (41_arith.md rules R151, R152). -/
def powerMod (mode : MulmodMode) (a e c : Nat) : Nat :=
  if exactFor mode c then a ^ e % c
  else binaryPower (fun x y => x * y % 2 ^ 64 % c) (a % c) e (1 % c) 64

/-- The Solovay-Strassen check of an odd c with the witness of a draw, on the Jacobi symbol of number theory (41_arith.md
rules R160, R161). -/
def eulerPass (mode : MulmodMode) (c : Nat) (d : Word64) : Bool :=
  let a := 2 + d.toNat % (c - 3)
  decide (jacobiSym a c ≠ 0 ∧ (powerMod mode a ((c - 1) / 2) c : Int) = jacobiSym a c % (c : Int))

/-- The draw number i from now, 0 the next: the listed ones first, then the free ones (42_cipher.md rule R190). -/
def Source.ahead (r : Source) (i : Nat) : Word64 :=
  if i < r.queue.length then r.queue.getD i 0 else Config.freeDraw (r.pos + (i - r.queue.length))

/-- The random source after n draws, counted in DRAWS mod 2^32 (10_state.md rule R44). -/
def Source.after (r : Source) (n : Nat) : Source where
  draws := r.draws + BitVec.ofNat 32 n
  queue := r.queue.drop n
  pos := r.pos + (n - r.queue.length)

/-- The Solovay-Strassen test in the terms of number theory: the verdict on a candidate, and how many draws it takes
(41_arith.md rules R159, R162). -/
def primeVerdict (mode : MulmodMode) (c k : Nat) (r : Source) : Bool × Nat :=
  if c < 5 ∨ c % 2 = 0 then (decide (c = 2 ∨ c = 3), 0)
  else
    let good := (List.range k).takeWhile fun i => eulerPass mode c (r.ahead i)
    if good.length = k then (true, k) else (false, good.length + 1)

/-! ### How a key generation goes, in the spec's counters (42_cipher.md rules R193 to R197) -/

/-- The candidate a prime search draws next (rule R193). -/
def Search.candidate (z : Search) (r : Source) : Nat := z.pmin + (r.ahead 0).toNat % (z.pmax - z.pmin + 1)

/-- The verdict on it, and the draws it takes after its own (rule R202). -/
def Search.verdict (z : Search) (r : Source) : Bool × Nat := primeVerdict z.mode (z.candidate r) z.k (r.after 1)

/-- The source after that candidate and its witnesses. -/
def Search.passed (z : Search) (r : Source) : Source := r.after (1 + (z.verdict r).2)

/-- A prime search finds c, on a try whose number is at most CAP, every earlier candidate being rejected (rule R193). -/
def Search.FindsPrime (z : Search) (r : Source) (c : Nat) (r' : Source) : Prop :=
  ∃ i < z.cap, (∀ j < i, (z.verdict (z.passed^[j] r)).1 = false) ∧ (z.verdict (z.passed^[i] r)).1 = true ∧
    c = z.candidate (z.passed^[i] r) ∧ r' = z.passed^[i + 1] r

/-- A prime search is exhausted: CAP candidates are rejected, and there is no further try (rules R193, R194). -/
def Search.FindsNoPrime (z : Search) (r r' : Source) : Prop :=
  (∀ j < z.cap, (z.verdict (z.passed^[j] r)).1 = false) ∧ r' = z.passed^[z.cap] r

/-- One pair attempt finds p and then q (rule R195). -/
def Search.FindsPair (z : Search) (r : Source) (p q : Nat) (r' : Source) : Prop :=
  ∃ r1, z.FindsPrime r p r1 ∧ z.FindsPrime r1 q r'

/-- One pair attempt is exhausted in its first or its second prime search. -/
def Search.FindsNoPair (z : Search) (r r' : Source) : Prop :=
  z.FindsNoPrime r r' ∨ ∃ p r1, z.FindsPrime r p r1 ∧ z.FindsNoPrime r1 r'

/-- The first n pair attempts are rejected, for p = q or p * q < 128 (rule R195). -/
def Search.RejectsPairs (z : Search) : Nat → Source → Source → Prop
  | 0, r, r' => r' = r
  | n + 1, r, r' => ∃ p q r1, z.FindsPair r p q r1 ∧ (p = q ∨ p * q < 128) ∧ z.RejectsPairs n r1 r'

/-- A pair p, q is accepted on an attempt whose number is at most CAP; r' is the source after it. -/
def Search.AcceptsPair (z : Search) (r : Source) (p q : Nat) (r' : Source) : Prop :=
  ∃ i < z.cap, ∃ r1, z.RejectsPairs i r r1 ∧ z.FindsPair r1 p q r' ∧ p ≠ q ∧ 128 ≤ p * q

/-- The exponent the one exponent draw names (rule R197). -/
def firstExponent (p q : Nat) (r : Source) : Nat := 2 + (r.ahead 0).toNat % (totient p q - 2)

/-- kc.keygen is left with the key of p, q, e: a pair is accepted, and after at most CAP increments e is coprime to the
totient, none before it being so (rule R197's pseudocode; log entry 17). -/
def Search.GivesKey (z : Search) (r : Source) (p q e : Nat) (r' : Source) : Prop :=
  ∃ r1, z.AcceptsPair r p q r1 ∧ r' = r1.after 1 ∧ ∃ k ≤ z.cap, e = firstExponent p q r1 + k ∧
    Nat.gcd e (totient p q) = 1 ∧ ∀ j < k, Nat.gcd (firstExponent p q r1 + j) (totient p q) ≠ 1

/-- kc.keygen is exhausted: CAP pair attempts are rejected, or a prime search within them finds no prime, or neither the
first exponent nor CAP increments of it are coprime to the totient (rule R194; log entry 17). -/
def Search.Exhausts (z : Search) (r r' : Source) : Prop :=
  z.RejectsPairs z.cap r r' ∨
  (∃ i < z.cap, ∃ r1, z.RejectsPairs i r r1 ∧ z.FindsNoPair r1 r') ∨
  ∃ p q r1, z.AcceptsPair r p q r1 ∧ r' = r1.after 1 ∧
    ∀ j ≤ z.cap, Nat.gcd (firstExponent p q r1 + j) (totient p q) ≠ 1

/-- bytes_per_block by the thresholds 2^14 and 2^21 (42_cipher.md rules R203, R204). -/
def blockBytes (n : Nat) : Nat := if n < 2 ^ 14 then 1 else if n < 2 ^ 21 then 2 else 3

/-- Plaintext byte p of a range, 0 past its end (42_cipher.md rule R207). -/
def plainByte (s : State) (src len p : Nat) : Nat := if p < len then (s.readByte (src + p)).toNat else 0

/-- Digit p of the decoded text before stripping: digit p mod k of ciphertext word p div k (42_cipher.md rules R206, R208). -/
def decodedDigit (s : State) (src p : Nat) : Nat :=
  let k := blockBytes s.keys.kn.toNat
  powmod s.params.mulmodMode (leNat (s.memRead (src + 8 * (p / k)) 8)) s.keys.kd.toNat s.keys.kn.toNat /
    128 ^ (p % k) % 128

/-! ### The register map -/

/-- The aligned offsets 10_state.md rule R26 lists as reserved, BMEM_SIZE being `size`. -/
abbrev reservedOffset (size off : Nat) : Prop :=
  off % 4 = 0 ∧ ((0x030 ≤ off ∧ off ≤ 0x03C) ∨ off = 0x05C ∨ (0x070 ≤ off ∧ off ≤ 0x07C) ∨
    (0x0F0 ≤ off ∧ off ≤ 0x0FC) ∨ (0x140 ≤ off ∧ off ≤ 0xFFC) ∨ 0x1000 + size ≤ off)

/-- The low and the high half of a 64-bit register (10_state.md rules R22, R46, R50, R51). -/
def lowHalf (v : Word64) : Word32 := v.setWidth 32

def highHalf (v : Word64) : Word32 := (v >>> 32).setWidth 32

/-- A 64-bit register with its low or its high half replaced (10_state.md rules R22, R50). -/
def withLow (v : Word64) (w : Word32) : Word64 := BitVec.ofNat 64 (v.toNat / 2 ^ 32 * 2 ^ 32 + w.toNat)

def withHigh (v : Word64) (w : Word32) : Word64 := BitVec.ofNat 64 (w.toNat * 2 ^ 32 + v.toNat % 2 ^ 32)

/-- The value a read returns at each offset of 10_state.md rule R26 below the window (but STATUS, rule R28), the registers
0x000 to 0x02C. -/
def controlValues (s : State) : List (Nat × Word32) := [
  (0x000, 0x544F5901), (0x008, s.lastCmd), (0x00C, s.lastErr.setWidth 32), (0x010, s.cfg.k.setWidth 32),
  (0x014, s.cfg.cap), (0x018, s.cfg.pmin), (0x01C, s.cfg.pmax), (0x020, s.cfg.sep), (0x024, s.cfg.sepLen.setWidth 32),
  (0x028, s.cmdCnt), (0x02C, s.source.draws)]

/-- The digest registers (rules R45 to R48). -/
def digestValues (s : State) : List (Nat × Word32) := [
  (0x040, s.de.h.h0), (0x044, s.de.h.h1), (0x048, s.de.h.h2), (0x04C, s.de.h.h3), (0x050, lowHalf s.de.len),
  (0x054, highHalf s.de.len), (0x058, s.de.fill.setWidth 32), (0x060, s.dg.h0), (0x064, s.dg.h1), (0x068, s.dg.h2),
  (0x06C, s.dg.h3)]

/-- The key registers (rules R50, R51). -/
def keyValues (s : State) : List (Nat × Word32) := [
  (0x0C0, lowHalf s.keys.kn), (0x0C4, highHalf s.keys.kn), (0x0C8, lowHalf s.keys.ke), (0x0CC, highHalf s.keys.ke),
  (0x0D0, lowHalf s.keys.kd), (0x0D4, highHalf s.keys.kd), (0x0D8, lowHalf s.keys.kp), (0x0DC, highHalf s.keys.kp),
  (0x0E0, lowHalf s.keys.kq), (0x0E4, highHalf s.keys.kq), (0x0E8, lowHalf s.keys.kphi), (0x0EC, highHalf s.keys.kphi)]

/-- X0 to X7 (rule R22) and DE_BUF0 to DE_BUF15 (rule R52). -/
def arrayValues (s : State) : List (Nat × Word32) :=
  (List.finRange 8).flatMap (fun i => [(0x080 + 8 * i.val, lowHalf (s.readX i)), (0x084 + 8 * i.val, highHalf (s.readX i))]) ++
  (List.range 16).map fun k => (0x100 + 4 * k, BitVec.ofNat 32 (leNat ((s.de.buf.toList.drop (4 * k)).take 4)))

/-- All of them. -/
def registerValues (s : State) : List (Nat × Word32) :=
  controlValues s ++ digestValues s ++ keyValues s ++ arrayValues s

/-- The offsets of the read-only registers (10_state.md rules R26, R55). -/
def readOnlyOffsets : List Nat :=
  [0x000, 0x00C, 0x028, 0x02C, 0x040, 0x044, 0x048, 0x04C, 0x050, 0x054, 0x058, 0x060, 0x064, 0x068, 0x06C] ++
  [0x0D8, 0x0DC, 0x0E0, 0x0E4, 0x0E8, 0x0EC] ++
  [0x100, 0x104, 0x108, 0x10C, 0x110, 0x114, 0x118, 0x11C, 0x120, 0x124, 0x128, 0x12C, 0x130, 0x134, 0x138, 0x13C]

end Sys2Proof.Machine
end

