-- ==== Sys2Proof/Certificates/Slice0/Obligations.lean ====
section
/-! DEFINITION. Obligations.lean: the statements about the machine, from the numbered rules of spec/. -/

open Sys2Proof Sys2Proof.Machine

/-! ### Encoding (30_encoding.md) -/

/-- Every command is well formed and its word decodes to it, with every operand at every value (rules R91, R94, R99). -/
def Obligations.DecodeEncode : Prop :=
  ∀ i : Instr, i.wf = true ∧ decode (encode i) = .ok i

/-- A command has exactly one word: a word that decodes to a command is that command's word (rule R95). -/
def Obligations.EncodeDecode : Prop :=
  ∀ (w : Word32) (i : Instr), decode w = .ok i → encode i = w

/-- Rule R99: the row a word hits decides its command, whichever row it is, so no word hits two rows of different meaning;
a word that hits no row is refused. -/
def Obligations.DecodeByTheOneMatchingRow : Prop :=
  ∀ w : Word32,
    (∀ r ∈ opcodeRows, r.hits w = true → decode w = .ok (r.build (Format.ofWord w))) ∧
    ((∀ r ∈ opcodeRows, r.hits w = false) → ∃ e, decode w = .error e)

/-- Rules R95 to R97: a word is a command exactly if its OPC is assigned, its RSV is 0 and its unused fields are 0. The reason
the decoder names for refusing a word is the model's own (log entry 14). -/
def Obligations.DecodeAcceptsExactlyWellFormed : Prop :=
  ∀ w : Word32,
    ((∃ i, decode w = .ok i) ↔ (Format.ofWord w).wf = true) ∧
    ∀ e, decode w = .error e ↔ (Format.ofWord w).problem = some e

/-- Words of rule R100 and of the vectors of 95_test_vectors.md section 2.1, one or more of every family, and three of section
2.2 that are no commands; the reasons named for those are the model's own (log entry 14). -/
def Obligations.SampleWordsDecode : Prop :=
  decode 0x00000000 = .ok .nop ∧ decode 0x00004011 = .ok (.deUpdate 0 1) ∧ decode 0x00001A14 = .ok (.deHex 2 3) ∧
  decode 0x00044320 = .ok (.arPowmod 3 0 1 2) ∧ decode 0x01111822 = .ok (.arEgcd 0 1 2 3 4) ∧
  decode 0x02E0E722 = .ok (.arEgcd 7 6 5 4 3) ∧ decode 0x00000030 = .ok .kcKeygen ∧
  decode 0x000D6733 = .ok (.kcDecode 7 4 5 6) ∧ decode 0x00100021 = .error .unusedFieldNonzero ∧
  decode 0x04000010 = .error .reservedNonzero ∧ decode 0x00000015 = .error .unassignedOpcode

/-! ### The step (20_memory.md rules R80, R81; 60_exceptions.md rule R243) -/

/-- A step is the next move of State.moves, and with no move listed the engine's turn: the model's choice (log entries 1 and
2). The engine's turn with BUSY = 1 is exec of the command PENDING decodes to, with the move taken off the list, and with
BUSY = 0 it is idle. The other moves are the host's accesses and reset. -/
def Obligations.StepRunsTheDecodedCommand : Prop :=
  ∀ (s : State) (rest : List Move),
    (∀ i, s.status.busy = true → decode s.pending = .ok i →
      (s.moves = [] → step s = exec i s) ∧
      (s.moves = .engine :: rest → step s = exec i { s with moves := rest })) ∧
    (s.status.busy = false →
      (s.moves = [] → step s = .next s) ∧ (s.moves = .engine :: rest → step s = .next { s with moves := rest })) ∧
    (∀ off, s.moves = .hostRead off :: rest → step s = .next ({ s with moves := rest }.hostRead off)) ∧
    (∀ off v, s.moves = .hostWrite off v :: rest → step s = .next ({ s with moves := rest }.portWrite off v)) ∧
    (∀ lost, s.moves = .reset lost :: rest → step s = .next ({ s with moves := rest }.resetEvent lost))

/-- Rule R232: a word in PENDING that matches no row of the opcode map completes with ILLEGAL; nothing but the completion is
written, no draw is taken, and the word recorded is the command word, which LASTCMD holds since acceptance. -/
def Obligations.IllegalWordOnlyCompletes : Prop :=
  ∀ s : State, s.status.busy = true → (∀ r ∈ opcodeRows, r.hits s.pending = false) →
    engineTurn s = .next (s.failed 0x01) ∧ (s.failed 0x01).source = s.source ∧
    (s.pending = s.lastCmd → (s.failed 0x01).lastCmd = s.pending)

/-- Rules R19 and R243: every command completes in every state, one CMDCNT later, with BUSY = 0, a legal code in LASTERR, and
ERR set if the code is not 0x00 and kept otherwise. -/
def Obligations.EveryCommandCompletes : Prop :=
  ∀ (i : Instr) (s : State), ∃ t, exec i s = .next t ∧
    t.cmdCnt = s.cmdCnt + 1 ∧ t.status.busy = false ∧ t.lastErr ∈ legalCodes ∧
    (t.lastErr ≠ 0x00 → t.status.err = true) ∧ (t.lastErr = 0x00 → t.status.err = s.status.err)

/-- Rule R29: BUSY is set only by a host write to CMD, and cleared only by an engine turn or by reset. -/
def Obligations.BusyOnlyByAcceptanceAndCompletion : Prop :=
  ∀ s t : State, step s = .next t →
    (s.status.busy = false → t.status.busy = true → ∃ v rest, s.moves = .hostWrite 0x008 v :: rest) ∧
    (s.status.busy = true → t.status.busy = false →
      s.moves = [] ∨ (∃ rest, s.moves = .engine :: rest) ∨ ∃ lost rest, s.moves = .reset lost :: rest)

/-- Rule R30: ERR is set by every completion with a code other than 0, left alone by a completion with code 0, and cleared
only by a host write to STATUS with bit 1 set or by reset. Rule R31: ACCERR is set only by a refused host access, which does
nothing else, and cleared only by a host write to STATUS with bit 2 set or by reset. -/
def Obligations.StickyBitsStayUntilCleared : Prop :=
  (∀ s t : State, s.status.busy = true → engineTurn s = .next t →
    (t.lastErr ≠ 0x00 → t.status.err = true) ∧ (t.lastErr = 0x00 → t.status.err = s.status.err)) ∧
  (∀ s t : State, step s = .next t → s.status.err = true → t.status.err = false →
    (∃ v rest, s.moves = .hostWrite 0x004 v :: rest ∧ v.getLsbD 1 = true) ∨
      ∃ lost rest, s.moves = .reset lost :: rest) ∧
  (∀ s t : State, step s = .next t → s.status.accErr = true → t.status.accErr = false →
    (∃ v rest, s.moves = .hostWrite 0x004 v :: rest ∧ v.getLsbD 2 = true) ∨
      ∃ lost rest, s.moves = .reset lost :: rest) ∧
  ∀ s t : State, step s = .next t → s.status.accErr = false → t.status.accErr = true →
    ∃ rest, (∃ off, s.moves = .hostRead off :: rest ∧ t = State.refused { s with moves := rest, portData := 0 }) ∨
      ∃ off v, s.moves = .hostWrite off v :: rest ∧ t = State.refused { s with moves := rest }

/-- Rule R236: a failing command writes no general register, no BMEM byte, no key register, no configuration and no digest
register; only de.update and de.hash, when they fail, write the session, and only ar.prime and kc.keygen may have drawn. -/
def Obligations.FailingCommandWritesNoResult : Prop :=
  ∀ (i : Instr) (s t : State), exec i s = .next t → t.lastErr ≠ 0x00 →
    t.x = s.x ∧ t.bmem = s.bmem ∧ t.keys = s.keys ∧ t.cfg = s.cfg ∧ t.dg = s.dg ∧
    t.status.keygen = s.status.keygen ∧
    (drawingCommand i = false → t.source = s.source) ∧
    ((∀ a b, i ≠ .deUpdate a b ∧ i ≠ .deHash a b) →
      t.de = s.de ∧ t.status.dsess = s.status.dsess ∧ t.status.dvalid = s.status.dvalid)

/-- Rules R32 and R51: a step other than reset that changes KP, KQ, KPHI or KEYGEN is the engine's turn executing a
kc.keygen, which completes with code 0x00 and leaves KEYGEN = 1. -/
def Obligations.OnlyKeygenWritesThePrimes : Prop :=
  ∀ s t : State, step s = .next t → (∀ lost rest, s.moves ≠ .reset lost :: rest) →
    ((t.keys.kp, t.keys.kq, t.keys.kphi, t.status.keygen) ≠ (s.keys.kp, s.keys.kq, s.keys.kphi, s.status.keygen)) →
      (s.moves = [] ∨ ∃ rest, s.moves = .engine :: rest) ∧ s.status.busy = true ∧ decode s.pending = .ok .kcKeygen ∧
      t.status.busy = false ∧ t.lastErr = 0x00 ∧ t.status.keygen = true

/-! ### Reset and invariants (10_state.md rule R56) -/

/-- Rule R56: after the reset event every piece of state has the rule's value. That nothing is listed in BMEM is how the model
says that its bytes are unspecified (log entry 5), and that the parameters stay is the model's choice (log entry 6). -/
def Obligations.ResetValues : Prop :=
  ∀ (s : State) (lost : Nat) (rest : List Move), s.moves = .reset lost :: rest → ∃ t, step s = .next t ∧
    (∀ i, t.readX i = 0) ∧ t.pending = 0 ∧ t.lastCmd = 0 ∧
    t.status = ⟨false, false, false, false, false, false⟩ ∧ t.lastErr = 0x00 ∧
    t.cfg.k = 20 ∧ t.cfg.cap = 0x00100000 ∧ t.cfg.pmin = 3 ∧ t.cfg.pmax = 65535 ∧
    t.cfg.sep = 0x0000003A ∧ t.cfg.sepLen = 1 ∧ t.cmdCnt = 0 ∧ t.source.draws = 0 ∧
    t.de.h = ⟨0, 0, 0, 0⟩ ∧ t.de.len = 0 ∧ t.de.fill = 0 ∧ (∀ j : Fin 64, t.de.buf[j] = 0x00) ∧
    t.dg = ⟨0, 0, 0, 0⟩ ∧ t.keys = ⟨0, 0, 0, 0, 0, 0⟩ ∧
    (∀ a, t.bmem.lookup a = none) ∧ t.params = s.params

/-- The state right after reset has all four forms. -/
def Obligations.ResetMeetsForms : Prop :=
  State.reset.memoryForm ∧ State.reset.digestForm ∧ State.reset.registerForm ∧ State.reset.keyForm

/-- Every step keeps the memory form: canonical, inside BMEM_SIZE, parameters legal; and no step changes the parameters. -/
def Obligations.StepKeepsMemoryForm : Prop :=
  ∀ s t : State, s.memoryForm → step s = .next t → t.memoryForm ∧ t.params = s.params

/-- Every step keeps the digest form. -/
def Obligations.StepKeepsDigestForm : Prop :=
  ∀ s t : State, s.digestForm → step s = .next t → t.digestForm

/-- Every step keeps the register form. -/
def Obligations.StepKeepsRegisterForm : Prop :=
  ∀ s t : State, s.registerForm → step s = .next t → t.registerForm

/-- Every step keeps the key form: what kc.keygen leaves in KP, KQ, KPHI belongs together, whatever was drawn. -/
def Obligations.StepKeepsKeyForm : Prop :=
  ∀ s t : State, s.keyForm → step s = .next t → t.keyForm

/-! ### The host port (10_state.md, 20_memory.md) -/

/-- Rule R25: a host write to CMD is accepted with BUSY = 0 and refused with BUSY = 1, and the engine executes PENDING in one
step that ends with BUSY = 0. -/
def Obligations.CmdWriteAccepts : Prop :=
  ∀ (s : State) (v : Word32),
    (s.status.busy = false → s.portWrite 0x008 v =
      { s with lastCmd := v, pending := v, status := { s.status with busy := true } }) ∧
    (s.status.busy = true → s.portWrite 0x008 v = s.refused) ∧
    (s.status.busy = true → (∀ i, decode s.pending = .ok i → engineTurn s = exec i s) ∧
      ∃ t, engineTurn s = .next t ∧ t.status.busy = false)

/-- Rule R87: while BUSY = 1, ID and STATUS read as always, a write of STATUS has its effect, and every other access,
aligned or not, is refused. -/
def Obligations.BusyPortRefuses : Prop :=
  ∀ (s : State) (off : Offset) (v : Word32), s.status.busy = true →
    s.portRead 0x000 = (0x544F5901, s) ∧ s.portRead 0x004 = (s.status.word, s) ∧
    s.portWrite 0x004 v = { s with status := s.status.clearBy v } ∧
    (off ≠ 0x000 → off ≠ 0x004 → s.portRead off = (0, s.refused)) ∧
    (off ≠ 0x004 → s.portWrite off v = s.refused)

/-- Rules R53, R74 and R75: every access to a misaligned or reserved offset reads 0, writes nothing and sets ACCERR; and the
other offsets are not refused: with BUSY = 0 their reads change nothing. -/
def Obligations.UnmappedAccessRefused : Prop :=
  ∀ (s : State) (off : Offset) (v : Word32), s.params.wf →
    (off.toNat % 4 ≠ 0 ∨ reservedOffset s.params.bmemSize off.toNat →
      s.portRead off = (0, s.refused) ∧ s.portWrite off v = s.refused) ∧
    (off.toNat % 4 = 0 → ¬ reservedOffset s.params.bmemSize off.toNat → s.status.busy = false → (s.portRead off).2 = s)

/-- Rule R55: a write to a read-only register changes nothing and sets ACCERR. -/
def Obligations.ReadOnlyWritesRefused : Prop :=
  ∀ (s : State) (v : Word32), ∀ off ∈ readOnlyOffsets, s.portWrite (BitVec.ofNat 16 off) v = s.refused

/-- Rule R28: the bits of STATUS, its write-1-to-clear bits, and that BUSY = 1 changes neither. -/
def Obligations.StatusReadAndClear : Prop :=
  (∀ s : State, (s.portRead 0x004).2 = s ∧ ∀ i, (s.portRead 0x004).1.getLsbD i =
    (if i = 0 then s.status.busy else if i = 1 then s.status.err else if i = 2 then s.status.accErr
      else if i = 3 then s.status.keygen else if i = 4 then s.status.dvalid else if i = 5 then s.status.dsess
      else false)) ∧
  (∀ (s : State) (v : Word32), s.portWrite 0x004 v = { s with status := { s.status with
    err := s.status.err && !v.getLsbD 1, accErr := s.status.accErr && !v.getLsbD 2 } }) ∧
  State.reset.status.word = 0

/-- Rules R37 to R42: what each configuration register stores of a value written with BUSY = 0, and that the write changes
that register alone; and what it reads back. -/
def Obligations.ConfigurationReadsBack : Prop :=
  ∀ (s : State) (v : Word32), s.status.busy = false →
    s.portWrite 0x010 v = { s with cfg := { s.cfg with k := v.setWidth 8 } } ∧
    s.portWrite 0x014 v = { s with cfg := { s.cfg with cap := v } } ∧
    s.portWrite 0x018 v = { s with cfg := { s.cfg with pmin := v } } ∧
    s.portWrite 0x01C v = { s with cfg := { s.cfg with pmax := v } } ∧
    s.portWrite 0x020 v = { s with cfg := { s.cfg with sep := v } } ∧
    s.portWrite 0x024 v = { s with cfg := { s.cfg with sepLen := BitVec.ofNat 3 (min (v.toNat % 8) 4) } } ∧
    ((s.portWrite 0x010 v).portRead 0x010).1.toNat = v.toNat % 256 ∧
    ((s.portWrite 0x014 v).portRead 0x014).1 = v ∧
    ((s.portWrite 0x018 v).portRead 0x018).1 = v ∧
    ((s.portWrite 0x01C v).portRead 0x01C).1 = v ∧
    ((s.portWrite 0x020 v).portRead 0x020).1 = v ∧
    ((s.portWrite 0x024 v).portRead 0x024).1.toNat = min (v.toNat % 8) 4

/-- Rules R22 and R50: with BUSY = 0 a host write to one half of Xi, KN, KE or KD replaces that half, keeps the other half
and every other register, and changes nothing else; and the host reads the two halves. -/
def Obligations.RegisterHalvesAreIndependent : Prop :=
  ∀ (s : State) (i : Reg) (v : Word32), s.status.busy = false →
    s.portWrite (BitVec.ofNat 16 (0x080 + 8 * i.val)) v = s.writeX i (withLow (s.readX i) v) ∧
    s.portWrite (BitVec.ofNat 16 (0x084 + 8 * i.val)) v = s.writeX i (withHigh (s.readX i) v) ∧
    (s.portRead (BitVec.ofNat 16 (0x080 + 8 * i.val))).1.toNat = (s.readX i).toNat % 2 ^ 32 ∧
    (s.portRead (BitVec.ofNat 16 (0x084 + 8 * i.val))).1.toNat = (s.readX i).toNat / 2 ^ 32 ∧
    s.portWrite 0x0C0 v = { s with keys := { s.keys with kn := withLow s.keys.kn v } } ∧
    s.portWrite 0x0C4 v = { s with keys := { s.keys with kn := withHigh s.keys.kn v } } ∧
    s.portWrite 0x0C8 v = { s with keys := { s.keys with ke := withLow s.keys.ke v } } ∧
    s.portWrite 0x0CC v = { s with keys := { s.keys with ke := withHigh s.keys.ke v } } ∧
    s.portWrite 0x0D0 v = { s with keys := { s.keys with kd := withLow s.keys.kd v } } ∧
    s.portWrite 0x0D4 v = { s with keys := { s.keys with kd := withHigh s.keys.kd v } } ∧
    (s.portRead 0x0C0).1.toNat = s.keys.kn.toNat % 2 ^ 32 ∧ (s.portRead 0x0C4).1.toNat = s.keys.kn.toNat / 2 ^ 32 ∧
    (s.portRead 0x0C8).1.toNat = s.keys.ke.toNat % 2 ^ 32 ∧ (s.portRead 0x0CC).1.toNat = s.keys.ke.toNat / 2 ^ 32 ∧
    (s.portRead 0x0D0).1.toNat = s.keys.kd.toNat % 2 ^ 32 ∧ (s.portRead 0x0D4).1.toNat = s.keys.kd.toNat / 2 ^ 32

/-- Rule R73: with BUSY = 0 an aligned word of the window reads as its four bytes, least significant first, and a write
stores them so, leaving every other byte, every register and STATUS. -/
def Obligations.WindowIsLittleEndian : Prop :=
  ∀ (s : State) (a : Nat) (v : Word32), s.status.busy = false → s.params.wf → Memory.wf s.bmem → a % 4 = 0 →
    a + 4 ≤ s.params.bmemSize →
      (s.portRead (BitVec.ofNat 16 (0x1000 + a))).1.toNat =
        (s.readByte a).toNat + 256 * (s.readByte (a + 1)).toNat + 65536 * (s.readByte (a + 2)).toNat +
          16777216 * (s.readByte (a + 3)).toNat ∧
      (∀ k, (s.portWrite (BitVec.ofNat 16 (0x1000 + a)) v).readByte k =
        if k = a then v.extractLsb' 0 8 else if k = a + 1 then v.extractLsb' 8 8
        else if k = a + 2 then v.extractLsb' 16 8 else if k = a + 3 then v.extractLsb' 24 8 else s.readByte k) ∧
      s.portWrite (BitVec.ofNat 16 (0x1000 + a)) v =
        { s with bmem := (s.portWrite (BitVec.ofNat 16 (0x1000 + a)) v).bmem }

/-- Rule R79: a host read changes nothing but ACCERR if it is refused, and the same read again returns the same value. Rules
R26, R27, R35 to R52 and R55: with BUSY = 0 a read of a register returns its value, at the offset the register map gives it. -/
def Obligations.ReadsHaveNoSideEffect : Prop :=
  (∀ (s : State) (off : Offset),
    ((s.portRead off).2 = s ∨ (s.portRead off = (0, s.refused))) ∧
    ((s.portRead off).2.portRead off).1 = (s.portRead off).1) ∧
  ∀ s : State, s.status.busy = false → ∀ c ∈ registerValues s, s.portRead (BitVec.ofNat 16 c.1) = (c.2, s)

/-! ### The no-operation and the digest engine (40_digest.md) -/

/-- Rule R254: nop is the word 0, and no other word has its OPC; it does nothing but complete with code 0x00: LASTERR is
cleared, ERR is not. -/
def Obligations.NopOnlyCompletes : Prop :=
  encode .nop = 0x00000000 ∧ decode 0x00000000 = .ok .nop ∧
  (∀ w : Word32, w.extractLsb' 0 8 = 0x00 → w ≠ 0x00000000 → ∃ e, decode w = .error e) ∧
  ∀ s : State, exec .nop s = .next
    { s with lastErr := 0x00, cmdCnt := s.cmdCnt + 1, status := { s.status with busy := false } }

/-- Rule R122: de.init, the word 0x10, opens a session, in any state, and writes nothing but the session and its flags. -/
def Obligations.DeInitOpensSession : Prop :=
  encode .deInit = 0x00000010 ∧
  ∀ s : State, exec .deInit s = .next (State.succeeded { s with
    de := { h := ⟨0x67452301, 0xEFCDAB89, 0x98BADCFE, 0x10325476⟩, len := 0, fill := 0,
            buf := Vector.replicate 64 0x00 }
    status := { s.status with dsess := true, dvalid := false } })

/-- Rules R123, R89, R118 and R52: de.update in an open session, its range in BMEM, cuts the bytes in BUF and the bytes read
into blocks of 64, compresses the whole ones in order, keeps the rest in BUF, and counts LEN. A place of BUF no byte went to
keeps its byte, and one past FILL the last byte that went there; with length 0 nothing changes. -/
def Obligations.DeUpdateAbsorbs : Prop :=
  ∀ (s1 s2 : Reg) (s : State), s.status.dsess = true → s.xNat s1 + s.xNat s2 ≤ s.params.bmemSize →
    let all := s.de.buf.toList.take s.de.fill.toNat ++ s.memRead (s.xNat s1) (s.xNat s2)
    let buf := bufferAfter s.de.buf all
    buf.toList.take (all.length % 64) = all.drop (64 * (all.length / 64)) ∧
    exec (.deUpdate s1 s2) s = .next (State.succeeded { s with de := {
      h := compressAll s.de.h all
      len := s.de.len + BitVec.ofNat 64 (s.xNat s2)
      fill := BitVec.ofNat 6 (all.length % 64)
      buf := buf } }) ∧
    (s.xNat s2 = 0 → exec (.deUpdate s1 s2) s = .next s.succeeded)

/-- Rules R234 and R235: de.update and de.final without a session fail with IO_NOSESSION, de.hex without a valid digest with
NODIGEST, and nothing but the completion happens. -/
def Obligations.StateChecksChangeNothing : Prop :=
  ∀ (r1 r2 : Reg) (s : State),
    (s.status.dsess = false → exec (.deUpdate r1 r2) s = .next (s.failed 0x11) ∧
      exec .deFinal s = .next (s.failed 0x11)) ∧
    (s.status.dvalid = false → exec (.deHex r1 r2) s = .next (s.failed 0x12))

/-- Rules R123, R125, R126 and R233: a range outside BMEM. de.update aborts the session, de.hash leaves a discarded session,
de.hex changes nothing, and each completes with IO_RANGE. -/
def Obligations.DigestRangeErrors : Prop :=
  ∀ (r1 r2 : Reg) (s : State),
    (s.params.bmemSize < s.xNat r1 + s.xNat r2 → s.status.dsess = true →
      exec (.deUpdate r1 r2) s =
        .next (State.failed { s with status := { s.status with dsess := false, dvalid := false } } 0x10)) ∧
    (s.params.bmemSize < s.xNat r1 + s.xNat r2 →
      exec (.deHash r1 r2) s = .next (State.failed { s with
        de := { h := digestIV, len := 0, fill := 0, buf := Vector.replicate 64 0x00 }
        status := { s.status with dsess := false, dvalid := false } } 0x10)) ∧
    (s.status.dvalid = true → s.params.bmemSize < s.xNat r2 + (32 + 15 * s.cfg.sepLen.toNat) →
      exec (.deHex r1 r2) s = .next (s.failed 0x10))

/-- Rules R124 and R119: de.final in an open session compresses the tail with its padding, publishes H in DG and closes the
session; LEN, FILL and BUF stay. -/
def Obligations.DeFinalPublishes : Prop :=
  ∀ s : State, s.status.dsess = true →
    let h := compressAll s.de.h
      (s.de.buf.toList.take s.de.fill.toNat ++ padding s.de.fill.toNat s.de.len)
    exec .deFinal s = .next (State.succeeded { s with
      de := { s.de with h := h }
      dg := h
      status := { s.status with dvalid := true, dsess := false } })

/-- Rules R125, R118, R119 and R52: de.hash, its range in BMEM, leaves in DG the digest of the whole message: the initial
values run over the blocks of the message with its padding. BUF holds the message's last bytes over de.init's zeros, those
past the last whole block in its first FILL places. -/
def Obligations.DeHashIsDigestOfMessage : Prop :=
  ∀ (s1 s2 : Reg) (s : State), s.xNat s1 + s.xNat s2 ≤ s.params.bmemSize →
    let m := s.memRead (s.xNat s1) (s.xNat s2)
    let buf := bufferAfter (Vector.replicate 64 0x00) m
    buf.toList.take (m.length % 64) = m.drop (64 * (m.length / 64)) ∧
    exec (.deHash s1 s2) s = .next (State.succeeded { s with
      de := { h := digestOf m, len := BitVec.ofNat 64 (s.xNat s2), fill := BitVec.ofNat 6 (s.xNat s2), buf := buf }
      dg := digestOf m
      status := { s.status with dvalid := true, dsess := false } })

/-- Rules R127 and R128: however a message is cut into chunks, and whatever else happens between the commands, de.init, the
de.updates and de.final leave in DG what de.hash of the whole message leaves. -/
def Obligations.SessionEqualsOneShot : Prop :=
  ∀ (m : List Byte) (s t : State), Absorbed m s → exec .deFinal s = .next t →
    t.lastErr = 0x00 → t.status.dvalid = true ∧ t.dg = digestOf m ∧
    ∀ (s1 s2 : Reg) (u v : State), u.memRead (u.xNat s1) (u.xNat s2) = m → exec (.deHash s1 s2) u = .next v →
      v.lastErr = 0x00 → v.dg = t.dg

/-- Rules R126 and R121: de.hex with a valid digest, its range in BMEM, writes digit pairs with k separator bytes between
them, and the length to D1. -/
def Obligations.DeHexRenders : Prop :=
  ∀ (d1 s1 : Reg) (s : State), s.status.dvalid = true → s.cfg.sepLen.toNat ≤ 4 → Memory.wf s.bmem →
    s.xNat s1 + (32 + 15 * s.cfg.sepLen.toNat) ≤ s.params.bmemSize →
    let k := s.cfg.sepLen.toNat
    let byte := fun i : Nat => (s.dg.bytes.getD i 0).toNat
    ∃ t, exec (.deHex d1 s1) s = .next t ∧ t.lastErr = 0x00 ∧
      t.readX d1 = BitVec.ofNat 64 (32 + 15 * k) ∧
      (∀ i < 16, t.readByte (s.xNat s1 + i * (2 + k)) = hexChar (byte i / 16) ∧
        t.readByte (s.xNat s1 + i * (2 + k) + 1) = hexChar (byte i % 16)) ∧
      (∀ i < 15, ∀ j < k, t.readByte (s.xNat s1 + i * (2 + k) + 2 + j) = s.cfg.sep.extractLsb' (8 * j) 8)

/-- The frame of the digest commands de.init, de.update, de.final, de.hash: they write the session, DG and their flags only;
no general register, no byte of memory. DG is de.final's and de.hash's alone. -/
def Obligations.DigestCommandFrame : Prop :=
  ∀ (i : Instr) (s t : State), sessionCommand i = true → exec i s = .next t →
    (∀ r, t.readX r = s.readX r) ∧ (∀ a, t.readByte a = s.readByte a) ∧
    t.lastCmd = s.lastCmd ∧ t.pending = s.pending ∧ t.cfg = s.cfg ∧ t.source = s.source ∧ t.keys = s.keys ∧
    t.params = s.params ∧ t.moves = s.moves ∧ t.portData = s.portData ∧ t.resets = s.resets ∧
    t.status.accErr = s.status.accErr ∧ t.status.keygen = s.status.keygen ∧
    ((i = .deInit ∨ ∃ a b, i = .deUpdate a b) → t.dg = s.dg)

/-! ### The arithmetic helpers (41_arith.md) -/

/-- Rule R152: powmod multiplies by the bits of the exponent, lowest first, bitlen(e) of them, in either MULMOD_MODE; where
the multiplication is exact the result is b^e mod n. -/
def Obligations.PowmodIsBinaryAndExact : Prop :=
  ∀ (mode : MulmodMode) (b e n : Nat), 1 ≤ n →
    powmod mode b e n = binaryPower (fun x y => mulmod mode x y n) (b % n) e (1 % n) (bitlen e) ∧
    (exactFor mode n → powmod mode b e n = b ^ e % n)

/-- Rule R163: ar.powmod with n > 0 writes the power to D1, in either mode, and nothing else. -/
def Obligations.ArPowmodResult : Prop :=
  ∀ (d1 s1 s2 s3 : Reg) (s : State), s.xNat s3 ≠ 0 →
    ∃ r, r < s.xNat s3 ∧
      r = binaryPower (fun x y => mulmod s.params.mulmodMode x y (s.xNat s3)) (s.xNat s1 % s.xNat s3) (s.xNat s2)
        (1 % s.xNat s3) 64 ∧
      (exactFor s.params.mulmodMode (s.xNat s3) → r = s.xNat s1 ^ s.xNat s2 % s.xNat s3) ∧
      exec (.arPowmod d1 s1 s2 s3) s = .next (s.writeX d1 (BitVec.ofNat 64 r)).succeeded

/-- Rule R237: a modulus of 0 fails with DIVZERO before any other work, in ar.powmod, ar.inv, kc.encode and kc.decode, and
nothing but the completion happens. -/
def Obligations.ZeroModulusFails : Prop :=
  ∀ (d1 s1 s2 s3 : Reg) (s : State),
    (s.xNat s3 = 0 → exec (.arPowmod d1 s1 s2 s3) s = .next (s.failed 0x20)) ∧
    (s.xNat s2 = 0 → exec (.arInv d1 s1 s2) s = .next (s.failed 0x20)) ∧
    (s.keys.kn = 0 → exec (.kcEncode d1 s1 s2 s3) s = .next (s.failed 0x20) ∧
      exec (.kcDecode d1 s1 s2 s3) s = .next (s.failed 0x20))

/-- Rules R164 and R153: ar.gcd writes the greatest common divisor to D1 and nothing else. -/
def Obligations.ArGcdResult : Prop :=
  ∀ (d1 s1 s2 : Reg) (s : State),
    exec (.arGcd d1 s1 s2) s = .next (s.writeX d1 (BitVec.ofNat 64 (Nat.gcd (s.xNat s1) (s.xNat s2)))).succeeded

/-- Rules R165, R154 and R155: ar.egcd writes g, then s, then t with a*s + b*t = g = gcd(a, b). The coefficients are those of
the iteration of rule R154, which are Mathlib's Bezout coefficients of b and a; those of (a, 0), (0, b) and (a, a) are the
rule's. Each is in the range of rule R155 and so exact in its register. -/
def Obligations.ArEgcdResult : Prop :=
  ∀ (d1 d2 d3 s1 s2 : Reg) (s : State),
    let a := s.xNat s1
    let b := s.xNat s2
    let g := Nat.gcd a b
    let u := Nat.gcdB b a
    let v := Nat.gcdA b a
    (a : Int) * u + b * v = g ∧
    (g ≠ 0 → 2 * g * u.natAbs ≤ max (2 * g) b ∧ 2 * g * v.natAbs ≤ max (2 * g) a) ∧
    (b = 0 → u = 1 ∧ v = 0) ∧ (a = 0 → b ≠ 0 → u = 0 ∧ v = 1) ∧ (a = b → b ≠ 0 → u = 0 ∧ v = 1) ∧
    (BitVec.ofInt 64 u).toInt = u ∧ (BitVec.ofInt 64 v).toInt = v ∧
    exec (.arEgcd d1 d2 d3 s1 s2) s = .next
      (((s.writeX d1 (BitVec.ofNat 64 g)).writeX d2 (BitVec.ofInt 64 u)).writeX d3 (BitVec.ofInt 64 v)).succeeded

/-- Rules R166 and R156: ar.inv with m > 0 and gcd(e, m) = 1 writes the one inverse of e in [0, m) to D1 and nothing else. -/
def Obligations.ArInvResult : Prop :=
  ∀ (d1 s1 s2 : Reg) (s : State), s.xNat s2 ≠ 0 → Nat.gcd (s.xNat s1) (s.xNat s2) = 1 →
    ∃ d, d < s.xNat s2 ∧ s.xNat s1 * d % s.xNat s2 = 1 % s.xNat s2 ∧
      exec (.arInv d1 s1 s2) s = .next (s.writeX d1 (BitVec.ofNat 64 d)).succeeded

/-- Rule R239: ar.inv with m >= 1 and gcd(e, m) other than 1 fails with NOINV and nothing but the completion happens;
kc.keygen never reports NOINV. Rule R198: the inverse of kc.keygen never fails, is the one inverse in [0, phi) and is at least
2. So kc.keygen succeeds, with that exponent and that inverse, once its pair and exponent searches find; that the exponent
search finds within CAP increments, at CAP = 1 one, is the model's choice (log entry 17). -/
def Obligations.NoInverseFails : Prop :=
  (∀ (d1 s1 s2 : Reg) (s : State), 1 ≤ s.xNat s2 → Nat.gcd (s.xNat s1) (s.xNat s2) ≠ 1 →
    exec (.arInv d1 s1 s2) s = .next (s.failed 0x22)) ∧
  (∀ s t : State, exec .kcKeygen s = .next t → t.lastErr ≠ 0x22) ∧
  (∀ e phi : Nat, 2 ≤ e → e < phi → Nat.gcd e phi = 1 →
    ∃ d, modinv e phi = some d ∧ 2 ≤ d ∧ d < phi ∧ e * d % phi = 1 ∧ ∀ x < phi, e * x % phi = 1 → x = d) ∧
  ∀ (s : State) (p q e : Nat) (r : Source), s.search.illegal = false →
    s.search.findPair s.search.cap s.source = (some (p, q), r) →
    findExponent (totient p q) s.search.cap (r.drawIn 2 (totient p q - 1)).1 = some e →
    ∃ d, modinv e (totient p q) = some d ∧ exec .kcKeygen s = .next (State.succeeded { s with
      source := (r.drawIn 2 (totient p q - 1)).2
      keys := (KeyPair.mk p q e d).registers
      status := { s.status with keygen := true } })

/-- Rules R167 and R158: ar.jacobi with odd n writes the Jacobi symbol of number theory to D1, -1 as two's complement. -/
def Obligations.ArJacobiResult : Prop :=
  ∀ (d1 s1 s2 : Reg) (s : State), s.xNat s2 % 2 = 1 →
    exec (.arJacobi d1 s1 s2) s =
      .next (s.writeX d1 (BitVec.ofInt 64 (jacobiSym (s.xNat s1) (s.xNat s2)))).succeeded

/-- Rule R238: ar.jacobi with even n, 0 included, fails with DOMAIN and nothing but the completion happens; the symbols
inside ar.prime and kc.keygen never report it. -/
def Obligations.EvenJacobiModulusFails : Prop :=
  (∀ (d1 s1 s2 : Reg) (s : State), s.xNat s2 % 2 = 0 → exec (.arJacobi d1 s1 s2) s = .next (s.failed 0x21)) ∧
  ∀ (d1 s1 : Reg) (s t : State), (exec (.arPrime d1 s1) s = .next t ∨ exec .kcKeygen s = .next t) → t.lastErr ≠ 0x21

/-- Rules R168, R159, R160, R161 and R162: ar.prime with K > 0. A small or even candidate gets its verdict without a draw. An
odd c >= 5 takes one draw a trial up to the first rejection or K, and its verdict is whether all K trials passed, a trial
being the Euler check of its witness. The draws are the model's listed and free ones (log entry 4). -/
def Obligations.ArPrimeResult : Prop :=
  ∀ (d1 s1 : Reg) (s : State),
    let c := s.xNat s1
    let k := s.cfg.k.toNat
    let good := (List.range k).takeWhile fun i => eulerPass s.params.mulmodMode c (s.source.ahead i)
    let taken := if good.length = k then k else good.length + 1
    k ≠ 0 →
      (c < 5 ∨ c % 2 = 0 →
        exec (.arPrime d1 s1) s = .next (s.writeX d1 (if c = 2 ∨ c = 3 then 1 else 0)).succeeded) ∧
      (5 ≤ c → c % 2 = 1 →
        exec (.arPrime d1 s1) s = .next (State.succeeded
          (State.writeX { s with source := s.source.after taken } d1 (if good.length = k then 1 else 0))))

/-- Rule R162: where multiplication is exact a prime is never rejected, whatever the draws (log entry 4): ar.prime answers 1,
after K draws if it is 5 or more and none otherwise. -/
def Obligations.ArPrimeAcceptsPrimes : Prop :=
  ∀ (d1 s1 : Reg) (s : State), s.cfg.k ≠ 0 → Nat.Prime (s.xNat s1) → exactFor s.params.mulmodMode (s.xNat s1) →
    exec (.arPrime d1 s1) s = .next (State.succeeded (State.writeX
      { s with source := s.source.after (if s.xNat s1 < 5 then 0 else s.cfg.k.toNat) } d1 1))

/-- Rule R240: ar.prime with K = 0, and kc.keygen with K = 0, PMIN < 2 or PMIN > PMAX, fail with ARG before any draw and
nothing but the completion happens. -/
def Obligations.IllegalConfigurationFails : Prop :=
  ∀ (d1 s1 : Reg) (s : State),
    (s.cfg.k = 0 → exec (.arPrime d1 s1) s = .next (s.failed 0x23)) ∧
    (s.cfg.k = 0 ∨ s.cfg.pmin.toNat < 2 ∨ s.cfg.pmax.toNat < s.cfg.pmin.toNat →
      exec .kcKeygen s = .next (s.failed 0x23))

/-- The frame of nop, the ar commands and kc.bpb: nothing but the destination registers, the completion, and for ar.prime
the random source; no byte of memory. -/
def Obligations.RegisterCommandFrame : Prop :=
  ∀ (i : Instr) (s t : State), sessionCommand i = false → i ≠ .kcKeygen →
    (∀ a b c d, i ≠ .deHex a b ∧ i ≠ .kcEncode a b c d ∧ i ≠ .kcDecode a b c d) → exec i s = .next t →
    (∀ r, r ∉ destRegs i → t.readX r = s.readX r) ∧ (∀ a, t.readByte a = s.readByte a) ∧
    t.lastCmd = s.lastCmd ∧ t.pending = s.pending ∧ t.cfg = s.cfg ∧ t.de = s.de ∧ t.dg = s.dg ∧ t.keys = s.keys ∧
    t.params = s.params ∧ t.moves = s.moves ∧ t.portData = s.portData ∧ t.resets = s.resets ∧
    t.status = { s.status with err := t.status.err, busy := false } ∧
    (drawingCommand i = false → t.source = s.source)

/-! ### The key-pair cipher (42_cipher.md) -/

/-- Rules R193 to R197, R199, R202 and R236: how kc.keygen ends. It changes nothing but the random source, the key registers
and KEYGEN, and these last two only when it succeeds; no byte of memory and no general register. In a legal configuration it
goes one of two ways, whatever is drawn. Either a pair is accepted within CAP attempts of two prime searches of CAP tries
each and an exponent within CAP increments, and it succeeds with that key; or one of the three counters exceeds CAP, and it
fails with EXHAUSTED. The draws taken are those the searches took. That CAP allows CAP increments, at CAP = 1 one, is the
model's choice between rule R197 and the words of rule R194 (log entry 17). -/
def Obligations.KeygenEnds : Prop :=
  (∀ s t : State, exec .kcKeygen s = .next t →
    (t = ({ s with source := t.source, keys := t.keys, status := { s.status with keygen := true } } : State).succeeded ∨
      t = ({ s with source := t.source } : State).failed 0x23 ∨
      t = ({ s with source := t.source } : State).failed 0x30) ∧
    (∀ r, t.readX r = s.readX r) ∧ ∀ a, t.readByte a = s.readByte a) ∧
  ∀ s : State, s.cfg.k ≠ 0 → 2 ≤ s.cfg.pmin.toNat → s.cfg.pmin.toNat ≤ s.cfg.pmax.toNat →
    ((∃ p q e r, s.search.GivesKey s.source p q e r) ∨ ∃ r, s.search.Exhausts s.source r) ∧
    (∀ p q e r, s.search.GivesKey s.source p q e r →
      ∃ d, d < totient p q ∧ e * d % totient p q = 1 ∧
        exec .kcKeygen s = .next (State.succeeded { s with
          source := r
          keys := { kn := BitVec.ofNat 64 (p * q), ke := BitVec.ofNat 64 e, kd := BitVec.ofNat 64 d,
                    kp := BitVec.ofNat 64 p, kq := BitVec.ofNat 64 q, kphi := BitVec.ofNat 64 (totient p q) }
          status := { s.status with keygen := true } })) ∧
    ∀ r, s.search.Exhausts s.source r → exec .kcKeygen s = .next (State.failed { s with source := r } 0x30)

/-- Rules R194 and R38: with CAP = 0 and a legal configuration kc.keygen fails with EXHAUSTED before any draw. -/
def Obligations.KeygenWithCapZero : Prop :=
  ∀ s : State, s.cfg.k ≠ 0 → 2 ≤ s.cfg.pmin.toNat → s.cfg.pmin.toNat ≤ s.cfg.pmax.toNat → s.cfg.cap = 0 →
    exec .kcKeygen s = .next (s.failed 0x30)

/-- Rule R200: what a successful kc.keygen leaves in the key registers, whatever was drawn. -/
def Obligations.KeygenKeyInvariants : Prop :=
  ∀ s t : State, exec .kcKeygen s = .next t → t.lastErr = 0x00 →
    let n := t.keys.kn.toNat
    let e := t.keys.ke.toNat
    let d := t.keys.kd.toNat
    let p := t.keys.kp.toNat
    let q := t.keys.kq.toNat
    let phi := t.keys.kphi.toNat
    n = p * q ∧ 128 ≤ n ∧ p ≠ q ∧ phi = (p - 1) * (q - 1) ∧ 2 ≤ e ∧ e ≤ phi - 1 ∧ Nat.gcd e phi = 1 ∧ d < phi ∧
    e * d % phi = 1 ∧ t.status.keygen = true ∧ (s.cfg.pmax.toNat ≤ 65535 → n < 2 ^ 32)

/-- Rules R199 and R202: kc.keygen completes with the key its draws name: two candidate draws that land on distinct primes
p, q >= 5 with p * q >= 128, each followed by K witness draws of any value, and an exponent draw that lands on an e coprime
to the totient, in a legal configuration with CAP >= 1. It takes 2K + 3 draws, the model's listed and free ones (log entry
4). -/
def Obligations.KeygenFromPrimeDraws : Prop :=
  ∀ (s : State),
    let k := s.cfg.k.toNat
    let span := s.cfg.pmax.toNat - s.cfg.pmin.toNat + 1
    let p := s.cfg.pmin.toNat + (s.source.ahead 0).toNat % span
    let q := s.cfg.pmin.toNat + (s.source.ahead (k + 1)).toNat % span
    let phi := (p - 1) * (q - 1)
    let e := 2 + (s.source.ahead (2 * k + 2)).toNat % (phi - 2)
    k ≠ 0 → 2 ≤ s.cfg.pmin.toNat → s.cfg.pmin.toNat ≤ s.cfg.pmax.toNat → s.cfg.cap ≠ 0 →
    Nat.Prime p → Nat.Prime q → 5 ≤ p → 5 ≤ q → p ≠ q → 128 ≤ p * q → Nat.gcd e phi = 1 →
    ∃ d, d < phi ∧ e * d % phi = 1 ∧
      exec .kcKeygen s = .next (State.succeeded { s with
        source := s.source.after (2 * k + 3)
        keys := { kn := BitVec.ofNat 64 (p * q), ke := BitVec.ofNat 64 e, kd := BitVec.ofNat 64 d,
                  kp := BitVec.ofNat 64 p, kq := BitVec.ofNat 64 q, kphi := BitVec.ofNat 64 phi }
        status := { s.status with keygen := true } })

/-- Rules R209 and R204: kc.bpb writes 3 from 2^21 on, 2 from 2^14 on, else 1, and nothing else. -/
def Obligations.KcBpbResult : Prop :=
  ∀ (d1 s1 : Reg) (s : State),
    exec (.kcBpb d1 s1) s = .next (s.writeX d1 (BitVec.ofNat 64 (blockBytes (s.xNat s1)))).succeeded

/-- Rules R210, R205 and R207: kc.encode with KN > 0 and both ranges in BMEM writes one 8-byte word for each block of k
plaintext bytes, at least one, each the power of the block's radix-128 integer, and their number to D1. -/
def Obligations.KcEncodeResult : Prop :=
  ∀ (d1 s1 s2 s3 : Reg) (s : State), s.keys.kn ≠ 0 → Memory.wf s.bmem →
    let k := blockBytes s.keys.kn.toNat
    let nblk := max 1 ((s.xNat s2 + k - 1) / k)
    s.xNat s1 + s.xNat s2 ≤ s.params.bmemSize → s.xNat s3 + 8 * nblk ≤ s.params.bmemSize →
    ∃ t, exec (.kcEncode d1 s1 s2 s3) s = .next t ∧ t.lastErr = 0x00 ∧ t.readX d1 = BitVec.ofNat 64 nblk ∧
      ∀ i < nblk, leNat (t.memRead (s.xNat s3 + 8 * i) 8) =
        powmod s.params.mulmodMode
          (∑ j ∈ Finset.range k, plainByte s (s.xNat s1) (s.xNat s2) (i * k + j) * 128 ^ j)
          s.keys.ke.toNat s.keys.kn.toNat

/-- Rules R211, R206 and R208: kc.decode with KN > 0 and the ciphertext in BMEM writes the digits of the powers of the words
up to the last one that is not 0, which is `len` of them, if they fit, and `len` to D1; if they do not fit it fails with
IO_RANGE and only completes. A digit is that of rule R206, carries included (log entry 11). -/
def Obligations.KcDecodeResult : Prop :=
  ∀ (d1 s1 s2 s3 : Reg) (s : State) (len : Nat), s.keys.kn ≠ 0 → Memory.wf s.bmem →
    let total := s.xNat s2 * blockBytes s.keys.kn.toNat
    s.xNat s1 + 8 * s.xNat s2 ≤ s.params.bmemSize → len ≤ total →
    (len = 0 ∨ decodedDigit s (s.xNat s1) (len - 1) ≠ 0) →
    (∀ p, len ≤ p → p < total → decodedDigit s (s.xNat s1) p = 0) →
    (s.xNat s3 + len ≤ s.params.bmemSize →
      ∃ t, exec (.kcDecode d1 s1 s2 s3) s = .next t ∧ t.lastErr = 0x00 ∧ t.readX d1 = BitVec.ofNat 64 len ∧
        ∀ p < len, (t.readByte (s.xNat s3 + p)).toNat = decodedDigit s (s.xNat s1) p) ∧
    (s.params.bmemSize < s.xNat s3 + len → exec (.kcDecode d1 s1 s2 s3) s = .next (s.failed 0x10))

/-- Rules R210 and R211: with KN > 0, kc.encode fails with IO_RANGE if its plaintext or its ciphertext does not lie in BMEM,
kc.decode if its ciphertext does not, and nothing but the completion happens. -/
def Obligations.CipherRangeErrors : Prop :=
  ∀ (d1 s1 s2 s3 : Reg) (s : State), s.keys.kn ≠ 0 →
    let k := blockBytes s.keys.kn.toNat
    let nblk := max 1 ((s.xNat s2 + k - 1) / k)
    (s.params.bmemSize < s.xNat s1 + s.xNat s2 ∨ s.params.bmemSize < s.xNat s3 + 8 * nblk →
      exec (.kcEncode d1 s1 s2 s3) s = .next (s.failed 0x10)) ∧
    (s.params.bmemSize < s.xNat s1 + 8 * s.xNat s2 → exec (.kcDecode d1 s1 s2 s3) s = .next (s.failed 0x10))

/-- Rule R212: with a key of two distinct primes and n >= 128, where multiplication is exact, and a plaintext of bytes 0x01 to
0x7F, kc.decode of the words kc.encode wrote gives back the plaintext and its length. The state the decode starts from may
differ from the one the encode left in anything but the key, the parameters and the ciphertext words. -/
def Obligations.CipherRoundTrip : Prop :=
  ∀ (d1 s1 s2 s3 : Reg) (s t : State) (p q : Nat),
    Nat.Prime p → Nat.Prime q → p ≠ q → s.keys.kn.toNat = p * q → 128 ≤ p * q →
    s.keys.ke.toNat * s.keys.kd.toNat % ((p - 1) * (q - 1)) = 1 →
    (p * q < 2 ^ 32 ∨ s.params.mulmodMode = .exact) → Memory.wf s.bmem →
    (∀ i < s.xNat s2, 1 ≤ (s.readByte (s.xNat s1 + i)).toNat ∧ (s.readByte (s.xNat s1 + i)).toNat ≤ 127) →
    exec (.kcEncode d1 s1 s2 s3) s = .next t → t.lastErr = 0x00 →
    ∀ (e1 r1 r2 r3 : Reg) (u : State), u.keys = s.keys → u.params = s.params → Memory.wf u.bmem →
      u.xNat r2 = t.xNat d1 →
      u.cipherWords (u.xNat r1) (u.xNat r2) = t.cipherWords (s.xNat s3) (t.xNat d1) →
      u.xNat r1 + 8 * u.xNat r2 ≤ u.params.bmemSize → u.xNat r3 + s.xNat s2 ≤ u.params.bmemSize →
      ∃ v, exec (.kcDecode e1 r1 r2 r3) u = .next v ∧ v.lastErr = 0x00 ∧ v.readX e1 = s.readX s2 ∧
        v.memRead (u.xNat r3) (s.xNat s2) = s.memRead (s.xNat s1) (s.xNat s2)

/-- The frame of the commands that store to BMEM, de.hex, kc.encode and kc.decode: nothing but D1, the completion and the
bytes of the range they store to (storedRange computes it from their operands); every byte outside it reads as before. -/
def Obligations.StoringCommandFrame : Prop :=
  ∀ (i : Instr) (s t : State) (a b c d : Reg),
    (i = .deHex a b ∨ i = .kcEncode a b c d ∨ i = .kcDecode a b c d) → s.cfg.sepLen.toNat ≤ 4 → Memory.wf s.bmem →
    exec i s = .next t →
    (∀ k, ¬((storedRange i s).1 ≤ k ∧ k < (storedRange i s).1 + (storedRange i s).2) → t.readByte k = s.readByte k) ∧
    (∀ r, r ∉ destRegs i → t.readX r = s.readX r) ∧
    t.lastCmd = s.lastCmd ∧ t.pending = s.pending ∧ t.cfg = s.cfg ∧ t.source = s.source ∧ t.de = s.de ∧
    t.dg = s.dg ∧ t.keys = s.keys ∧ t.params = s.params ∧ t.moves = s.moves ∧ t.portData = s.portData ∧
    t.resets = s.resets ∧ t.status = { s.status with err := t.status.err, busy := false }
end

