-- ==== Sys2Proof/Laws/Arith.lean ====
section
/-! SUPPORT. Laws/Arith.lean: the fuel of every loop of Machine/Arith.lean is enough, so each loop obeys the spec's own
equations (41_arith.md rules R152 to R158), which later proofs cite instead of the fuel. -/

namespace Sys2Proof.Machine

/-! ### bitlen (00_scope.md rule R10) -/

theorem bitlen_zero : bitlen 0 = 0 := rfl

theorem bitlen_half {e : Nat} (h : e ≠ 0) : bitlen e = bitlen (e / 2) + 1 := by
  unfold bitlen
  rw [if_neg h]
  by_cases h1 : e / 2 = 0
  · have : e = 1 := by omega
    subst this; rfl
  · rw [if_neg h1, Nat.log2_def e, if_pos (by omega)]

/-! ### powmod (rule R152) -/

/-- More fuel than bitlen(e) changes nothing. -/
theorem powmodLoop_fuel (mode : MulmodMode) (n f r b e : Nat) (h : bitlen e ≤ f) :
    powmodLoop mode n f r b e = powmodLoop mode n (bitlen e) r b e := by
  induction f generalizing r b e with
  | zero => rw [Nat.le_zero.mp h]
  | succ f ih =>
    by_cases he : e = 0
    · subst he; rfl
    · have hb := bitlen_half he
      rw [hb, powmodLoop, powmodLoop, if_neg he, if_neg he]
      exact ih _ _ _ (by omega)

/-- The loop at e = 0. -/
theorem powmodLoop_done (mode : MulmodMode) (n r b : Nat) : powmodLoop mode n (bitlen 0) r b 0 = r := rfl

/-- The loop at e > 0: one turn, then the loop at e div 2. -/
theorem powmodLoop_turn (mode : MulmodMode) (n r b : Nat) {e : Nat} (h : e ≠ 0) :
    powmodLoop mode n (bitlen e) r b e =
      powmodLoop mode n (bitlen (e / 2)) (if e % 2 = 1 then mulmod mode r b n else r) (mulmod mode b b n) (e / 2) := by
  rw [bitlen_half h, powmodLoop, if_neg h]

/-! ### gcd (rule R153) -/

theorem gcdLoop_fuel (f a b : Nat) (h : b ≤ f) : gcdLoop f a b = gcdLoop b a b := by
  induction f using Nat.strong_induction_on generalizing a b with
  | _ f ih =>
    by_cases hb : b = 0
    · subst hb; cases f <;> rfl
    · obtain ⟨f, rfl⟩ := Nat.exists_eq_add_one_of_ne_zero (show f ≠ 0 by omega)
      obtain ⟨b', hb'⟩ := Nat.exists_eq_add_one_of_ne_zero hb
      have hlt : a % b < b := Nat.mod_lt _ (Nat.pos_of_ne_zero hb)
      conv_rhs => rw [hb', gcdLoop, ← hb', if_neg hb]
      rw [gcdLoop, if_neg hb, ih f (by omega) b (a % b) (by omega)]
      exact (ih b' (by omega) b (a % b) (by omega)).symm

theorem gcd_zero (a : Nat) : gcd a 0 = a := rfl

/-- One turn of Euclid's loop. -/
theorem gcd_turn (a : Nat) {b : Nat} (h : b ≠ 0) : gcd a b = gcd b (a % b) := by
  obtain ⟨b', hb⟩ := Nat.exists_eq_add_one_of_ne_zero h
  have hlt : a % b < b := Nat.mod_lt _ (Nat.pos_of_ne_zero h)
  unfold gcd
  conv_lhs => rw [hb, gcdLoop, ← hb, if_neg h]
  exact gcdLoop_fuel _ _ _ (by omega)

/-! ### egcd (rule R154) -/

theorem egcdLoop_fuel (f r0 r1 : Nat) (s0 s1 t0 t1 : Int) (h : r1 ≤ f) :
    egcdLoop f r0 r1 s0 s1 t0 t1 = egcdLoop r1 r0 r1 s0 s1 t0 t1 := by
  induction f using Nat.strong_induction_on generalizing r0 r1 s0 s1 t0 t1 with
  | _ f ih =>
    by_cases hb : r1 = 0
    · subst hb; cases f <;> rfl
    · obtain ⟨f, rfl⟩ := Nat.exists_eq_add_one_of_ne_zero (show f ≠ 0 by omega)
      obtain ⟨b', hb'⟩ := Nat.exists_eq_add_one_of_ne_zero hb
      have hlt : r0 % r1 < r1 := Nat.mod_lt _ (Nat.pos_of_ne_zero hb)
      conv_rhs => rw [hb', egcdLoop, ← hb', if_neg hb]
      rw [egcdLoop, if_neg hb]
      simp only
      rw [ih f (by omega) _ _ _ _ _ _ (by omega)]
      exact (ih b' (by omega) _ _ _ _ _ _ (by omega)).symm

/-- The loop of egcd at r1 = 0. -/
theorem egcdLoop_done (r0 : Nat) (s0 s1 t0 t1 : Int) : egcdLoop 0 r0 0 s0 s1 t0 t1 = ⟨r0, s0, t0⟩ := rfl

/-- One turn of the loop of egcd. -/
theorem egcdLoop_turn (r0 : Nat) {r1 : Nat} (s0 s1 t0 t1 : Int) (h : r1 ≠ 0) :
    egcdLoop r1 r0 r1 s0 s1 t0 t1 =
      egcdLoop (r0 % r1) r1 (r0 % r1) s1 (s0 - (r0 / r1 : Nat) * s1) t1 (t0 - (r0 / r1 : Nat) * t1) := by
  obtain ⟨b', hb⟩ := Nat.exists_eq_add_one_of_ne_zero h
  have hlt : r0 % r1 < r1 := Nat.mod_lt _ (Nat.pos_of_ne_zero h)
  conv_lhs => rw [hb, egcdLoop, ← hb, if_neg h]
  exact egcdLoop_fuel _ _ _ _ _ _ _ (by omega)

/-! ### jacobi (rule R158) -/

theorem stripTwos_fuel (n f a : Nat) (t : Int) (h : a ≤ f) (ha : a ≠ 0) : stripTwos n f a t = stripTwos n a a t := by
  induction f using Nat.strong_induction_on generalizing a t with
  | _ f ih =>
    obtain ⟨f, rfl⟩ := Nat.exists_eq_add_one_of_ne_zero (show f ≠ 0 by omega)
    obtain ⟨a', ha'⟩ := Nat.exists_eq_add_one_of_ne_zero ha
    conv_rhs => rw [ha', stripTwos, ← ha']
    rw [stripTwos]
    split
    · rw [ih f (by omega) _ _ (by omega) (by omega)]
      exact (ih a' (by omega) _ _ (by omega) (by omega)).symm
    · rfl

/-- An even a is halved with the sign of n mod 8. -/
theorem stripTwos_even (n : Nat) {a : Nat} (t : Int) (ha : a ≠ 0) (h : a % 2 = 0) :
    stripTwos n a a t = stripTwos n (a / 2) (a / 2) (if n % 8 = 3 ∨ n % 8 = 5 then -t else t) := by
  obtain ⟨a', ha'⟩ := Nat.exists_eq_add_one_of_ne_zero ha
  conv_lhs => rw [ha', stripTwos, ← ha', if_pos h]
  exact stripTwos_fuel _ _ _ _ (by omega) (by omega)

/-- An odd a stops the halving. -/
theorem stripTwos_odd (n : Nat) {a : Nat} (t : Int) (h : a % 2 = 1) : stripTwos n a a t = (a, t) := by
  obtain ⟨a', ha'⟩ := Nat.exists_eq_add_one_of_ne_zero (show a ≠ 0 by omega)
  conv_lhs => rw [ha', stripTwos, ← ha', if_neg (by omega)]

/-- What stripping leaves is odd and no larger. -/
theorem stripTwos_fst (n a : Nat) (t : Int) (ha : a ≠ 0) :
    (stripTwos n a a t).1 % 2 = 1 ∧ (stripTwos n a a t).1 ≤ a := by
  induction a using Nat.strong_induction_on generalizing t with
  | _ a ih =>
    obtain h | h := Nat.mod_two_eq_zero_or_one a
    · rw [stripTwos_even n t ha h]
      have := ih (a / 2) (by omega) (if n % 8 = 3 ∨ n % 8 = 5 then -t else t) (by omega)
      exact ⟨this.1, by omega⟩
    · rw [stripTwos_odd n t h]; exact ⟨h, le_rfl⟩

theorem jacobiLoop_fuel (f a n : Nat) (t : Int) (h : a ≤ f) : jacobiLoop f a n t = jacobiLoop a a n t := by
  induction f using Nat.strong_induction_on generalizing a n t with
  | _ f ih =>
    by_cases ha : a = 0
    · subst ha; cases f <;> rfl
    · obtain ⟨f, rfl⟩ := Nat.exists_eq_add_one_of_ne_zero (show f ≠ 0 by omega)
      obtain ⟨a', ha'⟩ := Nat.exists_eq_add_one_of_ne_zero ha
      have hs := stripTwos_fst n a t ha
      have hlt : n % (stripTwos n a a t).1 < (stripTwos n a a t).1 := Nat.mod_lt _ (by omega)
      conv_rhs => rw [ha', jacobiLoop, ← ha', if_neg ha]
      rw [jacobiLoop, if_neg ha]
      simp only
      rw [ih f (by omega) _ _ _ (by omega)]
      exact (ih a' (by omega) _ _ _ (by omega)).symm

/-- The loop of jacobi at a = 0. -/
theorem jacobiLoop_done (n : Nat) (t : Int) : jacobiLoop 0 0 n t = if n = 1 then t else 0 := rfl

/-- One turn of the loop of jacobi: strip the twos, swap with the reciprocity sign, reduce. -/
theorem jacobiLoop_turn {a : Nat} (n : Nat) (t : Int) (ha : a ≠ 0) :
    jacobiLoop a a n t =
      jacobiLoop (n % (stripTwos n a a t).1) (n % (stripTwos n a a t).1) (stripTwos n a a t).1
        (if n % 4 = 3 ∧ (stripTwos n a a t).1 % 4 = 3 then -(stripTwos n a a t).2 else (stripTwos n a a t).2) := by
  obtain ⟨a', ha'⟩ := Nat.exists_eq_add_one_of_ne_zero ha
  have hs := stripTwos_fst n a t ha
  have hlt : n % (stripTwos n a a t).1 < (stripTwos n a a t).1 := Nat.mod_lt _ (by omega)
  conv_lhs => rw [ha', jacobiLoop, ← ha', if_neg ha]
  exact jacobiLoop_fuel _ _ _ _ (by omega)

/-! ### The random source (42_cipher.md rules R190, R191) -/

/-- A draw with the queue not empty takes its head. -/
@[simp] theorem Source.draw_cons (n : Word32) (d : Word64) (ds : List Word64) (p : Nat) :
    Source.draw ⟨n, d :: ds, p⟩ = (d, ⟨n + 1, ds, p⟩) := rfl

/-- A draw with the queue empty takes the next free draw. -/
@[simp] theorem Source.draw_nil (n : Word32) (p : Nat) :
    Source.draw ⟨n, [], p⟩ = (Config.freeDraw p, ⟨n + 1, [], p + 1⟩) := rfl

/-- Every draw counts once in DRAWS. -/
theorem Source.draw_draws (r : Source) : r.draw.2.draws = r.draws + 1 := by
  obtain ⟨n, q, p⟩ := r
  cases q <;> rfl

/-- A random integer lies in its range. -/
theorem Source.drawIn_mem (r : Source) {lo hi : Nat} (h : lo ≤ hi) :
    lo ≤ (r.drawIn lo hi).1 ∧ (r.drawIn lo hi).1 ≤ hi := by
  have := Nat.mod_lt r.draw.1.toNat (show 0 < hi - lo + 1 by omega)
  unfold Source.drawIn
  exact ⟨Nat.le_add_right _ _, by omega⟩

end Sys2Proof.Machine
end

