-- ==== Sys2Proof/Laws/State.lean ====
section
/-! SUPPORT. Laws/State.lean: what each update of State does to each field, so that no later proof unfolds a record update. -/

namespace Sys2Proof.Machine

/-! ### `x[i] <- v` -/

@[simp] theorem State.writeX_x (s : State) (i : Reg) (v : Word64) : (s.writeX i v).x = s.x.set i v := rfl
@[simp] theorem State.writeX_lastCmd (s : State) (i : Reg) (v : Word64) : (s.writeX i v).lastCmd = s.lastCmd := rfl
@[simp] theorem State.writeX_pending (s : State) (i : Reg) (v : Word64) : (s.writeX i v).pending = s.pending := rfl
@[simp] theorem State.writeX_status (s : State) (i : Reg) (v : Word64) : (s.writeX i v).status = s.status := rfl
@[simp] theorem State.writeX_lastErr (s : State) (i : Reg) (v : Word64) : (s.writeX i v).lastErr = s.lastErr := rfl
@[simp] theorem State.writeX_cfg (s : State) (i : Reg) (v : Word64) : (s.writeX i v).cfg = s.cfg := rfl
@[simp] theorem State.writeX_cmdCnt (s : State) (i : Reg) (v : Word64) : (s.writeX i v).cmdCnt = s.cmdCnt := rfl
@[simp] theorem State.writeX_source (s : State) (i : Reg) (v : Word64) : (s.writeX i v).source = s.source := rfl
@[simp] theorem State.writeX_de (s : State) (i : Reg) (v : Word64) : (s.writeX i v).de = s.de := rfl
@[simp] theorem State.writeX_dg (s : State) (i : Reg) (v : Word64) : (s.writeX i v).dg = s.dg := rfl
@[simp] theorem State.writeX_keys (s : State) (i : Reg) (v : Word64) : (s.writeX i v).keys = s.keys := rfl
@[simp] theorem State.writeX_bmem (s : State) (i : Reg) (v : Word64) : (s.writeX i v).bmem = s.bmem := rfl
@[simp] theorem State.writeX_params (s : State) (i : Reg) (v : Word64) : (s.writeX i v).params = s.params := rfl
@[simp] theorem State.writeX_resets (s : State) (i : Reg) (v : Word64) : (s.writeX i v).resets = s.resets := rfl
@[simp] theorem State.writeX_moves (s : State) (i : Reg) (v : Word64) : (s.writeX i v).moves = s.moves := rfl
@[simp] theorem State.writeX_portData (s : State) (i : Reg) (v : Word64) : (s.writeX i v).portData = s.portData := rfl

/-! ### `BMEM[a] <- b` -/

@[simp] theorem State.writeByte_x (s : State) (a : Nat) (b : Byte) : (s.writeByte a b).x = s.x := rfl
@[simp] theorem State.writeByte_lastCmd (s : State) (a : Nat) (b : Byte) : (s.writeByte a b).lastCmd = s.lastCmd := rfl
@[simp] theorem State.writeByte_pending (s : State) (a : Nat) (b : Byte) : (s.writeByte a b).pending = s.pending := rfl
@[simp] theorem State.writeByte_status (s : State) (a : Nat) (b : Byte) : (s.writeByte a b).status = s.status := rfl
@[simp] theorem State.writeByte_lastErr (s : State) (a : Nat) (b : Byte) : (s.writeByte a b).lastErr = s.lastErr := rfl
@[simp] theorem State.writeByte_cfg (s : State) (a : Nat) (b : Byte) : (s.writeByte a b).cfg = s.cfg := rfl
@[simp] theorem State.writeByte_cmdCnt (s : State) (a : Nat) (b : Byte) : (s.writeByte a b).cmdCnt = s.cmdCnt := rfl
@[simp] theorem State.writeByte_source (s : State) (a : Nat) (b : Byte) : (s.writeByte a b).source = s.source := rfl
@[simp] theorem State.writeByte_de (s : State) (a : Nat) (b : Byte) : (s.writeByte a b).de = s.de := rfl
@[simp] theorem State.writeByte_dg (s : State) (a : Nat) (b : Byte) : (s.writeByte a b).dg = s.dg := rfl
@[simp] theorem State.writeByte_keys (s : State) (a : Nat) (b : Byte) : (s.writeByte a b).keys = s.keys := rfl
@[simp] theorem State.writeByte_bmem (s : State) (a : Nat) (b : Byte) : (s.writeByte a b).bmem = s.bmem.insert a b := rfl
@[simp] theorem State.writeByte_params (s : State) (a : Nat) (b : Byte) : (s.writeByte a b).params = s.params := rfl
@[simp] theorem State.writeByte_resets (s : State) (a : Nat) (b : Byte) : (s.writeByte a b).resets = s.resets := rfl
@[simp] theorem State.writeByte_moves (s : State) (a : Nat) (b : Byte) : (s.writeByte a b).moves = s.moves := rfl
@[simp] theorem State.writeByte_portData (s : State) (a : Nat) (b : Byte) : (s.writeByte a b).portData = s.portData := rfl

/-! ### completion (60_exceptions.md rule R243) -/

@[simp] theorem State.complete_x (s : State) (c : ErrCode) : (s.complete c).x = s.x := rfl
@[simp] theorem State.complete_lastCmd (s : State) (c : ErrCode) : (s.complete c).lastCmd = s.lastCmd := rfl
@[simp] theorem State.complete_pending (s : State) (c : ErrCode) : (s.complete c).pending = s.pending := rfl
@[simp] theorem State.complete_status (s : State) (c : ErrCode) : (s.complete c).status = { s.status with err := s.status.err || c != .ok, busy := false } := rfl
@[simp] theorem State.complete_lastErr (s : State) (c : ErrCode) : (s.complete c).lastErr = c.byte := rfl
@[simp] theorem State.complete_cfg (s : State) (c : ErrCode) : (s.complete c).cfg = s.cfg := rfl
@[simp] theorem State.complete_cmdCnt (s : State) (c : ErrCode) : (s.complete c).cmdCnt = s.cmdCnt + 1 := rfl
@[simp] theorem State.complete_source (s : State) (c : ErrCode) : (s.complete c).source = s.source := rfl
@[simp] theorem State.complete_de (s : State) (c : ErrCode) : (s.complete c).de = s.de := rfl
@[simp] theorem State.complete_dg (s : State) (c : ErrCode) : (s.complete c).dg = s.dg := rfl
@[simp] theorem State.complete_keys (s : State) (c : ErrCode) : (s.complete c).keys = s.keys := rfl
@[simp] theorem State.complete_bmem (s : State) (c : ErrCode) : (s.complete c).bmem = s.bmem := rfl
@[simp] theorem State.complete_params (s : State) (c : ErrCode) : (s.complete c).params = s.params := rfl
@[simp] theorem State.complete_resets (s : State) (c : ErrCode) : (s.complete c).resets = s.resets := rfl
@[simp] theorem State.complete_moves (s : State) (c : ErrCode) : (s.complete c).moves = s.moves := rfl
@[simp] theorem State.complete_portData (s : State) (c : ErrCode) : (s.complete c).portData = s.portData := rfl

/-! ### refusal of a host access (10_state.md rule R31) -/

@[simp] theorem State.refuse_x (s : State)  : (s.refuse).x = s.x := rfl
@[simp] theorem State.refuse_lastCmd (s : State)  : (s.refuse).lastCmd = s.lastCmd := rfl
@[simp] theorem State.refuse_pending (s : State)  : (s.refuse).pending = s.pending := rfl
@[simp] theorem State.refuse_status (s : State)  : (s.refuse).status = { s.status with accErr := true } := rfl
@[simp] theorem State.refuse_lastErr (s : State)  : (s.refuse).lastErr = s.lastErr := rfl
@[simp] theorem State.refuse_cfg (s : State)  : (s.refuse).cfg = s.cfg := rfl
@[simp] theorem State.refuse_cmdCnt (s : State)  : (s.refuse).cmdCnt = s.cmdCnt := rfl
@[simp] theorem State.refuse_source (s : State)  : (s.refuse).source = s.source := rfl
@[simp] theorem State.refuse_de (s : State)  : (s.refuse).de = s.de := rfl
@[simp] theorem State.refuse_dg (s : State)  : (s.refuse).dg = s.dg := rfl
@[simp] theorem State.refuse_keys (s : State)  : (s.refuse).keys = s.keys := rfl
@[simp] theorem State.refuse_bmem (s : State)  : (s.refuse).bmem = s.bmem := rfl
@[simp] theorem State.refuse_params (s : State)  : (s.refuse).params = s.params := rfl
@[simp] theorem State.refuse_resets (s : State)  : (s.refuse).resets = s.resets := rfl
@[simp] theorem State.refuse_moves (s : State)  : (s.refuse).moves = s.moves := rfl
@[simp] theorem State.refuse_portData (s : State)  : (s.refuse).portData = s.portData := rfl

/-! ### acceptance (10_state.md rule R25) -/

@[simp] theorem State.accept_x (s : State) (w : Word32) : (s.accept w).x = s.x := rfl
@[simp] theorem State.accept_lastCmd (s : State) (w : Word32) : (s.accept w).lastCmd = w := rfl
@[simp] theorem State.accept_pending (s : State) (w : Word32) : (s.accept w).pending = w := rfl
@[simp] theorem State.accept_status (s : State) (w : Word32) : (s.accept w).status = { s.status with busy := true } := rfl
@[simp] theorem State.accept_lastErr (s : State) (w : Word32) : (s.accept w).lastErr = s.lastErr := rfl
@[simp] theorem State.accept_cfg (s : State) (w : Word32) : (s.accept w).cfg = s.cfg := rfl
@[simp] theorem State.accept_cmdCnt (s : State) (w : Word32) : (s.accept w).cmdCnt = s.cmdCnt := rfl
@[simp] theorem State.accept_source (s : State) (w : Word32) : (s.accept w).source = s.source := rfl
@[simp] theorem State.accept_de (s : State) (w : Word32) : (s.accept w).de = s.de := rfl
@[simp] theorem State.accept_dg (s : State) (w : Word32) : (s.accept w).dg = s.dg := rfl
@[simp] theorem State.accept_keys (s : State) (w : Word32) : (s.accept w).keys = s.keys := rfl
@[simp] theorem State.accept_bmem (s : State) (w : Word32) : (s.accept w).bmem = s.bmem := rfl
@[simp] theorem State.accept_params (s : State) (w : Word32) : (s.accept w).params = s.params := rfl
@[simp] theorem State.accept_resets (s : State) (w : Word32) : (s.accept w).resets = s.resets := rfl
@[simp] theorem State.accept_moves (s : State) (w : Word32) : (s.accept w).moves = s.moves := rfl
@[simp] theorem State.accept_portData (s : State) (w : Word32) : (s.accept w).portData = s.portData := rfl

/-! ### opening a session (40_digest.md rule R122) -/

@[simp] theorem State.openSession_x (s : State)  : (s.openSession).x = s.x := rfl
@[simp] theorem State.openSession_lastCmd (s : State)  : (s.openSession).lastCmd = s.lastCmd := rfl
@[simp] theorem State.openSession_pending (s : State)  : (s.openSession).pending = s.pending := rfl
@[simp] theorem State.openSession_status (s : State)  : (s.openSession).status = s.status.openSession := rfl
@[simp] theorem State.openSession_lastErr (s : State)  : (s.openSession).lastErr = s.lastErr := rfl
@[simp] theorem State.openSession_cfg (s : State)  : (s.openSession).cfg = s.cfg := rfl
@[simp] theorem State.openSession_cmdCnt (s : State)  : (s.openSession).cmdCnt = s.cmdCnt := rfl
@[simp] theorem State.openSession_source (s : State)  : (s.openSession).source = s.source := rfl
@[simp] theorem State.openSession_de (s : State)  : (s.openSession).de = { h := digestIV, len := 0, fill := 0, buf := Vector.replicate 64 0x00 } := rfl
@[simp] theorem State.openSession_dg (s : State)  : (s.openSession).dg = s.dg := rfl
@[simp] theorem State.openSession_keys (s : State)  : (s.openSession).keys = s.keys := rfl
@[simp] theorem State.openSession_bmem (s : State)  : (s.openSession).bmem = s.bmem := rfl
@[simp] theorem State.openSession_params (s : State)  : (s.openSession).params = s.params := rfl
@[simp] theorem State.openSession_resets (s : State)  : (s.openSession).resets = s.resets := rfl
@[simp] theorem State.openSession_moves (s : State)  : (s.openSession).moves = s.moves := rfl
@[simp] theorem State.openSession_portData (s : State)  : (s.openSession).portData = s.portData := rfl

/-! ### reset (70_reset_and_hazards.md rule R260) -/

@[simp] theorem State.resetEvent_x (s : State) (n : Nat) : (s.resetEvent n).x = State.reset.x := rfl
@[simp] theorem State.resetEvent_lastCmd (s : State) (n : Nat) : (s.resetEvent n).lastCmd = State.reset.lastCmd := rfl
@[simp] theorem State.resetEvent_pending (s : State) (n : Nat) : (s.resetEvent n).pending = State.reset.pending := rfl
@[simp] theorem State.resetEvent_status (s : State) (n : Nat) : (s.resetEvent n).status = State.reset.status := rfl
@[simp] theorem State.resetEvent_lastErr (s : State) (n : Nat) : (s.resetEvent n).lastErr = State.reset.lastErr := rfl
@[simp] theorem State.resetEvent_cfg (s : State) (n : Nat) : (s.resetEvent n).cfg = State.reset.cfg := rfl
@[simp] theorem State.resetEvent_cmdCnt (s : State) (n : Nat) : (s.resetEvent n).cmdCnt = State.reset.cmdCnt := rfl
@[simp] theorem State.resetEvent_source (s : State) (n : Nat) : (s.resetEvent n).source = { State.reset.source with queue := s.lostDraws n, pos := s.source.pos } := rfl
@[simp] theorem State.resetEvent_de (s : State) (n : Nat) : (s.resetEvent n).de = State.reset.de := rfl
@[simp] theorem State.resetEvent_dg (s : State) (n : Nat) : (s.resetEvent n).dg = State.reset.dg := rfl
@[simp] theorem State.resetEvent_keys (s : State) (n : Nat) : (s.resetEvent n).keys = State.reset.keys := rfl
@[simp] theorem State.resetEvent_bmem (s : State) (n : Nat) : (s.resetEvent n).bmem = State.reset.bmem := rfl
@[simp] theorem State.resetEvent_params (s : State) (n : Nat) : (s.resetEvent n).params = s.params := rfl
@[simp] theorem State.resetEvent_resets (s : State) (n : Nat) : (s.resetEvent n).resets = s.resets + 1 := rfl
@[simp] theorem State.resetEvent_moves (s : State) (n : Nat) : (s.resetEvent n).moves = s.moves := rfl
@[simp] theorem State.resetEvent_portData (s : State) (n : Nat) : (s.resetEvent n).portData = s.portData := rfl

/-! ### `MemWrite` (00_scope.md rule R13): BMEM only -/

theorem State.memWrite_only (s : State) (a : Nat) (bs : List Byte) :
    s.memWrite a bs = { s with bmem := (s.memWrite a bs).bmem } := by
  induction bs generalizing s a with
  | nil => rfl
  | cons b bs ih => exact ih (s.writeByte a b) (a + 1)

@[simp] theorem State.memWrite_x (s : State) (a : Nat) (bs : List Byte) : (s.memWrite a bs).x = s.x := by
  rw [State.memWrite_only]
@[simp] theorem State.memWrite_lastCmd (s : State) (a : Nat) (bs : List Byte) : (s.memWrite a bs).lastCmd = s.lastCmd := by
  rw [State.memWrite_only]
@[simp] theorem State.memWrite_pending (s : State) (a : Nat) (bs : List Byte) : (s.memWrite a bs).pending = s.pending := by
  rw [State.memWrite_only]
@[simp] theorem State.memWrite_status (s : State) (a : Nat) (bs : List Byte) : (s.memWrite a bs).status = s.status := by
  rw [State.memWrite_only]
@[simp] theorem State.memWrite_lastErr (s : State) (a : Nat) (bs : List Byte) : (s.memWrite a bs).lastErr = s.lastErr := by
  rw [State.memWrite_only]
@[simp] theorem State.memWrite_cfg (s : State) (a : Nat) (bs : List Byte) : (s.memWrite a bs).cfg = s.cfg := by
  rw [State.memWrite_only]
@[simp] theorem State.memWrite_cmdCnt (s : State) (a : Nat) (bs : List Byte) : (s.memWrite a bs).cmdCnt = s.cmdCnt := by
  rw [State.memWrite_only]
@[simp] theorem State.memWrite_source (s : State) (a : Nat) (bs : List Byte) : (s.memWrite a bs).source = s.source := by
  rw [State.memWrite_only]
@[simp] theorem State.memWrite_de (s : State) (a : Nat) (bs : List Byte) : (s.memWrite a bs).de = s.de := by
  rw [State.memWrite_only]
@[simp] theorem State.memWrite_dg (s : State) (a : Nat) (bs : List Byte) : (s.memWrite a bs).dg = s.dg := by
  rw [State.memWrite_only]
@[simp] theorem State.memWrite_keys (s : State) (a : Nat) (bs : List Byte) : (s.memWrite a bs).keys = s.keys := by
  rw [State.memWrite_only]
@[simp] theorem State.memWrite_params (s : State) (a : Nat) (bs : List Byte) : (s.memWrite a bs).params = s.params := by
  rw [State.memWrite_only]
@[simp] theorem State.memWrite_resets (s : State) (a : Nat) (bs : List Byte) : (s.memWrite a bs).resets = s.resets := by
  rw [State.memWrite_only]
@[simp] theorem State.memWrite_moves (s : State) (a : Nat) (bs : List Byte) : (s.memWrite a bs).moves = s.moves := by
  rw [State.memWrite_only]
@[simp] theorem State.memWrite_portData (s : State) (a : Nat) (bs : List Byte) : (s.memWrite a bs).portData = s.portData := by
  rw [State.memWrite_only]

/-! ### Register reads -/

@[simp] theorem State.readX_writeX_same (s : State) (i : Reg) (v : Word64) : (s.writeX i v).readX i = v := by
  simp [State.readX]

@[simp] theorem State.readX_writeX_other (s : State) {i j : Reg} (v : Word64) (h : j ≠ i) :
    (s.writeX i v).readX j = s.readX j := by
  simp only [State.readX, State.writeX_x, Fin.getElem_fin]
  exact Vector.getElem_set_ne _ _ (fun e => h (Fin.ext e.symm))

@[simp] theorem State.readX_complete (s : State) (c : ErrCode) (i : Reg) : (s.complete c).readX i = s.readX i := rfl

@[simp] theorem State.readX_memWrite (s : State) (a : Nat) (bs : List Byte) (i : Reg) :
    (s.memWrite a bs).readX i = s.readX i := by
  simp [State.readX]

theorem State.writeXNat_eq (s : State) (i : Reg) (v : Nat) : s.writeXNat i v = s.writeX i (BitVec.ofNat 64 v) := rfl

theorem State.writeXInt_eq (s : State) (i : Reg) (v : Int) : s.writeXInt i v = s.writeX i (BitVec.ofInt 64 v) := rfl

/-! ### Results and outcomes -/

@[simp] theorem done_code (s : State) : (done s).code = .ok := rfl

@[simp] theorem done_state (s : State) : (done s).state = s := rfl

@[simp] theorem raise_code (e : ErrCode) (s : State) : (raise e s).code = e := rfl

@[simp] theorem raise_state (e : ErrCode) (s : State) : (raise e s).state = s := rfl

@[simp] theorem conclude_done (s : State) : conclude (done s) = .next (s.complete .ok) := rfl

@[simp] theorem conclude_raise (e : ErrCode) (s : State) : conclude (raise e s) = .next (s.complete e) := rfl

@[simp] theorem Result.andThen_done (s : State) (f : State → Result) : (done s).andThen f = f s := rfl

theorem Result.andThen_error (r : Result) (f : State → Result) (h : r.code ≠ .ok) : r.andThen f = r := by
  obtain ⟨c, t⟩ := r
  cases c <;> first | exact absurd rfl h | rfl

end Sys2Proof.Machine
end

