-- ==== Sys2Proof/Laws/Commands.lean ====
section
/-! SUPPORT. Laws/Commands.lean: what the parts the commands share can do, said once each: the completion, the session parts,
the draws. -/

namespace Sys2Proof.Machine

/-! ### Completion (60_exceptions.md rule R243) -/

/-- The completion with code 0x00. -/
theorem complete_ok (s : State) : s.complete .ok = s.succeeded := by
  simp [State.complete, State.succeeded, ErrCode.byte]

/-- The completion with any other code. -/
theorem complete_error (s : State) {c : ErrCode} (h : c ≠ .ok) : s.complete c = s.failed c.byte := by
  have hc : (c != .ok) = true := bne_iff_ne.mpr h
  simp [State.complete, State.failed, hc]

/-- A code is 0x00 exactly for ok, and every code is one of rule R231's. -/
theorem ErrCode.byte_eq_zero (c : ErrCode) : c.byte = 0x00 ↔ c = .ok := by cases c <;> decide

theorem ErrCode.byte_legal (c : ErrCode) : c.byte ∈ legalCodes := by cases c <;> decide

/-- A command whose pseudocode ran to its end succeeds. -/
theorem conclude_done_succeeded (s : State) : conclude (done s) = .next s.succeeded :=
  congrArg Host.Outcome.next (complete_ok s)

/-- A command that raises an error fails with its code. -/
theorem conclude_raise_error (s : State) {c : ErrCode} (h : c ≠ .ok) : conclude (raise c s) = .next (s.failed c.byte) :=
  congrArg Host.Outcome.next (complete_error s h)

/-- A part that raised an error ends the command. -/
theorem Result.raise_andThen (s : State) {c : ErrCode} (h : c ≠ .ok) (f : State → Result) :
    (raise c s).andThen f = raise c s := by
  cases c <;> first | rfl | exact absurd rfl h

/-! ### The session (40_digest.md rules R123, R124) -/

/-- Everything the body of de.update can do. -/
theorem updatePart_cases (src len : Nat) (s : State) :
    (s.status.dsess = false ∧ updatePart src len s = raise .ioNoSession s) ∨
    (s.status.dsess = true ∧ s.params.bmemSize < src + len ∧
      updatePart src len s = raise .ioRange { s with status := s.status.abortSession }) ∨
    (s.status.dsess = true ∧ src + len ≤ s.params.bmemSize ∧
      updatePart src len s = done { s with de := s.de.absorb (s.memRead src len) }) := by
  unfold updatePart State.inRange
  cases hd : s.status.dsess with
  | false => exact .inl ⟨rfl, rfl⟩
  | true =>
    by_cases h : src + len ≤ s.params.bmemSize
    · exact .inr (.inr ⟨rfl, h, by simp [h]⟩)
    · exact .inr (.inl ⟨rfl, Nat.lt_of_not_le h, by simp [h]⟩)

/-- Everything the body of de.final can do. -/
theorem finalPart_cases (s : State) :
    (s.status.dsess = false ∧ finalPart s = raise .ioNoSession s) ∨
    (s.status.dsess = true ∧ finalPart s = done { s with
      de := { s.de with h := s.de.finalHash }
      dg := s.de.finalHash
      status := s.status.publish }) := by
  unfold finalPart
  cases hd : s.status.dsess with
  | false => exact .inl ⟨rfl, rfl⟩
  | true => exact .inr ⟨rfl, rfl⟩

/-! ### The random source (42_cipher.md rule R190) -/

/-- One draw is the next value ahead, and the source after one draw. -/
theorem Source.draw_eq (r : Source) : r.draw = (r.ahead 0, r.after 1) := by
  obtain ⟨n, q, p⟩ := r
  cases q with
  | nil => simp [Source.draw, Source.ahead, Source.after]
  | cons d ds => simp [Source.draw, Source.ahead, Source.after]

@[simp] theorem Source.after_zero (r : Source) : r.after 0 = r := by simp [Source.after]

/-- Draws ahead after n draws. -/
theorem Source.ahead_after (r : Source) (n i : Nat) : (r.after n).ahead i = r.ahead (n + i) := by
  unfold Source.ahead Source.after
  simp only [List.length_drop]
  by_cases h : n + i < r.queue.length
  · rw [if_pos h, if_pos (by omega)]
    simp [List.getElem?_drop]
  · rw [if_neg h, if_neg (by omega)]
    congr 1
    omega

/-- n draws and then m are n + m draws. -/
theorem Source.after_after (r : Source) (n m : Nat) : (r.after n).after m = r.after (n + m) := by
  unfold Source.after
  simp only [List.length_drop, List.drop_drop, Source.mk.injEq]
  refine ⟨?_, trivial, by omega⟩
  rw [BitVec.ofNat_add, BitVec.add_assoc]

end Sys2Proof.Machine
end

