-- ==== Sys2Proof/Laws/Keygen.lean ====
section
/-! SUPPORT. Laws/Keygen.lean: what each search of kc.keygen can find (42_cipher.md rules R193, R195, R197). -/

namespace Sys2Proof.Machine

/-- A prime a search finds is a candidate of its range that passed the test. -/
theorem Search.findPrime_found (z : Search) (hz : z.pmin ≤ z.pmax) (tries : Nat) (r r' : Source) (c : Nat)
    (h : z.findPrime tries r = (some c, r')) :
    z.pmin ≤ c ∧ c ≤ z.pmax ∧ ∃ r0, sstest z.mode c z.k r0 = (true, r') := by
  induction tries generalizing r with
  | zero => simp [Search.findPrime] at h
  | succ tries ih =>
    simp only [Search.findPrime] at h
    split at h
    · rename_i hp
      obtain ⟨hc, hr⟩ := Prod.mk.inj h
      obtain rfl := Option.some.inj hc
      have := Source.drawIn_mem r hz
      exact ⟨this.1, this.2, _, Prod.ext hp hr⟩
    · exact ih _ h

/-- A pair the pair search finds: both in the range, distinct, and a product of at least 128. -/
theorem Search.findPair_found (z : Search) (hz : z.pmin ≤ z.pmax) (pairs : Nat) (r r' : Source) (p q : Nat)
    (h : z.findPair pairs r = (some (p, q), r')) :
    (z.pmin ≤ p ∧ p ≤ z.pmax) ∧ (z.pmin ≤ q ∧ q ≤ z.pmax) ∧ p ≠ q ∧ 128 ≤ p * q := by
  induction pairs generalizing r with
  | zero => simp [Search.findPair] at h
  | succ pairs ih =>
    simp only [Search.findPair] at h
    split at h
    · simp at h
    · rename_i p0 q0 r0 hd
      split at h
      · exact ih _ h
      · rename_i hne
        split at h
        · exact ih _ h
        · rename_i hge
          simp only [Prod.mk.injEq, Option.some.injEq] at h
          obtain ⟨⟨rfl, rfl⟩, rfl⟩ := h
          unfold Search.drawPair at hd
          split at hd
          · simp at hd
          · rename_i p1 r1 hp
            split at hd
            · simp at hd
            · rename_i q1 r2 hq
              simp only [Prod.mk.injEq, Option.some.injEq] at hd
              obtain ⟨⟨rfl, rfl⟩, rfl⟩ := hd
              have h1 := z.findPrime_found hz _ _ _ _ hp
              have h2 := z.findPrime_found hz _ _ _ _ hq
              exact ⟨⟨h1.1, h1.2.1⟩, ⟨h2.1, h2.2.1⟩, hne, by omega⟩

/-- An exponent the search finds is coprime to the totient, the first such one from e0 on, within the cap. -/
theorem findExponent_found (phi incs e0 e : Nat) (h : findExponent phi incs e0 = some e) :
    e0 ≤ e ∧ e ≤ e0 + incs ∧ gcd e phi = 1 ∧ ∀ x, e0 ≤ x → x < e → gcd x phi ≠ 1 := by
  induction incs generalizing e0 with
  | zero =>
    unfold findExponent at h
    split at h
    · obtain rfl := Option.some.inj h
      exact ⟨Nat.le_refl _, Nat.le_refl _, by assumption, fun x h1 h2 => by omega⟩
    · simp at h
  | succ incs ih =>
    unfold findExponent at h
    split at h
    · obtain rfl := Option.some.inj h
      exact ⟨Nat.le_refl _, by omega, by assumption, fun x h1 h2 => by omega⟩
    · rename_i hg
      obtain ⟨h1, h2, h3, h4⟩ := ih _ h
      refine ⟨by omega, by omega, h3, fun x hx1 hx2 => ?_⟩
      by_cases hx : x = e0
      · exact hx ▸ hg
      · exact h4 x (by omega) hx2

end Sys2Proof.Machine
end

