-- ==== Sys2Proof/Laws/Memory.lean ====
section
/-! SUPPORT. Laws/Memory.lean: BMEM keeps its canonical form; a byte read after a write; the range operations. -/

namespace Sys2Proof.Machine

/-! ### One byte -/

theorem Memory.lookup_insert (m : Memory) (a k : Nat) (b : Byte) (h : m.wf) :
    (m.insert a b).lookup k = if k = a then some b else m.lookup k := by
  induction m with
  | nil => simp only [Memory.insert, Memory.lookup, eq_comm]
  | cons c m ih =>
    obtain ⟨k0, v⟩ := c
    have hm : Memory.wf m := (List.pairwise_cons.mp h).2
    simp only [Memory.insert]
    split
    · simp only [Memory.lookup, eq_comm]
    · split
      · subst a; simp only [Memory.lookup, eq_comm]; split <;> rfl
      · simp only [Memory.lookup]
        by_cases h1 : k0 = k
        · rw [if_pos h1, if_neg (by omega), if_pos h1]
        · rw [if_neg h1, if_neg h1]; exact ih hm

theorem Memory.mem_insert (m : Memory) (a : Nat) (b : Byte) (c : Host.Cell) (h : c ∈ m.insert a b) :
    c = (a, b) ∨ c ∈ m := by
  induction m with
  | nil => exact .inl (List.mem_singleton.mp h)
  | cons d m ih =>
    simp only [Memory.insert] at h
    split at h
    · exact List.mem_cons.mp h
    · split at h
      · exact (List.mem_cons.mp h).imp id (List.mem_cons_of_mem d)
      · obtain h | h := List.mem_cons.mp h
        · exact .inr (h ▸ List.mem_cons_self)
        · exact (ih h).imp id (List.mem_cons_of_mem d)

/-- A write keeps the canonical form. -/
theorem Memory.wf_insert (m : Memory) (a : Nat) (b : Byte) (h : m.wf) : (m.insert a b).wf := by
  induction m with
  | nil => exact List.pairwise_singleton _ _
  | cons d m ih =>
    have hd := List.pairwise_cons.mp h
    simp only [Memory.insert]
    split
    · refine List.pairwise_cons.mpr ⟨fun c hc => ?_, h⟩
      obtain rfl | hc := List.mem_cons.mp hc
      · assumption
      · exact lt_trans ‹_› (hd.1 c hc)
    · split
      · subst a; exact List.pairwise_cons.mpr ⟨hd.1, hd.2⟩
      · refine List.pairwise_cons.mpr ⟨fun c hc => ?_, ih hd.2⟩
        obtain rfl | hc := Memory.mem_insert m a b c hc
        · show d.1 < a; omega
        · exact hd.1 c hc

/-- A byte read after a write: the byte written there, and every other byte as before. -/
theorem State.readByte_writeByte (s : State) (a k : Nat) (b : Byte) (h : s.bmem.wf) :
    (s.writeByte a b).readByte k = if k = a then b else s.readByte k := by
  simp only [State.readByte, State.writeByte_bmem, Memory.lookup_insert _ _ _ _ h, State.unwritten,
    State.writeByte_resets]
  split <;> rfl

/-! ### Ranges -/

theorem State.wf_memWrite (s : State) (a : Nat) (bs : List Byte) (h : s.bmem.wf) : (s.memWrite a bs).bmem.wf := by
  induction bs generalizing s a with
  | nil => exact h
  | cons b bs ih => exact ih _ _ (Memory.wf_insert _ _ _ h)

/-- Every address a range write lists is one of the range, or was listed before. -/
theorem State.mem_memWrite (s : State) (a : Nat) (bs : List Byte) (c : Host.Cell) (h : c ∈ (s.memWrite a bs).bmem) :
    (a ≤ c.1 ∧ c.1 < a + bs.length) ∨ c ∈ s.bmem := by
  induction bs generalizing s a with
  | nil => exact .inr h
  | cons b bs ih =>
    simp only [List.length_cons]
    obtain h | h := ih _ _ h
    · exact .inl ⟨by omega, by omega⟩
    · obtain rfl | h := Memory.mem_insert _ _ _ _ h
      · exact .inl ⟨le_rfl, by show a < _; omega⟩
      · exact .inr h

/-- `MemWrite` then a read of one byte: the byte of the range, and every other byte as before. -/
theorem State.readByte_memWrite (s : State) (a k : Nat) (bs : List Byte) (h : s.bmem.wf) :
    (s.memWrite a bs).readByte k = if a ≤ k ∧ k < a + bs.length then bs.getD (k - a) 0 else s.readByte k := by
  induction bs generalizing s a with
  | nil => rw [if_neg (by simp)]; rfl
  | cons b bs ih =>
    rw [State.memWrite, ih _ _ (Memory.wf_insert _ _ _ h), State.readByte_writeByte _ _ _ _ h, List.length_cons]
    by_cases hk : k = a
    · subst hk; simp
    · by_cases hr : a + 1 ≤ k ∧ k < a + 1 + bs.length
      · rw [if_pos hr, if_pos (by omega), show k - a = (k - (a + 1)) + 1 by omega, List.getD_cons_succ]
      · rw [if_neg hr, if_neg hk, if_neg (by omega)]

@[simp] theorem State.length_memRead (s : State) (a n : Nat) : (s.memRead a n).length = n := by
  induction n generalizing a with
  | zero => rfl
  | succ n ih => simp [State.memRead, ih]

/-- Byte i of `MemRead`. -/
theorem State.getD_memRead (s : State) (a n i : Nat) (h : i < n) (d : Byte) :
    (s.memRead a n).getD i d = s.readByte (a + i) := by
  induction n generalizing a i with
  | zero => omega
  | succ n ih =>
    cases i with
    | zero => rfl
    | succ i => rw [State.memRead, List.getD_cons_succ, ih _ _ (by omega)]; congr 1; omega

/-- Two states with the same bytes in a range read the same sequence. -/
theorem State.memRead_congr (s t : State) (a n : Nat) (h : ∀ k, a ≤ k → k < a + n → s.readByte k = t.readByte k) :
    s.memRead a n = t.memRead a n := by
  induction n generalizing a with
  | zero => rfl
  | succ n ih =>
    rw [State.memRead, State.memRead, h a le_rfl (by omega), ih (a + 1) (fun k h1 h2 => h k (by omega) (by omega))]

/-- `MemRead` of a range just written gives the bytes written. -/
theorem State.memRead_memWrite (s : State) (a : Nat) (bs : List Byte) (h : s.bmem.wf) :
    (s.memWrite a bs).memRead a bs.length = bs := by
  apply List.ext_getElem (by simp)
  intro i h1 h2
  have := (s.memWrite a bs).getD_memRead a bs.length i h2 0
  rw [State.readByte_memWrite _ _ _ _ h, if_pos ⟨by omega, by omega⟩, Nat.add_sub_cancel_left,
    List.getD_eq_getElem _ _ h1, List.getD_eq_getElem _ _ h2] at this
  exact this

/-- The memory right after reset is in canonical form. -/
theorem reset_bmem_wf : State.reset.bmem.wf := List.Pairwise.nil

end Sys2Proof.Machine
end

