-- ==== Sys2Proof/Laws/PerInstr.lean ====
section
/-! SUPPORT. Laws/PerInstr.lean: the statement made for every command as syntax: it is well formed, and its word carries its
fields at the positions of 30_encoding.md rule R91. -/

namespace Sys2Proof.Laws.WordCarriesFields

/-- A command is well formed (rules R95, R96), and the fields read from its word are its format's. -/
def Statement (i : Sys2Proof.Instr) : Prop := i.wf = true ∧ Format.ofWord (encode i) = i.format

/-- The low field of two fields laid side by side. -/
theorem extract_low {m n : Nat} (x : BitVec m) (y : BitVec n) : (x ++ y).extractLsb' 0 n = y := by
  apply BitVec.eq_of_getLsbD_eq
  intro i hi
  simp [BitVec.getLsbD_append, hi]

/-- A field above the low one. -/
theorem extract_high {m n : Nat} (x : BitVec m) (y : BitVec n) (k l : Nat) :
    (x ++ y).extractLsb' (n + k) l = x.extractLsb' k l := by
  apply BitVec.eq_of_getLsbD_eq
  intro i _
  simp [BitVec.getLsbD_append, show ¬ n + k + i < n by omega, show n + k + i - n = k + i by omega]

/-- The topmost field, once the others are taken off. -/
theorem extract_all {m : Nat} (x : BitVec m) : x.extractLsb' 0 m = x := by
  apply BitVec.eq_of_getLsbD_eq
  intro i hi
  simp [hi]

/-- The fields of a word laid out from a format are the format's. -/
theorem ofWord_toWord (f : Format) : Format.ofWord f.toWord = f := by
  obtain ⟨opc, d1, s1, s2, s3, d2, d3, rsv⟩ := f
  simp only [Format.ofWord, Format.toWord, Format.mk.injEq]
  refine ⟨extract_low _ opc, ?_, ?_, ?_, ?_, ?_, ?_, ?_⟩
  · exact (extract_high _ opc 0 3).trans (extract_low _ d1)
  · exact (extract_high _ opc 3 3).trans ((extract_high _ d1 0 3).trans (extract_low _ s1))
  · exact (extract_high _ opc 6 3).trans ((extract_high _ d1 3 3).trans ((extract_high _ s1 0 3).trans (extract_low _ s2)))
  · exact (extract_high _ opc 9 3).trans ((extract_high _ d1 6 3).trans ((extract_high _ s1 3 3).trans
      ((extract_high _ s2 0 3).trans (extract_low _ s3))))
  · exact (extract_high _ opc 12 3).trans ((extract_high _ d1 9 3).trans ((extract_high _ s1 6 3).trans
      ((extract_high _ s2 3 3).trans ((extract_high _ s3 0 3).trans (extract_low _ d2)))))
  · exact (extract_high _ opc 15 3).trans ((extract_high _ d1 12 3).trans ((extract_high _ s1 9 3).trans
      ((extract_high _ s2 6 3).trans ((extract_high _ s3 3 3).trans ((extract_high _ d2 0 3).trans (extract_low _ d3))))))
  · exact (extract_high _ opc 18 6).trans ((extract_high _ d1 15 6).trans ((extract_high _ s1 12 6).trans
      ((extract_high _ s2 9 6).trans ((extract_high _ s3 6 6).trans ((extract_high _ d2 3 6).trans
        ((extract_high _ d3 0 6).trans (extract_all rsv)))))))

theorem nop : Statement .nop := ⟨rfl, ofWord_toWord _⟩

theorem deInit : Statement .deInit := ⟨rfl, ofWord_toWord _⟩

theorem deUpdate (s1 s2 : Reg) : Statement (.deUpdate s1 s2) := ⟨rfl, ofWord_toWord _⟩

theorem deFinal : Statement .deFinal := ⟨rfl, ofWord_toWord _⟩

theorem deHash (s1 s2 : Reg) : Statement (.deHash s1 s2) := ⟨rfl, ofWord_toWord _⟩

theorem deHex (d1 s1 : Reg) : Statement (.deHex d1 s1) := ⟨rfl, ofWord_toWord _⟩

theorem arPowmod (d1 s1 s2 s3 : Reg) : Statement (.arPowmod d1 s1 s2 s3) := ⟨rfl, ofWord_toWord _⟩

theorem arGcd (d1 s1 s2 : Reg) : Statement (.arGcd d1 s1 s2) := ⟨rfl, ofWord_toWord _⟩

theorem arEgcd (d1 d2 d3 s1 s2 : Reg) : Statement (.arEgcd d1 d2 d3 s1 s2) := ⟨rfl, ofWord_toWord _⟩

theorem arInv (d1 s1 s2 : Reg) : Statement (.arInv d1 s1 s2) := ⟨rfl, ofWord_toWord _⟩

theorem arJacobi (d1 s1 s2 : Reg) : Statement (.arJacobi d1 s1 s2) := ⟨rfl, ofWord_toWord _⟩

theorem arPrime (d1 s1 : Reg) : Statement (.arPrime d1 s1) := ⟨rfl, ofWord_toWord _⟩

theorem kcKeygen : Statement .kcKeygen := ⟨rfl, ofWord_toWord _⟩

theorem kcBpb (d1 s1 : Reg) : Statement (.kcBpb d1 s1) := ⟨rfl, ofWord_toWord _⟩

theorem kcEncode (d1 s1 s2 s3 : Reg) : Statement (.kcEncode d1 s1 s2 s3) := ⟨rfl, ofWord_toWord _⟩

theorem kcDecode (d1 s1 s2 s3 : Reg) : Statement (.kcDecode d1 s1 s2 s3) := ⟨rfl, ofWord_toWord _⟩

end Sys2Proof.Laws.WordCarriesFields
end

