-- ==== Sys2Proof/Laws/Reference.lean ====
section
/-! SUPPORT. Laws/Reference.lean: the small lemmas of the reference functions of Safety.lean: register halves, BUF, and the
counted searches of a key generation. -/

namespace Sys2Proof.Machine

/-! ### Register halves (10_state.md rule R22) -/

theorem half_low (v : Word64) : half v false = lowHalf v := by
  apply BitVec.eq_of_toNat_eq
  simp [half, lowHalf]

theorem half_high (v : Word64) : half v true = highHalf v := by
  apply BitVec.eq_of_toNat_eq
  simp [half, highHalf]

theorem lowHalf_toNat (v : Word64) : (lowHalf v).toNat = v.toNat % 2 ^ 32 := by simp [lowHalf]

theorem highHalf_toNat (v : Word64) : (highHalf v).toNat = v.toNat / 2 ^ 32 := by
  have := v.isLt
  simp [highHalf, Nat.shiftRight_eq_div_pow]
  omega

theorem withHalf_low (v : Word64) (w : Word32) : withHalf v false w = withLow v w := by
  apply BitVec.eq_of_toNat_eq
  have hv := v.isLt
  have hw := w.isLt
  have hd : v.toNat / 2 ^ 32 % 2 ^ 32 = v.toNat / 2 ^ 32 := Nat.mod_eq_of_lt (by omega)
  have h1 : v.toNat / 4294967296 * 4294967296 + w.toNat < 18446744073709551616 := by omega
  simp only [withHalf, withLow, Bool.false_eq_true, if_false, BitVec.toNat_append, BitVec.extractLsb'_toNat,
    Nat.shiftRight_eq_div_pow, BitVec.toNat_ofNat, hd]
  rw [← Nat.shiftLeft_add_eq_or_of_lt hw, Nat.shiftLeft_eq]
  omega

theorem withHalf_high (v : Word64) (w : Word32) : withHalf v true w = withHigh v w := by
  apply BitVec.eq_of_toNat_eq
  have hv := v.isLt
  have hw := w.isLt
  have hl : v.toNat % 2 ^ 32 < 2 ^ 32 := Nat.mod_lt _ (by decide)
  simp only [withHalf, withHigh, if_true, BitVec.toNat_append, BitVec.extractLsb'_toNat, Nat.shiftRight_zero,
    BitVec.toNat_ofNat]
  rw [← Nat.shiftLeft_add_eq_or_of_lt hl, Nat.shiftLeft_eq]
  omega

/-! ### BUF (10_state.md rule R52) -/

theorem bufferAfter_getElem (old : Vector Byte 64) (all : List Byte) (j : Nat) (h : j < 64) :
    (bufferAfter old all)[j] =
      if j < all.length then all.getD (j + 64 * ((all.length - 1 - j) / 64)) 0x00 else old[j] := by
  simp [bufferAfter]

/-- No byte, no change. -/
@[simp] theorem bufferAfter_nil (old : Vector Byte 64) : bufferAfter old [] = old := by
  ext j hj
  simp [bufferAfter]

/-! ### The counted searches (42_cipher.md rules R193 to R195) -/

@[simp] theorem Search.rejectsPairs_zero (z : Search) (r r' : Source) : z.RejectsPairs 0 r r' ↔ r' = r := Iff.rfl

theorem Search.rejectsPairs_succ (z : Search) (n : Nat) (r r' : Source) :
    z.RejectsPairs (n + 1) r r' ↔
      ∃ p q r1, z.FindsPair r p q r1 ∧ (p = q ∨ p * q < 128) ∧ z.RejectsPairs n r1 r' := Iff.rfl

/-- A search that accepts its first candidate. -/
theorem Search.findsPrime_first (z : Search) (r : Source) (hc : 0 < z.cap) (h : (z.verdict r).1 = true) :
    z.FindsPrime r (z.candidate r) (z.passed r) :=
  ⟨0, hc, fun j hj => absurd hj (Nat.not_lt_zero j), h, rfl, rfl⟩

/-- The verdict on a candidate no trial is made for (41_arith.md rule R159). -/
theorem primeVerdict_small (mode : MulmodMode) (c k : Nat) (r : Source) (h : c < 5 ∨ c % 2 = 0) :
    primeVerdict mode c k r = (decide (c = 2 ∨ c = 3), 0) := if_pos h

/-- The verdict on a candidate all of whose trials pass. -/
theorem primeVerdict_passes (mode : MulmodMode) (c k : Nat) (r : Source) (h5 : 5 ≤ c) (ho : c % 2 = 1)
    (h : ∀ i < k, eulerPass mode c (r.ahead i) = true) : primeVerdict mode c k r = (true, k) := by
  have hg : (List.range k).takeWhile (fun i => eulerPass mode c (r.ahead i)) = List.range k := by
    rw [List.takeWhile_eq_self_iff]
    exact fun i hi => h i (List.mem_range.mp hi)
  unfold primeVerdict
  rw [if_neg (by omega)]
  simp [hg]

/-- A trial that passes: the symbol is j, not 0, and the power is j mod c. -/
theorem eulerPass_of (mode : MulmodMode) (c : Nat) (d : Word64) (a : Nat) (j : Int) (ha : 2 + d.toNat % (c - 3) = a)
    (hj : jacobiSym a c = j) (h0 : j ≠ 0) (hp : (powerMod mode a ((c - 1) / 2) c : Int) = j % (c : Int)) :
    eulerPass mode c d = true := by
  subst ha
  unfold eulerPass
  rw [decide_eq_true_eq, hj]
  exact ⟨h0, hp⟩

end Sys2Proof.Machine
end

