-- ==== Sys2Proof/Laws/Step.lean ====
section
/-! SUPPORT. Laws/Step.lean: what a step can do, said once. -/

namespace Sys2Proof.Machine

/-- Everything a command can end in: one completion. -/
theorem conclude_next (r : Result) : conclude r = .next (r.state.complete r.code) := rfl

/-- Every command completes, whatever the state (00_scope.md rule R19): exec answers a completed state. -/
theorem exec_completes (i : Instr) (s : State) : ∃ u c, exec i s = .next (State.complete u c) := by
  cases i <;> exact ⟨_, _, rfl⟩

/-- Everything the engine's turn can do. -/
theorem engineTurn_cases (s : State) :
    (s.status.busy = false ∧ engineTurn s = .next s) ∨
    (s.status.busy = true ∧ ∃ i, decode s.pending = .ok i ∧ engineTurn s = exec i s) ∨
    (s.status.busy = true ∧ ∃ e, decode s.pending = .error e ∧ engineTurn s = .next (s.complete .illegal)) := by
  unfold engineTurn
  cases hb : s.status.busy with
  | false => exact .inl ⟨rfl, rfl⟩
  | true =>
    cases hd : decode s.pending with
    | ok i => exact .inr (.inl ⟨rfl, i, rfl, rfl⟩)
    | error e => exact .inr (.inr ⟨rfl, e, rfl, rfl⟩)

/-- Everything a step can do: an engine turn, a host read, a host write or a reset, on the state with that move taken off. -/
theorem step_cases {s t : State} (h : step s = .next t) :
    (s.moves = [] ∧ engineTurn s = .next t) ∨
    (∃ rest, s.moves = .engine :: rest ∧ engineTurn { s with moves := rest } = .next t) ∨
    (∃ off rest, s.moves = .hostRead off :: rest ∧ t = { s with moves := rest }.hostRead off) ∨
    (∃ off v rest, s.moves = .hostWrite off v :: rest ∧ t = { s with moves := rest }.portWrite off v) ∨
    (∃ lost rest, s.moves = .reset lost :: rest ∧ t = { s with moves := rest }.resetEvent lost) := by
  unfold step nextTurn at h
  split at h
  · exact .inl ⟨‹_›, h⟩
  · rename_i m rest hm
    refine .inr ?_
    cases m with
    | engine => exact .inl ⟨rest, hm, h⟩
    | hostRead off => exact .inr (.inl ⟨off, rest, hm, by injection h with h; exact h.symm⟩)
    | hostWrite off v => exact .inr (.inr (.inl ⟨off, v, rest, hm, by injection h with h; exact h.symm⟩))
    | reset lost => exact .inr (.inr (.inr ⟨lost, rest, hm, by injection h with h; exact h.symm⟩))

/-- The step with no move listed is the engine's turn. -/
@[simp] theorem step_idle (s : State) (h : s.moves = []) : step s = engineTurn s := by
  unfold step nextTurn; rw [h]

/-! ### The host port -/

/-- Everything a host read can do: it is refused, or it returns the value of its place and changes nothing. -/
theorem portRead_cases (s : State) (off : Offset) :
    s.portRead off = (0, s.refuse) ∨
      ∃ p, locate s.params.bmemSize off = some p ∧ s.portRead off = (s.readPlace p, s) := by
  unfold State.portRead
  split
  · exact .inl rfl
  · split
    · exact .inl rfl
    · exact .inr ⟨_, ‹_›, rfl⟩

/-- Everything a host write can do: it is refused, or it is the write of its place. -/
theorem portWrite_cases (s : State) (off : Offset) (v : Word32) :
    s.portWrite off v = s.refuse ∨
      ∃ p t, locate s.params.bmemSize off = some p ∧ s.writePlace v p = some t ∧ s.portWrite off v = t := by
  unfold State.portWrite
  split
  · exact .inl rfl
  · split
    · exact .inl rfl
    · rename_i p hp _
      cases hw : s.writePlace v p with
      | none => exact .inl rfl
      | some t => exact .inr ⟨p, t, hp, hw, rfl⟩

end Sys2Proof.Machine
end

