-- ==== Sys2Proof/Tests/Slice0.lean ====
section
/-! SUPPORT. Slice0.lean: small tests against the vectors of 95_test_vectors.md (expected values from there and from the
rules' own examples), and for every statement with hypotheses a state and operands that meet them all. -/

namespace Sys2Proof.Tests

-- One theorem after another: side by side these many evaluations take a thread, and its stack, each.
set_option Elab.async false

open Sys2Proof Sys2Proof.Machine

/-! ### Helpers -/

/-- The state a command leaves (s itself if it answers no next state). -/
def after (i : Instr) (s : State) : State :=
  match exec i s with
  | .next t => t
  | _ => s

theorem exec_after (i : Instr) (s : State) : exec i s = .next (after i s) := by
  obtain ⟨u, c, h⟩ := exec_completes i s
  unfold after
  rw [h]

/-- s with some general registers set. -/
def regs (s : State) (l : List (Reg × Nat)) : State := l.foldl (fun s p => s.writeXNat p.1 p.2) s

/-- Reset with some general registers set. -/
def regsOf (l : List (Reg × Nat)) : State := regs State.reset l

/-- Reset with bytes in BMEM and some general registers set. -/
def bytesOf (addr : Nat) (bs : List Byte) (l : List (Reg × Nat)) : State := (regsOf l).memWrite addr bs

/-- s with a key in KN, KE, KD. -/
def keyed (s : State) (n e d : Nat) : State :=
  { s with keys := { s.keys with kn := BitVec.ofNat 64 n, ke := BitVec.ofNat 64 e, kd := BitVec.ofNat 64 d } }

/-- s with K set and the next draws listed. -/
def drawing (s : State) (k : Nat) (ds : List Nat) : State :=
  { s with cfg := { s.cfg with k := BitVec.ofNat 8 k }, source := { s.source with queue := ds.map (BitVec.ofNat 64) } }

/-- s with the host's or the platform's next moves listed. -/
def moving (s : State) (ms : List Move) : State := { s with moves := ms }

/-- An open session with nothing absorbed. -/
def opened (l : List (Reg × Nat)) : State := after .deInit (regsOf l)

/-- A valid digest, that of "abc" (section 1.1), without the session it came from. -/
def digested (l : List (Reg × Nat)) : State :=
  { regsOf l with
    dg := ⟨0x98500190, 0xB04FD23C, 0x7D3F96D6, 0x727FE128⟩
    status := { State.reset.status with dvalid := true } }

/-- The configuration and the draws of the 7-draw key (section 2.8). -/
def keyDraws : State := drawing State.reset 2 [58, 0, 5, 50, 0, 1, 15]

/-! ### Well-formedness (rules R95 to R97) -/

theorem test_wf_opcode : ({ opc := 0x15 } : Format).problem = some .unassignedOpcode ∧
    ({ opc := 0x15 } : Format).wf = false := by decide
theorem test_wf_reserved : ({ opc := 0x10, rsv := 1 } : Format).problem = some .reservedNonzero ∧
    ({ opc := 0x10, rsv := 1 } : Format).wf = false := by decide
theorem test_wf_d1 : ({ opc := 0x11, d1 := 7 } : Format).problem = some .unusedFieldNonzero := by decide
theorem test_wf_s1 : ({ opc := 0x30, s1 := 1 } : Format).problem = some .unusedFieldNonzero := by decide
theorem test_wf_s2 : ({ opc := 0x31, s2 := 1 } : Format).problem = some .unusedFieldNonzero := by decide
theorem test_wf_s3 : ({ opc := 0x14, s3 := 1 } : Format).problem = some .unusedFieldNonzero := by decide
theorem test_wf_d2 : ({ opc := 0x21, d2 := 1 } : Format).problem = some .unusedFieldNonzero := by decide
theorem test_wf_d3 : ({ opc := 0x33, d3 := 4 } : Format).problem = some .unusedFieldNonzero := by decide
theorem test_wf_accepts : ({ opc := 0x22, d1 := 7, s1 := 4, s2 := 3, d2 := 6, d3 := 5 } : Format).wf = true := by decide

/-! ### Decoding: the words of section 2.1, bit by bit, one for every command -/

theorem test_word_nop : decode 0b00000000000000000000000000000000 = .ok .nop := by rfl
theorem test_word_deInit : decode 0b00000000000000000000000000010000 = .ok .deInit := by rfl
theorem test_word_deUpdate : decode 0b00000000000000000100000000010001 = .ok (.deUpdate 0 1) := by rfl
theorem test_word_deFinal : decode 0b00000000000000000000000000010010 = .ok .deFinal := by rfl
theorem test_word_deHash : decode 0b00000000000000000100000000010011 = .ok (.deHash 0 1) := by rfl
theorem test_word_deHex : decode 0b00000000000000000001101000010100 = .ok (.deHex 2 3) := by rfl
theorem test_word_arPowmod : decode 0b00000000000001000100001100100000 = .ok (.arPowmod 3 0 1 2) := by rfl
theorem test_word_arPowmod_all : decode 0b00000000000011111111111100100000 = .ok (.arPowmod 7 7 7 7) := by rfl
theorem test_word_arGcd : decode 0b00000000000000000100001000100001 = .ok (.arGcd 2 0 1) := by rfl
theorem test_word_arEgcd : decode 0b00000001000100010001100000100010 = .ok (.arEgcd 0 1 2 3 4) := by rfl
theorem test_word_arEgcd_down : decode 0b00000010111000001110011100100010 = .ok (.arEgcd 7 6 5 4 3) := by rfl
theorem test_word_arInv : decode 0b00000000000000000100001000100011 = .ok (.arInv 2 0 1) := by rfl
theorem test_word_arJacobi : decode 0b00000000000000000100001000100100 = .ok (.arJacobi 2 0 1) := by rfl
theorem test_word_arPrime : decode 0b00000000000000000000000100100101 = .ok (.arPrime 1 0) := by rfl
theorem test_word_kcKeygen : decode 0b00000000000000000000000000110000 = .ok .kcKeygen := by rfl
theorem test_word_kcBpb : decode 0b00000000000000000000000100110001 = .ok (.kcBpb 1 0) := by rfl
theorem test_word_kcEncode : decode 0b00000000000001000100001100110010 = .ok (.kcEncode 3 0 1 2) := by rfl
theorem test_word_kcDecode : decode 0b00000000000011010110011100110011 = .ok (.kcDecode 7 4 5 6) := by rfl
theorem test_encode : encode (.arEgcd 7 6 5 4 3) = 0x02E0E722 ∧ encode (.kcDecode 7 4 5 6) = 0x000D6733 ∧
    encode (.deHex 2 3) = 0x00001A14 := by decide
/-- Section 2.2. -/
theorem test_illegal_words : decode 0x00000001 = .error .unassignedOpcode ∧ decode 0x000000FF = .error .unassignedOpcode ∧
    decode 0x00000100 = .error .unusedFieldNonzero ∧ decode 0x80000020 = .error .reservedNonzero ∧
    decode 0x00000711 = .error .unusedFieldNonzero ∧ decode 0x00020014 = .error .unusedFieldNonzero ∧
    decode 0x00100030 = .error .unusedFieldNonzero := ⟨rfl, rfl, rfl, rfl, rfl, rfl, rfl⟩
theorem test_table_word : decodeTableWord 32 0x00044320 = some (.arPowmod 3 0 1 2) ∧
    decodeTableWord 32 0x15 = none := ⟨rfl, rfl⟩

/-! ### The step -/

/-- The very next step after withFetchWord runs the word, here with another move listed behind it. -/
theorem test_fetch_runs : step ((moving State.reset [.hostRead 0]).withFetchWord 32 0) =
    .next { moving State.reset [.hostRead 0] with cmdCnt := 1 } := by rfl
/-- Section 2.10: STATUS reads 1 between the CMD write and the engine's turn. -/
theorem test_busy_between : ((State.reset.portWrite 0x008 0).portRead 0x004).1 = 1 := by decide
theorem test_illegal_completes : (step (State.reset.withFetchWord 32 0x15)) =
    .next { State.reset with
      lastCmd := 0x15, pending := 0x15, lastErr := 0x01, cmdCnt := 1
      status := { State.reset.status with err := true } } := by rfl

/-! ### The host port (section 2.10) -/

theorem test_port_id : State.reset.portRead 0x000 = (0x544F5901, State.reset) := by decide
theorem test_port_misaligned : State.reset.portRead 0x002 = (0, State.reset.refused) := by decide
theorem test_port_cfgK : ((State.reset.portWrite 0x010 0x12345605).portRead 0x010).1 = 5 := by decide
theorem test_port_sepLen : ((State.reset.portWrite 0x024 7).portRead 0x024).1 = 4 ∧
    ((State.reset.portWrite 0x024 9).portRead 0x024).1 = 1 := by decide
theorem test_port_window : (State.reset.portWrite 0x1000 0x64636261).bmem = [(0, 0x61), (1, 0x62), (2, 0x63), (3, 0x64)] ∧
    ((State.reset.portWrite 0x1000 0x64636261).portRead 0x1000).1 = 0x64636261 := by decide
theorem test_port_beyond : State.reset.portRead 0x2000 = (0, State.reset.refused) := by decide
theorem test_port_busy_cmd : (State.reset.portWrite 0x008 0).portWrite 0x008 0x10 = (State.reset.portWrite 0x008 0).refused :=
  by decide
/-- 10_state.md rule R22: a write of X5_HI. -/
theorem test_port_high : ((regsOf [(5, 0x1111111122222222)]).portWrite 0x0AC 0xABCDEF01).readX 5 = 0xABCDEF0122222222 := by
  decide

/-- 10_state.md rules R26 and R50: KE_HI and KD_LO. -/
theorem test_port_keys : (State.reset.portWrite 0x0CC 7).keys = ⟨0, 0x0000000700000000, 0, 0, 0, 0⟩ ∧
    (State.reset.portWrite 0x0D0 7).keys = ⟨0, 0, 7, 0, 0, 0⟩ := by decide

/-! ### The commands, one step each -/

/-- 60_exceptions.md rule R254's example, with ERR kept. -/
theorem test_nop : exec .nop { State.reset with cmdCnt := 5, lastErr := 0x20, status := { State.reset.status with err := true } }
    = .next { State.reset with cmdCnt := 6, lastErr := 0x00, status := { State.reset.status with err := true } } := by rfl
theorem test_deInit : (opened []).de.h = ⟨0x67452301, 0xEFCDAB89, 0x98BADCFE, 0x10325476⟩ ∧
    (opened []).status.dsess = true := by decide
/-- Section 2.4: a range of length 0 at BMEM_SIZE. -/
theorem test_deUpdate_empty : (after (.deUpdate 0 1) (opened [(0, 4096), (1, 0)])).lastErr = 0x00 ∧
    (after (.deUpdate 0 1) (opened [(0, 4097), (1, 0)])).lastErr = 0x10 := by decide
/-- Section 2.4: the 64 bytes 00 to 3F. -/
theorem test_deUpdate_block : compress digestIV (Vector.ofFn fun i : Fin 64 => BitVec.ofNat 8 i.val) =
    ⟨0x9144D9CA, 0xD901E4C9, 0x72FC5B38, 0x625FF51E⟩ := by decide +kernel
theorem test_deFinal_closed : after .deFinal State.reset =
    { State.reset with lastErr := 0x11, cmdCnt := 1, status := { State.reset.status with err := true } } := by rfl
/-- Section 1.1. -/
theorem test_deHash_abc : (after (.deHash 0 1) (bytesOf 0 [0x61, 0x62, 0x63] [(1, 3)])).dg =
    ⟨0x98500190, 0xB04FD23C, 0x7D3F96D6, 0x727FE128⟩ := by decide +kernel
/-- Section 2.4: IO_RANGE leaves a discarded session and the old DG. -/
theorem test_deHash_range : (after (.deHash 0 1) (digested [(1, 5000)])).dg = (digested []).dg ∧
    (after (.deHash 0 1) (digested [(1, 5000)])).status.dvalid = false := by decide
/-- Section 2.3: the last bytes and the length with the reset separator. -/
theorem test_deHex : (after (.deHex 2 3) (digested [(3, 256)])).readX 2 = 47 ∧
    (after (.deHex 2 3) (digested [(3, 256)])).memRead 0x12A 5 = [0x37, 0x46, 0x3A, 0x37, 0x32] ∧
    (after (.deHex 2 3) (digested [(3, 256)])).bmem.lookup 0x12F = none := by decide +kernel
theorem test_arPowmod : (after (.arPowmod 3 0 1 2) (regsOf [(0, 4), (1, 13), (2, 497)])).readX 3 = 445 := by decide +kernel
/-- Section 2.5: the row in which WRAP64 and EXACT differ. -/
theorem test_arPowmod_modes : powmod .wrap64 0x8000000000000018 2 0x8000000000000019 = 576 ∧
    powmod .exact 0x8000000000000018 2 0x8000000000000019 = 1 := by decide +kernel
theorem test_arGcd : (after (.arGcd 2 0 1) (regsOf [(0, 48), (1, 18)])).readX 2 = 6 := by decide +kernel
theorem test_arEgcd : (after (.arEgcd 0 1 2 3 4) (regsOf [(3, 17), (4, 3120)])).x.toList.take 3 =
    [1, 0xFFFFFFFFFFFFFE91, 2] := by decide +kernel
/-- 10_state.md rule R23: of two results in one register the later one stays. -/
theorem test_arEgcd_order : (after (.arEgcd 5 5 5 3 4) (regsOf [(3, 240), (4, 46)])).readX 5 = 47 := by decide +kernel
theorem test_arInv : (after (.arInv 2 0 1) (regsOf [(0, 17), (1, 3120)])).readX 2 = 2753 := by decide +kernel
theorem test_arInv_none : (after (.arInv 2 0 1) (regsOf [(0, 6), (1, 9)])).lastErr = 0x22 := by decide +kernel
theorem test_arJacobi : (after (.arJacobi 2 0 1) (regsOf [(0, 1001), (1, 9907)])).readX 2 = 0xFFFFFFFFFFFFFFFF := by
  decide +kernel
theorem test_arJacobi_even : (after (.arJacobi 2 0 1) (regsOf [(0, 3), (1, 8)])).lastErr = 0x21 := by decide
/-- Section 2.6: 61 with the witnesses 2 and 7, and a draw left over. -/
theorem test_arPrime : (after (.arPrime 1 0) (drawing (regsOf [(0, 61)]) 2 [0, 5, 9])).readX 1 = 1 ∧
    (after (.arPrime 1 0) (drawing (regsOf [(0, 61)]) 2 [0, 5, 9])).source = ⟨2, [9], 0⟩ := by decide +kernel
theorem test_arPrime_rejects : (after (.arPrime 1 0) (drawing (regsOf [(0, 561), (1, 7)]) 1 [3])).readX 1 = 0 := by
  decide +kernel
theorem test_kcKeygen : (after .kcKeygen keyDraws).keys = ⟨3233, 17, 2753, 61, 53, 3120⟩ ∧
    (after .kcKeygen keyDraws).source.draws = 7 := by decide +kernel
/-- Section 2.8: an even candidate under CAP = 1, K = 1; the draw stays taken and the keys are kept. -/
def oddTries : State :=
  { keyed (drawing State.reset 1 [1]) 11 22 33 with cfg := { State.reset.cfg with k := 1, cap := 1 } }
theorem test_kcKeygen_exhausted : (after .kcKeygen oddTries).lastErr = 0x30 ∧ (after .kcKeygen oddTries).source.draws = 1 ∧
    (after .kcKeygen oddTries).keys = ⟨11, 22, 33, 0, 0, 0⟩ := by decide +kernel
theorem test_kcBpb : [0, 16383, 16384, 2097151, 2097152].map bpb = [1, 1, 2, 2, 3] := by decide +kernel
/-- Section 1.7: "Hi!" under (60491, 7). -/
theorem test_kcEncode : ((after (.kcEncode 3 0 1 2) (keyed (bytesOf 0 [0x48, 0x69, 0x21] [(1, 3), (2, 256)]) 60491 7 0)).cipherWords
    256 2) = [33033, 53346] := by decide +kernel
/-- Section 1.6: the empty plaintext. -/
theorem test_kcEncode_empty : encodeText .wrap64 [] 3233 17 = [0] := by decide +kernel
/-- Section 1.7: 0xC8 0x01 comes back as 0x48 0x02, and a trailing 0x00 is stripped. -/
theorem test_kcDecode : decodeText .wrap64 [41309] 60491 17143 = [0x48, 0x02] ∧
    decodeText .wrap64 [2790, 0] 3233 2753 = [0x41] := by decide +kernel
theorem test_pad_abc : blockWord (padFirst ((Vector.replicate 64 0x00).set 0 0x61 |>.set 1 0x62 |>.set 2 0x63) 3 3) 0 =
    0x80636261 ∧ blockWord (padFirst (Vector.replicate 64 0x00) 3 3) 14 = 0x18 := by decide +kernel

/-! ### Witnesses: for every statement with hypotheses, a state and operands that meet them all -/

/-- Reset with a command word accepted and these moves next. -/
def busyWith (w : Word32) (ms : List Move) : State := moving (State.reset.accept w) ms

/-- A state with everything a kc command of section 2.9 needs: "Hi" at 0, the key (3233, 17, 2753), x0 = 0, x1 = 2, x2 = 256. -/
def hiText : State := keyed (bytesOf 0 [0x48, 0x69] [(1, 2), (2, 256)]) 3233 17 2753

/-- What kc.encode leaves of it, with x4 = 256, x5 = 2, x6 = 512 for the decode. -/
def hiCipher : State := regs (after (.kcEncode 3 0 1 2) hiText) [(4, 256), (5, 2), (6, 512)]

theorem witness_EncodeDecode : decode 0x00004011 = .ok (.deUpdate 0 1) := by rfl
theorem witness_DecodeByTheOneMatchingRow : (∃ r ∈ opcodeRows, r.hits 0x00004011 = true) ∧
    ∀ r ∈ opcodeRows, r.hits 0x00000015 = false := by decide
theorem witness_StepRunsTheDecodedCommand :
    ((busyWith 0x4011 []).status.busy = true ∧ decode (busyWith 0x4011 []).pending = .ok (.deUpdate 0 1) ∧
      (busyWith 0x4011 []).moves = []) ∧
    ((busyWith 0x4011 [.engine]).status.busy = true ∧ decode (busyWith 0x4011 [.engine]).pending = .ok (.deUpdate 0 1) ∧
      (busyWith 0x4011 [.engine]).moves = .engine :: []) ∧
    ((moving State.reset []).status.busy = false ∧ (moving State.reset []).moves = []) ∧
    ((moving State.reset [.engine]).status.busy = false ∧ (moving State.reset [.engine]).moves = .engine :: []) ∧
    (moving State.reset [.hostRead 0x1FFC]).moves = .hostRead 0x1FFC :: [] ∧
    (moving State.reset [.hostWrite 0x008 0, .engine]).moves = .hostWrite 0x008 0 :: [.engine] ∧
    (moving State.reset [.reset 3]).moves = .reset 3 :: [] := by
  refine ⟨⟨rfl, rfl, rfl⟩, ⟨rfl, rfl, rfl⟩, ⟨rfl, rfl⟩, ⟨rfl, rfl⟩, rfl, rfl, rfl⟩
theorem witness_IllegalWordOnlyCompletes : (busyWith 0x15 []).status.busy = true ∧
    (∀ r ∈ opcodeRows, r.hits (busyWith 0x15 []).pending = false) ∧
    (busyWith 0x15 []).pending = (busyWith 0x15 []).lastCmd := by decide
/-- The host write to CMD sets BUSY; the engine's turn, listed or not, and reset clear it. -/
theorem witness_BusyOnlyByAcceptanceAndCompletion :
    (∃ t, step (moving State.reset [.hostWrite 0x008 0]) = .next t ∧ t.status.busy = true) ∧
    (∃ t, step (busyWith 0 []) = .next t ∧ (busyWith 0 []).status.busy = true ∧ t.status.busy = false) ∧
    (∃ t, step (busyWith 0 [.engine]) = .next t ∧ t.status.busy = false) ∧
    (∃ t, step (busyWith 0 [.reset 0]) = .next t ∧ t.status.busy = false) :=
  ⟨⟨_, rfl, rfl⟩, ⟨_, rfl, rfl, rfl⟩, ⟨_, rfl, rfl⟩, ⟨_, rfl, rfl⟩⟩
/-- de.final fails after reset, nop does not; ERR = 1 goes by a STATUS write and by reset; a refused read and a refused write
set ACCERR, and it goes likewise. -/
theorem witness_StickyBitsStayUntilCleared :
    (∃ t, engineTurn (busyWith 0x12 []) = .next t ∧ (busyWith 0x12 []).status.busy = true ∧ t.lastErr ≠ 0x00) ∧
    (∃ t, engineTurn (busyWith 0 []) = .next t ∧ t.lastErr = 0x00) ∧
    (∃ t, step (moving (after .deFinal State.reset) [.hostWrite 0x004 2]) = .next t ∧
      (after .deFinal State.reset).status.err = true ∧ t.status.err = false) ∧
    (∃ t, step (moving (after .deFinal State.reset) [.reset 0]) = .next t ∧ t.status.err = false) ∧
    (∃ t, step (moving State.reset.refused [.hostWrite 0x004 4]) = .next t ∧ State.reset.refused.status.accErr = true ∧
      t.status.accErr = false) ∧
    (∃ t, step (moving State.reset.refused [.reset 0]) = .next t ∧ t.status.accErr = false) ∧
    (∃ t, step (moving State.reset [.hostRead 0x002]) = .next t ∧ State.reset.status.accErr = false ∧ t.status.accErr = true) ∧
    ∃ t, step (moving State.reset [.hostWrite 0x000 1]) = .next t ∧ t.status.accErr = true :=
  ⟨⟨_, rfl, rfl, by decide⟩, ⟨_, rfl, rfl⟩, ⟨_, rfl, rfl, rfl⟩, ⟨_, rfl, rfl⟩, ⟨_, rfl, rfl, rfl⟩, ⟨_, rfl, rfl⟩,
    ⟨_, rfl, rfl, rfl⟩, ⟨_, rfl, rfl⟩⟩
/-- A failing command of each kind: it neither draws nor writes the session; it draws; it aborts the session. -/
theorem witness_FailingCommandWritesNoResult :
    (∃ t, exec (.arInv 2 0 1) State.reset = .next t ∧ t.lastErr ≠ 0x00 ∧ drawingCommand (.arInv 2 0 1) = false ∧
      ∀ a b, Instr.arInv 2 0 1 ≠ .deUpdate a b ∧ Instr.arInv 2 0 1 ≠ .deHash a b) ∧
    (∃ t, exec .kcKeygen oddTries = .next t ∧ t.lastErr ≠ 0x00) ∧
    (∃ t, exec (.deUpdate 0 1) (opened [(1, 4097)]) = .next t ∧ t.lastErr ≠ 0x00) := by
  refine ⟨⟨_, rfl, by decide, rfl, by simp⟩, ⟨after .kcKeygen oddTries, exec_after _ _, ?_⟩, ⟨_, rfl, by decide⟩⟩
  decide +kernel
theorem keygen_step : step (keyDraws.withFetchWord 32 0x30) = .next (after .kcKeygen (keyDraws.accept 0x30)) :=
  (show step (keyDraws.withFetchWord 32 0x30) = exec .kcKeygen (keyDraws.accept 0x30) from rfl).trans (exec_after _ _)
theorem witness_OnlyKeygenWritesThePrimes :
    ∃ t, step (keyDraws.withFetchWord 32 0x30) = .next t ∧ (∀ lost rest, (keyDraws.withFetchWord 32 0x30).moves ≠ .reset lost :: rest) ∧
      (t.keys.kp, t.keys.kq, t.keys.kphi, t.status.keygen) ≠ (keyDraws.keys.kp, keyDraws.keys.kq, keyDraws.keys.kphi, false) :=
  ⟨after .kcKeygen (keyDraws.accept 0x30), keygen_step, fun _ _ => by simp [State.withFetchWord, State.loadWord,
    keyDraws, drawing, State.reset, engineFirst], by decide +kernel⟩
theorem witness_ResetValues : (busyWith 0x30 [.reset 3]).moves = .reset 3 :: [] := rfl
/-- A state with a byte in BMEM, and a step that writes four more. -/
theorem witness_StepKeepsMemoryForm : (moving (bytesOf 4095 [0x61] []) [.hostWrite 0x1000 1]).memoryForm ∧
    ∃ t, step (moving (bytesOf 4095 [0x61] []) [.hostWrite 0x1000 1]) = .next t := by
  refine ⟨⟨by decide, ?_, by decide⟩, _, rfl⟩
  simp [moving, bytesOf, regsOf, regs, State.memWrite, State.writeByte, State.reset, Memory.insert]
/-- An open session that is finalised, and one that is aborted. -/
theorem witness_StepKeepsDigestForm : ((opened []).withFetchWord 32 0x12).digestForm ∧
    (∃ t, step ((opened []).withFetchWord 32 0x12) = .next t) ∧
    ((opened [(1, 4097)]).withFetchWord 32 0x4011).digestForm ∧
    ∃ t, step ((opened [(1, 4097)]).withFetchWord 32 0x4011) = .next t :=
  ⟨by decide, ⟨_, rfl⟩, by decide, ⟨_, rfl⟩⟩
theorem witness_StepKeepsRegisterForm : (moving State.reset [.hostWrite 0x024 7]).registerForm ∧
    ∃ t, step (moving State.reset [.hostWrite 0x024 7]) = .next t := ⟨by decide, _, rfl⟩
/-- Before a key, at its generation, and with one. -/
theorem witness_StepKeepsKeyForm : (keyDraws.withFetchWord 32 0x30).keyForm ∧
    step (keyDraws.withFetchWord 32 0x30) = .next (after .kcKeygen (keyDraws.accept 0x30)) ∧
    (after .kcKeygen (keyDraws.accept 0x30)).keyForm ∧ (after .kcKeygen (keyDraws.accept 0x30)).status.keygen = true ∧
    ∃ t, step (after .kcKeygen (keyDraws.accept 0x30)) = .next t :=
  ⟨by decide, keygen_step, by decide +kernel, by decide +kernel, _, rfl⟩
theorem witness_CmdWriteAccepts : State.reset.status.busy = false ∧ (busyWith 0 []).status.busy = true ∧
    decode (busyWith 0 []).pending = .ok .nop := ⟨rfl, rfl, rfl⟩
theorem witness_NopOnlyCompletes : (0x00000100 : Word32).extractLsb' 0 8 = 0x00 ∧ (0x00000100 : Word32) ≠ 0x00000000 := by decide
theorem witness_BusyPortRefuses : (busyWith 0 []).status.busy = true ∧ (0x002 : Offset) ≠ 0x000 ∧ (0x002 : Offset) ≠ 0x004 ∧
    (0x008 : Offset) ≠ 0x000 ∧ (0x008 : Offset) ≠ 0x004 := by decide
/-- A misaligned offset, the first and the last of each reserved gap, the first word behind the window; and mapped ones. -/
theorem witness_UnmappedAccessRefused : State.reset.params.wf ∧ (0x1FFE : Offset).toNat % 4 ≠ 0 ∧
    (∀ off ∈ [0x030, 0x03C, 0x05C, 0x070, 0x07C, 0x0F0, 0x0FC, 0x140, 0xFFC, 0x2000, 0xFFFC],
      reservedOffset State.reset.params.bmemSize off) ∧
    ∀ off ∈ [0x000, 0x02C, 0x040, 0x058, 0x060, 0x06C, 0x080, 0x0EC, 0x100, 0x13C, 0x1000, 0x1FFC],
      off % 4 = 0 ∧ ¬reservedOffset State.reset.params.bmemSize off ∧ State.reset.status.busy = false := by decide
theorem witness_ReadOnlyWritesRefused : 0x000 ∈ readOnlyOffsets ∧ 0x06C ∈ readOnlyOffsets ∧ 0x13C ∈ readOnlyOffsets := by
  decide
theorem witness_ConfigurationReadsBack : State.reset.status.busy = false := rfl
/-- The first and the last register of the map, and the ends of its runs. -/
theorem witness_ReadsHaveNoSideEffect : State.reset.status.busy = false ∧
    ∀ off ∈ [0x000, 0x02C, 0x040, 0x058, 0x06C, 0x080, 0x0BC, 0x0C0, 0x0EC, 0x100, 0x13C],
      off ∈ (registerValues State.reset).map Prod.fst := by decide +kernel
theorem witness_RegisterHalvesAreIndependent : (regsOf [(7, 5)]).status.busy = false := rfl
/-- The first and the last word of the window. -/
theorem witness_WindowIsLittleEndian : State.reset.status.busy = false ∧ State.reset.params.wf ∧ Memory.wf State.reset.bmem ∧
    ∀ a ∈ [0, 4092], a % 4 = 0 ∧ a + 4 ≤ State.reset.params.bmemSize := by
  refine ⟨rfl, by decide, List.Pairwise.nil, by decide⟩
/-- A range that ends at BMEM_SIZE, an empty one there, and one of three bytes. -/
theorem witness_DeUpdateAbsorbs : (opened []).status.dsess = true ∧ (opened [(0, 4096), (1, 0)]).xNat 1 = 0 ∧ ∀ p ∈ [(4090, 6), (4096, 0), (0, 3)],
    (opened [(0, p.1), (1, p.2)]).xNat 0 + (opened [(0, p.1), (1, p.2)]).xNat 1 ≤ State.reset.params.bmemSize := by decide
theorem witness_StateChecksChangeNothing : State.reset.status.dsess = false ∧ State.reset.status.dvalid = false := ⟨rfl, rfl⟩
/-- The ranges of section 2.4, one byte too long. -/
theorem witness_DigestRangeErrors :
    (State.reset.params.bmemSize < (opened [(0, 4090), (1, 7)]).xNat 0 + (opened [(0, 4090), (1, 7)]).xNat 1 ∧
      (opened [(0, 4090), (1, 7)]).status.dsess = true) ∧
    State.reset.params.bmemSize < (regsOf [(0, 4097), (1, 0)]).xNat 0 + (regsOf [(0, 4097), (1, 0)]).xNat 1 ∧
    (digested [(3, 4050)]).status.dvalid = true ∧
    (digested [(3, 4050)]).params.bmemSize < (digested [(3, 4050)]).xNat 3 + (32 + 15 * (digested [(3, 4050)]).cfg.sepLen.toNat) := by
  decide
theorem witness_DeFinalPublishes : (opened []).status.dsess = true := rfl
theorem witness_DeHashIsDigestOfMessage : ∀ p ∈ [(4093, 3), (4096, 0)],
    (regsOf [(0, p.1), (1, p.2)]).xNat 0 + (regsOf [(0, p.1), (1, p.2)]).xNat 1 ≤ State.reset.params.bmemSize := by decide
/-- An open session that absorbed one byte, its de.final, and the same byte for de.hash. -/
theorem witness_SessionEqualsOneShot : let s0 := bytesOf 0 [0x61] [(1, 1)]
    Absorbed [0x61] (after (.deUpdate 0 1) (after .deInit s0)) ∧
    (∃ t, exec .deFinal (after (.deUpdate 0 1) (after .deInit s0)) = .next t ∧ t.lastErr = 0x00) ∧
    s0.memRead (s0.xNat 0) (s0.xNat 1) = [0x61] ∧ ∃ v, exec (.deHash 0 1) s0 = .next v :=
  ⟨.updated 0 1 (.opened (s := bytesOf 0 [0x61] [(1, 1)]) rfl) rfl rfl, ⟨_, rfl, rfl⟩, rfl, ⟨_, rfl⟩⟩
/-- The last place where 47 bytes, and where 32 bytes without separator, lie in BMEM. -/
theorem witness_DeHexRenders : (digested []).status.dvalid = true ∧ (digested []).cfg.sepLen.toNat ≤ 4 ∧
    Memory.wf (digested []).bmem ∧
    (digested [(3, 4049)]).xNat 3 + (32 + 15 * (digested []).cfg.sepLen.toNat) ≤ (digested []).params.bmemSize :=
  ⟨rfl, by decide, List.Pairwise.nil, by decide⟩
theorem witness_DigestCommandFrame : sessionCommand (.deUpdate 0 1) = true ∧
    ∃ t, exec (.deUpdate 0 1) (opened [(1, 0)]) = .next t := ⟨rfl, _, rfl⟩
theorem witness_PowmodIsBinaryAndExact : 1 ≤ 2 ^ 32 ∧ exactFor .wrap64 (2 ^ 32) ∧ exactFor .exact (2 ^ 63 + 25) := by decide
theorem witness_ArPowmodResult : (regsOf [(0, 4), (1, 13), (2, 497)]).xNat 2 ≠ 0 ∧
    exactFor State.reset.params.mulmodMode ((regsOf [(0, 4), (1, 13), (2, 497)]).xNat 2) := by decide
theorem witness_ZeroModulusFails : State.reset.xNat 2 = 0 ∧ State.reset.xNat 1 = 0 ∧ State.reset.keys.kn = 0 := by decide
/-- Both operands zero, one of them, equal ones, and others. -/
theorem witness_ArEgcdResult : (State.reset.xNat 3 = 0 ∧ State.reset.xNat 4 = 0) ∧
    ((regsOf [(4, 7)]).xNat 3 = 0 ∧ (regsOf [(4, 7)]).xNat 4 ≠ 0) ∧ (regsOf [(3, 7)]).xNat 4 = 0 ∧
    ((regsOf [(3, 12), (4, 12)]).xNat 3 = (regsOf [(3, 12), (4, 12)]).xNat 4 ∧ (regsOf [(3, 12), (4, 12)]).xNat 4 ≠ 0) ∧
    Nat.gcd ((regsOf [(3, 240), (4, 46)]).xNat 3) ((regsOf [(3, 240), (4, 46)]).xNat 4) ≠ 0 := by decide +kernel
/-- m = 1 and a larger m. -/
theorem witness_ArInvResult : ∀ p ∈ [(17, 3120), (0, 1)], (regsOf [(0, p.1), (1, p.2)]).xNat 1 ≠ 0 ∧
    Nat.gcd ((regsOf [(0, p.1), (1, p.2)]).xNat 0) ((regsOf [(0, p.1), (1, p.2)]).xNat 1) = 1 := by decide +kernel
/-- 6 and 9; the exponents 17 and phi - 1 for phi = 3120; and the 7-draw key's own searches. -/
theorem witness_NoInverseFails : (1 ≤ (regsOf [(0, 6), (1, 9)]).xNat 1 ∧
      Nat.gcd ((regsOf [(0, 6), (1, 9)]).xNat 0) ((regsOf [(0, 6), (1, 9)]).xNat 1) ≠ 1) ∧
    (∃ t, exec .kcKeygen State.reset = .next t) ∧ (∀ e ∈ [17, 3119], 2 ≤ e ∧ e < 3120 ∧ Nat.gcd e 3120 = 1) ∧
    keyDraws.search.illegal = false ∧
    ∃ r, keyDraws.search.findPair keyDraws.search.cap keyDraws.source = (some (61, 53), r) ∧
      findExponent (totient 61 53) keyDraws.search.cap (r.drawIn 2 (totient 61 53 - 1)).1 = some 17 :=
  ⟨by decide +kernel, ⟨_, exec_after _ _⟩, by decide +kernel, by decide +kernel, keyDraws.source.after 6,
    by decide +kernel, by decide +kernel⟩
theorem witness_ArJacobiResult : (regsOf [(1, 1)]).xNat 1 % 2 = 1 ∧ (regsOf [(1, 9907)]).xNat 1 % 2 = 1 := by decide
theorem witness_EvenJacobiModulusFails : State.reset.xNat 1 % 2 = 0 ∧ (∃ t, exec (.arPrime 1 0) State.reset = .next t) ∧
    ∃ t, exec .kcKeygen State.reset = .next t :=
  ⟨by decide, (exec_completes (.arPrime 1 0) State.reset).elim fun _ h => h.elim fun _ h => ⟨_, h⟩,
    (exec_completes .kcKeygen State.reset).elim fun _ h => h.elim fun _ h => ⟨_, h⟩⟩
/-- K = 20; candidates 4 and 5 at the boundary of the two clauses, and an even one. -/
theorem witness_ArPrimeResult : State.reset.cfg.k.toNat ≠ 0 ∧ (regsOf [(0, 4)]).xNat 0 < 5 ∧ (regsOf [(0, 100)]).xNat 0 % 2 = 0 ∧
    5 ≤ (regsOf [(0, 5)]).xNat 0 ∧ (regsOf [(0, 5)]).xNat 0 % 2 = 1 := by decide
theorem witness_ArPrimeAcceptsPrimes : State.reset.cfg.k ≠ 0 ∧ ∀ c ∈ [2, 3, 61], Nat.Prime ((regsOf [(0, c)]).xNat 0) ∧
    exactFor State.reset.params.mulmodMode ((regsOf [(0, c)]).xNat 0) := by
  refine ⟨by decide, fun c hc => ?_⟩
  have hx : (regsOf [(0, c)]).xNat 0 = c ∧ Nat.Prime c := by
    simp only [List.mem_cons, List.not_mem_nil, or_false] at hc
    obtain rfl | rfl | rfl := hc <;> exact ⟨by decide, by norm_num⟩
  rw [hx.1]
  simp only [List.mem_cons, List.not_mem_nil, or_false] at hc
  exact ⟨hx.2, .inr (by omega)⟩
theorem witness_IllegalConfigurationFails : (drawing State.reset 0 []).cfg.k = 0 ∧
    (State.reset.portWrite 0x018 1).cfg.pmin.toNat < 2 ∧
    (State.reset.portWrite 0x01C 2).cfg.pmax.toNat < (State.reset.portWrite 0x01C 2).cfg.pmin.toNat := by decide
theorem witness_RegisterCommandFrame : sessionCommand (.arGcd 2 0 1) = false ∧ Instr.arGcd 2 0 1 ≠ .kcKeygen ∧
    (∀ a b c d, Instr.arGcd 2 0 1 ≠ .deHex a b ∧ Instr.arGcd 2 0 1 ≠ .kcEncode a b c d ∧ Instr.arGcd 2 0 1 ≠ .kcDecode a b c d) ∧
    drawingCommand (.arGcd 2 0 1) = false ∧ ∃ t, exec (.arGcd 2 0 1) State.reset = .next t :=
  ⟨rfl, by decide, by simp, rfl, _, rfl⟩
/-- A configuration and draws for a key search. -/
def searching (k cap pmin pmax : Nat) (ds : List Nat) : State :=
  { State.reset with
    cfg := { State.reset.cfg with
      k := BitVec.ofNat 8 k, cap := BitVec.ofNat 32 cap, pmin := BitVec.ofNat 32 pmin, pmax := BitVec.ofNat 32 pmax }
    source := { State.reset.source with queue := ds.map (BitVec.ofNat 64) } }

/-- The draws of the 7-draw key. -/
theorem euler_61 : eulerPass .wrap64 61 0 = true ∧ eulerPass .wrap64 61 5 = true :=
  ⟨eulerPass_of _ _ _ 2 (-1) rfl (by norm_num) (by decide) (by decide +kernel),
    eulerPass_of _ _ _ 7 (-1) rfl (by norm_num) (by decide) (by decide +kernel)⟩
theorem euler_53 : eulerPass .wrap64 53 0 = true ∧ eulerPass .wrap64 53 1 = true :=
  ⟨eulerPass_of _ _ _ 2 (-1) rfl (by norm_num) (by decide) (by decide +kernel),
    eulerPass_of _ _ _ 3 (-1) rfl (by norm_num) (by decide) (by decide +kernel)⟩
theorem euler_67 : eulerPass .wrap64 67 0 = true :=
  eulerPass_of _ _ _ 2 (-1) rfl (by norm_num) (by decide) (by decide +kernel)

/-- The sources of the 7-draw key's two searches. -/
def keySource1 : Source := keyDraws.search.passed keyDraws.source
theorem key_verdict_p : keyDraws.search.verdict keyDraws.source = (true, 2) :=
  primeVerdict_passes .wrap64 61 2 _ (by decide) (by decide) fun i hi => by
    obtain rfl | rfl : i = 0 ∨ i = 1 := by omega
    · exact euler_61.1
    · exact euler_61.2
theorem keySource1_eq : keySource1 = keyDraws.source.after 3 := by
  unfold keySource1 Search.passed
  rw [key_verdict_p]
  rfl
theorem key_verdict_q : keyDraws.search.verdict keySource1 = (true, 2) := by
  rw [keySource1_eq]
  exact primeVerdict_passes .wrap64 53 2 _ (by decide) (by decide) fun i hi => by
    obtain rfl | rfl : i = 0 ∨ i = 1 := by omega
    · exact euler_53.1
    · exact euler_53.2

/-- The 7-draw key of section 2.8 is given. -/
theorem witness_KeygenEnds_key : (keyDraws.cfg.k ≠ 0 ∧ 2 ≤ keyDraws.cfg.pmin.toNat ∧
      keyDraws.cfg.pmin.toNat ≤ keyDraws.cfg.pmax.toNat) ∧ (∃ t, exec .kcKeygen keyDraws = .next t) ∧
    ∃ r, keyDraws.search.GivesKey keyDraws.source 61 53 17 r := by
  have hp := keyDraws.search.findsPrime_first keyDraws.source (by decide) (congrArg Prod.fst key_verdict_p)
  have hq := keyDraws.search.findsPrime_first keySource1 (by decide) (congrArg Prod.fst key_verdict_q)
  have h2 : keyDraws.search.passed keySource1 = keyDraws.source.after 6 := by
    unfold Search.passed
    rw [key_verdict_q, keySource1_eq]
    decide +kernel
  rw [show keyDraws.search.candidate keyDraws.source = 61 from by decide] at hp
  rw [show keyDraws.search.candidate keySource1 = 53 from by rw [keySource1_eq]; decide, h2] at hq
  exact ⟨by decide, ⟨_, exec_after _ _⟩, _, _, ⟨0, by decide, _, rfl, ⟨_, hp, hq⟩, by decide, by decide⟩, rfl, 0,
    Nat.zero_le _, by decide +kernel, by decide +kernel, fun j hj => absurd hj (Nat.not_lt_zero j)⟩

/-- The counter of the tries: CAP = 1, PMIN = PMAX = 4. The counter of the pairs: CAP = 1, the pair 2, 3 (section 2.8). -/
theorem witness_KeygenEnds_tries : (∃ r, (searching 1 1 4 4 []).search.FindsNoPrime (searching 1 1 4 4 []).source r) ∧
    ∃ r, (searching 1 1 4 4 []).search.Exhausts (searching 1 1 4 4 []).source r := by
  have hv : ∀ r, (searching 1 1 4 4 []).search.verdict r = (false, 0) := fun r => by
    have hc : (searching 1 1 4 4 []).search.candidate r = 4 := by
      unfold Search.candidate
      rw [show (searching 1 1 4 4 []).search.pmax - (searching 1 1 4 4 []).search.pmin + 1 = 1 from rfl, Nat.mod_one]
      rfl
    unfold Search.verdict
    rw [hc]
    exact primeVerdict_small _ _ _ _ (.inl (by decide))
  have hn : ∃ r, (searching 1 1 4 4 []).search.FindsNoPrime (searching 1 1 4 4 []).source r :=
    ⟨_, fun j _ => congrArg Prod.fst (hv _), rfl⟩
  obtain ⟨r, hr⟩ := hn
  exact ⟨⟨r, hr⟩, r, .inr (.inl ⟨0, by decide, _, rfl, .inl hr⟩)⟩
theorem witness_KeygenEnds_pairs : ∃ r, (searching 1 1 2 3 [0, 1]).search.Exhausts (searching 1 1 2 3 [0, 1]).source r := by
  have h := (searching 1 1 2 3 [0, 1]).search.findsPrime_first (searching 1 1 2 3 [0, 1]).source (by decide) (by decide +kernel)
  have h' := (searching 1 1 2 3 [0, 1]).search.findsPrime_first _ (by decide)
    (show ((searching 1 1 2 3 [0, 1]).search.verdict ((searching 1 1 2 3 [0, 1]).search.passed (searching 1 1 2 3 [0, 1]).source)).1
      = true by decide +kernel)
  exact ⟨_, .inl ⟨_, _, _, ⟨_, h, h'⟩, .inr (by decide +kernel), rfl⟩⟩

/-- The last row of section 2.8: CAP = 1, p = 2, q = 67, e = 2; the one increment reaches 3, and neither is coprime to 66. -/
theorem witness_KeygenEnds_increments :
    ∃ r, (searching 1 1 2 200 [0, 65, 0, 0]).search.Exhausts (searching 1 1 2 200 [0, 65, 0, 0]).source r := by
  have hp := (searching 1 1 2 200 [0, 65, 0, 0]).search.findsPrime_first (searching 1 1 2 200 [0, 65, 0, 0]).source
    (by decide) (by decide +kernel)
  have h1 : (searching 1 1 2 200 [0, 65, 0, 0]).search.passed (searching 1 1 2 200 [0, 65, 0, 0]).source =
      (searching 1 1 2 200 [0, 65, 0, 0]).source.after 1 := by decide +kernel
  rw [h1, show (searching 1 1 2 200 [0, 65, 0, 0]).search.candidate (searching 1 1 2 200 [0, 65, 0, 0]).source = 2 from
    by decide] at hp
  have hv : (searching 1 1 2 200 [0, 65, 0, 0]).search.verdict ((searching 1 1 2 200 [0, 65, 0, 0]).source.after 1) = (true, 1) :=
    primeVerdict_passes .wrap64 67 1 _ (by decide) (by decide) fun i hi => by
      obtain rfl : i = 0 := by omega
      exact euler_67
  have hq := (searching 1 1 2 200 [0, 65, 0, 0]).search.findsPrime_first _ (by decide) (congrArg Prod.fst hv)
  unfold Search.passed at hq
  rw [hv, show (searching 1 1 2 200 [0, 65, 0, 0]).search.candidate ((searching 1 1 2 200 [0, 65, 0, 0]).source.after 1) = 67
    from by decide] at hq
  exact ⟨_, .inr (.inr ⟨2, 67, _, ⟨0, by decide, _, rfl, ⟨_, hp, hq⟩, by decide, by decide⟩, rfl, by decide +kernel⟩)⟩
theorem witness_KeygenWithCapZero : (State.reset.portWrite 0x014 0).cfg.cap = 0 ∧ State.reset.cfg.k ≠ 0 ∧
    2 ≤ State.reset.cfg.pmin.toNat ∧ State.reset.cfg.pmin.toNat ≤ State.reset.cfg.pmax.toNat := by decide
theorem witness_KeygenKeyInvariants : exec .kcKeygen keyDraws = .next (after .kcKeygen keyDraws) ∧
    (after .kcKeygen keyDraws).lastErr = 0x00 ∧ keyDraws.cfg.pmax.toNat ≤ 65535 :=
  ⟨exec_after _ _, by decide +kernel, by decide⟩
/-- The 7-draw key of section 2.8. -/
theorem witness_KeygenFromPrimeDraws : let s := keyDraws
    let k := s.cfg.k.toNat
    let span := s.cfg.pmax.toNat - s.cfg.pmin.toNat + 1
    let p := s.cfg.pmin.toNat + (s.source.ahead 0).toNat % span
    let q := s.cfg.pmin.toNat + (s.source.ahead (k + 1)).toNat % span
    let phi := (p - 1) * (q - 1)
    let e := 2 + (s.source.ahead (2 * k + 2)).toNat % (phi - 2)
    k ≠ 0 ∧ 2 ≤ s.cfg.pmin.toNat ∧ s.cfg.pmin.toNat ≤ s.cfg.pmax.toNat ∧ s.cfg.cap ≠ 0 ∧ p = 61 ∧ q = 53 ∧ e = 17 ∧
    Nat.Prime 61 ∧ Nat.Prime 53 ∧ 5 ≤ p ∧ 5 ≤ q ∧ p ≠ q ∧ 128 ≤ p * q ∧ Nat.gcd e phi = 1 := by
  refine ⟨?_, ?_, ?_, ?_, ?_, ?_, ?_, by norm_num, by norm_num, ?_, ?_, ?_, ?_, ?_⟩ <;> decide +kernel
/-- The plaintext and the ciphertext end at BMEM_SIZE. -/
theorem witness_KcEncodeResult : let s := keyed (regsOf [(0, 4094), (1, 2), (2, 4080)]) 3233 17 0
    s.keys.kn ≠ 0 ∧ Memory.wf s.bmem ∧ s.xNat 0 + s.xNat 1 ≤ s.params.bmemSize ∧
    s.xNat 2 + 8 * max 1 ((s.xNat 1 + blockBytes s.keys.kn.toNat - 1) / blockBytes s.keys.kn.toNat) ≤ s.params.bmemSize :=
  ⟨by decide, List.Pairwise.nil, by decide, by decide +kernel⟩
/-- The decode of section 2.9 to the last two bytes of BMEM, and one byte past them. -/
theorem witness_KcDecodeResult : let s := regs hiCipher [(6, 4094)]
    s.keys.kn ≠ 0 ∧ Memory.wf s.bmem ∧ s.xNat 4 + 8 * s.xNat 5 ≤ s.params.bmemSize ∧
    2 ≤ s.xNat 5 * blockBytes s.keys.kn.toNat ∧ decodedDigit s (s.xNat 4) (2 - 1) ≠ 0 ∧
    (∀ p, 2 ≤ p → p < s.xNat 5 * blockBytes s.keys.kn.toNat → decodedDigit s (s.xNat 4) p = 0) ∧
    s.xNat 6 + 2 ≤ s.params.bmemSize ∧ s.params.bmemSize < (regs hiCipher [(6, 4095)]).xNat 6 + 2 := by
  have h : (regs hiCipher [(6, 4094)]).xNat 5 * blockBytes (regs hiCipher [(6, 4094)]).keys.kn.toNat = 2 := by decide +kernel
  refine ⟨by decide +kernel, by decide +kernel, by decide +kernel, by rw [h], by decide +kernel, fun p h1 h2 => ?_,
    by decide +kernel, by decide +kernel⟩
  rw [h] at h2; omega
/-- The rows of section 2.9, one byte too long. -/
theorem witness_CipherRangeErrors : hiText.keys.kn ≠ 0 ∧
    hiText.params.bmemSize < (regs hiText [(1, 4097)]).xNat 0 + (regs hiText [(1, 4097)]).xNat 1 ∧
    hiText.params.bmemSize < (regs hiText [(2, 4089)]).xNat 2 + 8 * max 1 ((hiText.xNat 1 + blockBytes hiText.keys.kn.toNat - 1) /
      blockBytes hiText.keys.kn.toNat) ∧
    hiText.params.bmemSize < hiText.xNat 0 + 8 * (regs hiText [(5, 2 ^ 61)]).xNat 5 := by decide +kernel
/-- "Hi" under (3233, 17, 2753), encoded and decoded. -/
theorem witness_CipherRoundTrip : Nat.Prime 61 ∧ Nat.Prime 53 ∧ hiText.keys.kn.toNat = 61 * 53 ∧
    hiText.keys.ke.toNat * hiText.keys.kd.toNat % ((61 - 1) * (53 - 1)) = 1 ∧ 61 * 53 < 2 ^ 32 ∧ Memory.wf hiText.bmem ∧
    (∀ i < hiText.xNat 1, 1 ≤ (hiText.readByte (hiText.xNat 0 + i)).toNat ∧ (hiText.readByte (hiText.xNat 0 + i)).toNat ≤ 127) ∧
    exec (.kcEncode 3 0 1 2) hiText = .next (after (.kcEncode 3 0 1 2) hiText) ∧
    (after (.kcEncode 3 0 1 2) hiText).lastErr = 0x00 ∧ hiCipher.keys = hiText.keys ∧ hiCipher.params = hiText.params ∧
    Memory.wf hiCipher.bmem ∧ hiCipher.xNat 5 = (after (.kcEncode 3 0 1 2) hiText).xNat 3 ∧
    hiCipher.cipherWords (hiCipher.xNat 4) (hiCipher.xNat 5) =
      (after (.kcEncode 3 0 1 2) hiText).cipherWords (hiText.xNat 2) ((after (.kcEncode 3 0 1 2) hiText).xNat 3) ∧
    hiCipher.xNat 4 + 8 * hiCipher.xNat 5 ≤ hiCipher.params.bmemSize ∧
    hiCipher.xNat 6 + hiText.xNat 1 ≤ hiCipher.params.bmemSize := by
  refine ⟨by norm_num, by norm_num, ?_, ?_, by norm_num, ?_, ?_, exec_after _ _, ?_, ?_, ?_, ?_, ?_, ?_, ?_, ?_⟩ <;> decide +kernel
theorem witness_StoringCommandFrame : hiText.cfg.sepLen.toNat ≤ 4 ∧ Memory.wf hiText.bmem ∧
    exec (.kcEncode 3 0 1 2) hiText = .next (after (.kcEncode 3 0 1 2) hiText) ∧
    exec (.kcDecode 7 4 5 6) hiCipher = .next (after (.kcDecode 7 4 5 6) hiCipher) ∧
    ∃ t, exec (.deHex 2 3) (digested [(3, 256)]) = .next t :=
  ⟨by decide, by decide +kernel, exec_after _ _, exec_after _ _, _, exec_after _ _⟩

end Sys2Proof.Tests
end

section
/-! Every command completes (obligation O8). The completion of 60_exceptions.md rule R243 is the one place where a command
touches the control state, so its effect on CMDCNT, BUSY, LASTERR and ERR can be read off the state before the command. -/

namespace Sys2Proof.Machine

/-! ### The control state, which no command's pseudocode writes -/

/-- The registers only a completion, the host and reset write (10_state.md rules R24, R28, R35 to R43), and with them the
parameters and the model's own fields but those of the random source. -/
structure Control where
  lastCmd : Word32
  pending : Word32
  busy : Bool
  err : Bool
  accErr : Bool
  lastErr : Byte
  cfg : ConfigRegs
  cmdCnt : Word32
  params : Params
  resets : Nat
  moves : List Move
  portData : Word32

/-- The control part of a state. -/
def State.control (s : State) : Control where
  lastCmd := s.lastCmd
  pending := s.pending
  busy := s.status.busy
  err := s.status.err
  accErr := s.status.accErr
  lastErr := s.lastErr
  cfg := s.cfg
  cmdCnt := s.cmdCnt
  params := s.params
  resets := s.resets
  moves := s.moves
  portData := s.portData

@[simp] theorem State.writeX_control (s : State) (i : Reg) (v : Word64) : (s.writeX i v).control = s.control := rfl

@[simp] theorem State.writeXNat_control (s : State) (i : Reg) (v : Nat) : (s.writeXNat i v).control = s.control := rfl

@[simp] theorem State.writeXInt_control (s : State) (i : Reg) (v : Int) : (s.writeXInt i v).control = s.control := rfl

@[simp] theorem State.memWrite_control (s : State) (a : Nat) (bs : List Byte) :
    (s.memWrite a bs).control = s.control := by
  simp [State.control]

@[simp] theorem State.openSession_control (s : State) : s.openSession.control = s.control := rfl

/-! ### The parts of the commands -/

theorem updatePart_control (src len : Nat) (s : State) : (updatePart src len s).state.control = s.control := by
  obtain ⟨-, h⟩ | ⟨-, -, h⟩ | ⟨-, -, h⟩ := updatePart_cases src len s <;> rw [h] <;> rfl

theorem finalPart_control (s : State) : (finalPart s).state.control = s.control := by
  obtain ⟨-, h⟩ | ⟨-, h⟩ := finalPart_cases s <;> rw [h] <;> rfl

/-- A part that goes on, or not, to a second part that keeps the control state. -/
theorem Result.andThen_control (r : Result) {f : State → Result} (hf : ∀ t, (f t).state.control = t.control) :
    (r.andThen f).state.control = r.state.control := by
  by_cases h : r.code = .ok
  · have hr : r.andThen f = f r.state := by unfold Result.andThen; rw [h]
    rw [hr, hf]
  · rw [Result.andThen_error r f h]

/-! ### The commands -/

/-- What exec answers is a completion, of the command's code, of a state with the control state it began with. -/
theorem exec_completes_control (i : Instr) (s : State) :
    ∃ u c, exec i s = .next (State.complete u c) ∧ u.control = s.control := by
  cases i with
  | nop => exact ⟨_, _, rfl, rfl⟩
  | deInit => exact ⟨_, _, rfl, s.openSession_control⟩
  | deUpdate s1 s2 => exact ⟨_, _, rfl, updatePart_control _ _ s⟩
  | deFinal => exact ⟨_, _, rfl, finalPart_control s⟩
  | deHash s1 s2 =>
    refine ⟨_, _, rfl, ?_⟩
    rw [Result.andThen_control _ finalPart_control, updatePart_control, State.openSession_control]
  | deHex d1 s1 =>
    refine ⟨_, _, rfl, ?_⟩
    split
    · rfl
    · split <;> simp
  | arPowmod d1 s1 s2 s3 =>
    refine ⟨_, _, rfl, ?_⟩
    split <;> rfl
  | arGcd d1 s1 s2 => exact ⟨_, _, rfl, rfl⟩
  | arEgcd d1 d2 d3 s1 s2 => exact ⟨_, _, rfl, rfl⟩
  | arInv d1 s1 s2 =>
    refine ⟨_, _, rfl, ?_⟩
    split
    · rfl
    · split <;> rfl
  | arJacobi d1 s1 s2 =>
    refine ⟨_, _, rfl, ?_⟩
    split <;> rfl
  | arPrime d1 s1 =>
    refine ⟨_, _, rfl, ?_⟩
    split <;> rfl
  | kcKeygen =>
    refine ⟨_, _, rfl, ?_⟩
    split
    · rfl
    · split <;> rfl
  | kcBpb d1 s1 => exact ⟨_, _, rfl, rfl⟩
  | kcEncode d1 s1 s2 s3 =>
    refine ⟨_, _, rfl, ?_⟩
    split
    · rfl
    · split
      · rfl
      · split <;> simp
  | kcDecode d1 s1 s2 s3 =>
    refine ⟨_, _, rfl, ?_⟩
    split
    · rfl
    · split
      · rfl
      · split <;> simp

/-! ### ERR after a completion (10_state.md rule R30) -/

/-- A completion sets ERR for every code but 0x00. -/
theorem State.complete_err_of_error (s : State) {c : ErrCode} (h : (s.complete c).lastErr ≠ 0x00) :
    (s.complete c).status.err = true := by
  have hc : c ≠ .ok := fun hok => h ((ErrCode.byte_eq_zero c).mpr hok)
  rw [complete_error s hc]
  rfl

/-- A completion with code 0x00 leaves ERR alone. -/
theorem State.complete_err_of_ok (s : State) {c : ErrCode} (h : (s.complete c).lastErr = 0x00) :
    (s.complete c).status.err = s.status.err := by
  have hc : c = .ok := (ErrCode.byte_eq_zero c).mp h
  rw [hc, complete_ok]
  rfl

/-- Settles O8: every command ends in a completion, which counts in CMDCNT and sets ERR from the values the command's
pseudocode left alone. -/
theorem everyCommandCompletes : Obligations.EveryCommandCompletes := by
  intro i s
  obtain ⟨u, c, hexec, hcontrol⟩ := exec_completes_control i s
  have hcnt : u.cmdCnt = s.cmdCnt := congrArg Control.cmdCnt hcontrol
  have herr : u.status.err = s.status.err := congrArg Control.err hcontrol
  refine ⟨u.complete c, hexec, ?_, rfl, ErrCode.byte_legal c, State.complete_err_of_error u, ?_⟩
  · rw [State.complete_cmdCnt, hcnt]
  · exact fun hok => (State.complete_err_of_ok u hok).trans herr

end Sys2Proof.Machine
end

section
/-! What a step can do, one level below Laws/Step.lean: a host access (10_state.md rules R25 to R55), the commands by
family, and the principle that an invariant of these is an invariant of every step (obligations O16 to O18). -/

namespace Sys2Proof.Machine

/-! ### Host accesses -/

/-- Everything a host read can do as a move: it is refused, or it hands the host a value. -/
theorem hostRead_cases (s : State) (off : Offset) :
    s.hostRead off = State.refused { s with portData := 0 } ∨ ∃ v, s.hostRead off = { s with portData := v } := by
  unfold State.hostRead
  obtain h | ⟨p, -, h⟩ := portRead_cases s off
  · exact .inl (by rw [h]; rfl)
  · exact .inr ⟨s.readPlace p, by rw [h]⟩

/-- The state after an accepted host write of v to a place, by the kind of place. -/
inductive HostWrite (s : State) (v : Word32) : Place → State → Prop
  | status : HostWrite s v .status { s with status := s.status.clearBy v }
  | cmd : HostWrite s v .cmd (s.accept v)
  | config {p : Place} (c : ConfigRegs) (h : c.sepLen = s.cfg.sepLen ∨ c.sepLen = sepLenOf v) :
      HostWrite s v p { s with cfg := c }
  | register {p : Place} (i : Reg) (w : Word64) : HostWrite s v p (s.writeX i w)
  | key {p : Place} (k : Keys) (hp : k.kp = s.keys.kp) (hq : k.kq = s.keys.kq) (hphi : k.kphi = s.keys.kphi) :
      HostWrite s v p { s with keys := k }
  | memory (a : Nat) : HostWrite s v (.bmem a) (s.memWrite a (bytesLe32 v))

/-- Everything an accepted host write can do. -/
theorem writePlace_cases {s t : State} {v : Word32} {p : Place} (h : s.writePlace v p = some t) :
    HostWrite s v p t := by
  cases p with
  | id | lastErr | cmdCnt | draws | deH | deLen | deFill | dg | deBuf => cases h
  | status => cases h; exact .status
  | cmd => cases h; exact .cmd
  | cfgK | cfgCap | cfgPmin | cfgPmax | sep => cases h; exact .config _ (.inl rfl)
  | sepLen => cases h; exact .config _ (.inr rfl)
  | x i hi => cases h; exact .register i _
  | key r hi =>
    cases r with
    | kn | ke | kd => cases h; exact .key _ rfl rfl rfl
    | kp | kq | kphi => cases h
  | bmem a => cases h; exact .memory a

/-- Everything a host write can do: it is refused, or it writes the place at its offset. -/
theorem portWrite_hostWrite (s : State) (off : Offset) (v : Word32) :
    s.portWrite off v = s.refused ∨
      ∃ p, locate s.params.bmemSize off = some p ∧ HostWrite s v p (s.portWrite off v) := by
  obtain h | ⟨p, t, hp, hw, rfl⟩ := portWrite_cases s off v
  · exact .inl h
  · exact .inr ⟨p, hp, writePlace_cases hw⟩

/-! ### The commands that write neither the session nor the primes -/

/-- u is s but for the general registers, BMEM and the random source. -/
def State.OnlyResults (s u : State) : Prop := u = { s with x := u.x, bmem := u.bmem, source := u.source }

theorem State.OnlyResults.eq {s u : State} (h : s.OnlyResults u) :
    u = { s with x := u.x, bmem := u.bmem, source := u.source } := h

theorem State.OnlyResults.refl (s : State) : s.OnlyResults s := rfl

theorem State.OnlyResults.source (s : State) (r : Source) : s.OnlyResults { s with source := r } := rfl

theorem State.OnlyResults.memWrite (s : State) (a : Nat) (bs : List Byte) : s.OnlyResults (s.memWrite a bs) :=
  s.memWrite_only a bs ▸ rfl

theorem State.OnlyResults.writeX {s u : State} (h : s.OnlyResults u) (i : Reg) (v : Word64) :
    s.OnlyResults (u.writeX i v) := by
  rw [h.eq]
  rfl

theorem State.OnlyResults.status_eq {s u : State} (h : s.OnlyResults u) : u.status = s.status := by rw [h.eq]

theorem State.OnlyResults.de_eq {s u : State} (h : s.OnlyResults u) : u.de = s.de := by rw [h.eq]

theorem State.OnlyResults.dg_eq {s u : State} (h : s.OnlyResults u) : u.dg = s.dg := by rw [h.eq]

theorem State.OnlyResults.keys_eq {s u : State} (h : s.OnlyResults u) : u.keys = s.keys := by rw [h.eq]

/-- A command but the session commands and kc.keygen writes general registers, BMEM and the random source, and completes. -/
theorem exec_onlyResults {i : Instr} (hi : sessionCommand i = false) (hk : i ≠ .kcKeygen) (s : State) :
    ∃ u c, exec i s = .next (State.complete u c) ∧ s.OnlyResults u := by
  cases i with
  | deInit | deUpdate | deFinal | deHash => cases hi
  | kcKeygen => exact absurd rfl hk
  | nop => exact ⟨s, .ok, rfl, .refl s⟩
  | arGcd | kcBpb => exact ⟨_, _, rfl, (State.OnlyResults.refl s).writeX _ _⟩
  | arEgcd => exact ⟨_, _, rfl, (((State.OnlyResults.refl s).writeX _ _).writeX _ _).writeX _ _⟩
  | arPowmod | arJacobi =>
    refine ⟨_, _, rfl, ?_⟩
    split
    · exact .refl s
    · exact (State.OnlyResults.refl s).writeX _ _
  | arInv =>
    refine ⟨_, _, rfl, ?_⟩
    split
    · exact .refl s
    · split
      · exact (State.OnlyResults.refl s).writeX _ _
      · exact .refl s
  | arPrime =>
    refine ⟨_, _, rfl, ?_⟩
    split
    · exact .refl s
    · exact (State.OnlyResults.source s _).writeX _ _
  | deHex =>
    refine ⟨_, _, rfl, ?_⟩
    split
    · exact .refl s
    · split
      · exact .refl s
      · exact (State.OnlyResults.memWrite s _ _).writeX _ _
  | kcEncode | kcDecode =>
    refine ⟨_, _, rfl, ?_⟩
    split
    · exact .refl s
    · split
      · exact .refl s
      · split
        · exact .refl s
        · exact (State.OnlyResults.memWrite s _ _).writeX _ _

/-! ### The session commands -/

section
variable {P : State → Prop} (hopen : ∀ s, P s → P s.openSession)
  (hupdate : ∀ src len s, P s → P (updatePart src len s).state) (hfinal : ∀ s, P s → P (finalPart s).state)
include hopen hupdate hfinal

/-- What the parts of the session commands keep, the commands keep up to their completion. -/
theorem exec_session_keeps {i : Instr} (hi : sessionCommand i = true) {s : State} (hs : P s) :
    ∃ u c, exec i s = .next (State.complete u c) ∧ P u := by
  cases i with
  | deInit => exact ⟨_, _, rfl, hopen s hs⟩
  | deUpdate => exact ⟨_, _, rfl, hupdate _ _ s hs⟩
  | deFinal => exact ⟨_, _, rfl, hfinal s hs⟩
  | deHash s1 s2 =>
    refine ⟨_, _, rfl, ?_⟩
    have hu := hupdate (s.xNat s1) (s.xNat s2) _ (hopen s hs)
    by_cases hc : (updatePart (s.xNat s1) (s.xNat s2) s.openSession).code = .ok
    · rw [Result.andThen, hc]
      exact hfinal _ hu
    · rwa [Result.andThen_error _ _ hc]
  | nop | deHex | arPowmod | arGcd | arEgcd | arInv | arJacobi | arPrime | kcKeygen | kcBpb | kcEncode | kcDecode =>
    cases hi

end

/-! ### kc.keygen (42_cipher.md rule R199) -/

theorem exec_kcKeygen (s : State) : exec .kcKeygen s = execKcKeygen s := rfl

/-- Everything kc.keygen can do: it fails with only draws taken, or it writes the key pair its search found. -/
theorem exec_kcKeygen_cases (s : State) :
    (∃ r c, c ≠ .ok ∧ exec .kcKeygen s = .next (State.complete { s with source := r } c)) ∨
    ∃ z r, s.search.illegal = false ∧ s.search.keyPair s.source = (some z, r) ∧
      exec .kcKeygen s = .next (State.complete
        { s with source := r, keys := z.registers, status := { s.status with keygen := true } } .ok) := by
  rw [exec_kcKeygen]
  unfold execKcKeygen
  cases hi : s.search.illegal with
  | true => exact .inl ⟨s.source, .arg, by decide, rfl⟩
  | false =>
    obtain ⟨found, r⟩ := s.search.keyPair s.source
    cases found with
    | none => exact .inl ⟨r, .exhausted, by decide, rfl⟩
    | some z => exact .inr ⟨z, r, rfl, rfl, rfl⟩

/-! ### Invariants of every step -/

/-- P is kept by whatever a move can do: what a host access, an engine step and reset do to the state, and the model's
own bookkeeping of the moves to come and of the host's data. -/
structure StepInvariant (P : State → Prop) : Prop where
  moves : ∀ s ms, P s → P { s with moves := ms }
  portData : ∀ s v, P s → P { s with portData := v }
  refused : ∀ s, P s → P s.refused
  write : ∀ s v p t, HostWrite s v p t → P s → P t
  reset : ∀ s lost, P s → P (s.resetEvent lost)
  illegal : ∀ s, P s → P (s.complete .illegal)
  exec : ∀ i s t, exec i s = .next t → P s → P t

theorem StepInvariant.engineTurn {P : State → Prop} (inv : StepInvariant P) {s t : State}
    (h : engineTurn s = .next t) (hs : P s) : P t := by
  obtain ⟨-, h'⟩ | ⟨-, i, -, h'⟩ | ⟨-, -, -, h'⟩ := engineTurn_cases s <;> rw [h'] at h
  · cases h; exact hs
  · exact inv.exec i s t h hs
  · cases h; exact inv.illegal s hs

theorem StepInvariant.step {P : State → Prop} (inv : StepInvariant P) {s t : State}
    (hs : P s) (h : step s = .next t) : P t := by
  obtain ⟨-, h⟩ | ⟨rest, -, h⟩ | ⟨off, rest, -, rfl⟩ | ⟨off, v, rest, -, rfl⟩ | ⟨lost, rest, -, rfl⟩ := step_cases h
  · exact inv.engineTurn h hs
  · exact inv.engineTurn h (inv.moves s rest hs)
  · obtain h | ⟨v, h⟩ := hostRead_cases { s with moves := rest } off <;> rw [h]
    · exact inv.refused _ (inv.portData _ _ (inv.moves s rest hs))
    · exact inv.portData _ _ (inv.moves s rest hs)
  · obtain h | ⟨p, -, h⟩ := portWrite_hostWrite { s with moves := rest } off v
    · rw [h]; exact inv.refused _ (inv.moves s rest hs)
    · exact inv.write _ v p _ h (inv.moves s rest hs)
  · exact inv.reset _ lost (inv.moves s rest hs)

end Sys2Proof.Machine
end

section
/-! The digest form (obligation O16): FILL counts LEN mod 64 (40_digest.md rule R123), and a valid digest is H (rule R124). -/

namespace Sys2Proof.Machine

/-! ### FILL and LEN -/

theorem Session.absorbByte_fill (d : Session) (v : Byte) : (d.absorbByte v).fill = d.fill + 1 := by
  unfold Session.absorbByte
  split
  · show (0 : BitVec 6) = d.fill + 1
    bv_omega
  · rfl

theorem Session.foldl_absorbByte_fill (d : Session) (bs : List Byte) :
    (bs.foldl Session.absorbByte d).fill = d.fill + BitVec.ofNat 6 bs.length := by
  induction bs generalizing d with
  | nil => simp
  | cons b bs ih =>
    rw [List.foldl_cons, ih, d.absorbByte_fill, List.length_cons, BitVec.ofNat_add]
    ac_rfl

/-- Absorbing keeps FILL = LEN mod 64. -/
theorem Session.absorb_fill {d : Session} (h : d.fill = d.len.setWidth 6) (bs : List Byte) :
    (d.absorb bs).fill = (d.absorb bs).len.setWidth 6 := by
  show (bs.foldl Session.absorbByte d).fill = (d.len + BitVec.ofNat 64 bs.length).setWidth 6
  rw [d.foldl_absorbByte_fill, h, BitVec.setWidth_add _ _ (by decide), BitVec.setWidth_ofNat_of_le (by decide)]

/-! ### The digest form under each move -/

/-- The digest form speaks of the session, DG, DSESS and DVALID only. -/
theorem State.digestForm_congr {s t : State} (hde : t.de = s.de) (hdg : t.dg = s.dg)
    (hsess : t.status.dsess = s.status.dsess) (hvalid : t.status.dvalid = s.status.dvalid) (h : s.digestForm) :
    t.digestForm := by
  unfold State.digestForm
  rwa [hde, hdg, hsess, hvalid]

theorem reset_digestForm : State.reset.digestForm := by decide

theorem State.openSession_digestForm (s : State) : s.openSession.digestForm :=
  ⟨rfl, by simp [Status.openSession], by simp [Status.openSession]⟩

theorem updatePart_digestForm (src len : Nat) (s : State) (h : s.digestForm) :
    (updatePart src len s).state.digestForm := by
  have ⟨hfill, hexcl, _⟩ := h
  obtain ⟨-, hu⟩ | ⟨-, -, hu⟩ | ⟨hopen, -, hu⟩ := updatePart_cases src len s <;> rw [hu]
  · exact h
  · exact ⟨hfill, by simp [Status.abortSession], by simp [Status.abortSession]⟩
  · exact ⟨Session.absorb_fill hfill _, hexcl, fun hvalid => absurd ⟨hopen, hvalid⟩ hexcl⟩

theorem finalPart_digestForm (s : State) (h : s.digestForm) : (finalPart s).state.digestForm := by
  obtain ⟨-, hf⟩ | ⟨-, hf⟩ := finalPart_cases s <;> rw [hf]
  · exact h
  · exact ⟨h.1, by simp [Status.publish], fun _ => rfl⟩

theorem State.complete_digestForm {s : State} (h : s.digestForm) (c : ErrCode) : (s.complete c).digestForm :=
  digestForm_congr rfl rfl rfl rfl h

theorem exec_digestForm (i : Instr) (s t : State) (hexec : exec i s = .next t) (h : s.digestForm) : t.digestForm := by
  cases hi : sessionCommand i with
  | true =>
    obtain ⟨u, c, hu, hform⟩ := exec_session_keeps (fun s _ => s.openSession_digestForm) updatePart_digestForm
      finalPart_digestForm hi h
    cases hexec.symm.trans hu
    exact State.complete_digestForm hform c
  | false =>
    by_cases hk : i = .kcKeygen
    · subst hk
      obtain ⟨r, c, -, hu⟩ | ⟨z, r, -, -, hu⟩ := exec_kcKeygen_cases s <;>
        cases hexec.symm.trans hu <;> exact State.digestForm_congr rfl rfl rfl rfl h
    · obtain ⟨u, c, hu, hs⟩ := exec_onlyResults hi hk s
      cases hexec.symm.trans hu
      exact State.complete_digestForm (State.digestForm_congr hs.de_eq hs.dg_eq (by rw [hs.status_eq])
        (by rw [hs.status_eq]) h) c

/-- No host write reaches the session, DG, DSESS or DVALID. -/
theorem HostWrite.digestForm {s t : State} {v : Word32} {p : Place} (hw : HostWrite s v p t) (h : s.digestForm) :
    t.digestForm := by
  cases hw with
  | memory a =>
    exact State.digestForm_congr (s.memWrite_de a _) (s.memWrite_dg a _) (by rw [State.memWrite_status])
      (by rw [State.memWrite_status]) h
  | status | cmd | config | register | key => exact State.digestForm_congr rfl rfl rfl rfl h

theorem digestForm_stepInvariant : StepInvariant State.digestForm where
  moves _ _ h := h
  portData _ _ h := h
  refused _ h := h
  write _ _ _ _ hw h := hw.digestForm h
  reset _ _ _ := State.digestForm_congr rfl rfl rfl rfl reset_digestForm
  illegal _ h := State.complete_digestForm h _
  exec := exec_digestForm

/-- Settles O16: the digest form holds after every command, host access and reset, so after every step. -/
theorem stepKeepsDigestForm : Obligations.StepKeepsDigestForm :=
  fun _ _ hs h => digestForm_stepInvariant.step hs h

end Sys2Proof.Machine
end

section
/-! The primes of the key (obligations O12, O18): only a successful kc.keygen writes KP, KQ, KPHI and KEYGEN (10_state.md rules
R32, R51), and what it writes is the primes and the totient of one key (42_cipher.md rule R200). -/

namespace Sys2Proof.Machine

/-! ### The pair behind a key (42_cipher.md rules R195 to R198) -/

/-- What a key pair search found: a pair, an exponent from the one draw after it, and its inverse. -/
theorem Search.keyPair_found (z : Search) {r r' : Source} {k : KeyPair} (h : z.keyPair r = (some k, r')) :
    ∃ r1, z.findPair z.cap r = (some (k.p, k.q), r1) ∧ r' = (r1.drawIn 2 (totient k.p k.q - 1)).2 ∧
      findExponent (totient k.p k.q) z.cap (r1.drawIn 2 (totient k.p k.q - 1)).1 = some k.e ∧
      modinv k.e (totient k.p k.q) = some k.d := by
  unfold Search.keyPair at h
  split at h
  · cases h
  · rename_i p q r1 hpair
    simp only at h
    split at h
    · cases h
    · rename_i e he
      obtain ⟨hk, rfl⟩ := Prod.mk.inj h
      obtain ⟨d, hd, rfl⟩ := Option.map_eq_some_iff.mp hk
      exact ⟨r1, hpair, rfl, he, hd⟩

/-- The configuration check passed: the prime range is not empty and starts at 2 or above (rule R192). -/
theorem Search.pmin_of_legal {z : Search} (h : z.illegal = false) : 2 ≤ z.pmin ∧ z.pmin ≤ z.pmax := by
  simp only [Search.illegal, Bool.or_eq_false_iff, decide_eq_false_iff_not] at h
  omega

/-- A 32-bit prime range keeps both primes of a key below 2^32 (rule R40). -/
theorem State.search_primes {s : State} {k : KeyPair} {r : Source} (hl : s.search.illegal = false)
    (h : s.search.keyPair s.source = (some k, r)) :
    2 ≤ k.p ∧ k.p < 2 ^ 32 ∧ 2 ≤ k.q ∧ k.q < 2 ^ 32 ∧ k.p ≠ k.q ∧ 128 ≤ k.p * k.q := by
  obtain ⟨hmin, hle⟩ := Search.pmin_of_legal hl
  obtain ⟨r1, hpair, -⟩ := s.search.keyPair_found h
  obtain ⟨⟨hp, hp'⟩, ⟨hq, hq'⟩, hne, hbig⟩ := s.search.findPair_found hle _ _ _ _ _ hpair
  have hmax : s.search.pmax < 2 ^ 32 := s.cfg.pmax.isLt
  exact ⟨by omega, by omega, by omega, by omega, hne, hbig⟩

/-! ### What no move but kc.keygen and reset writes -/

/-- KP, KQ, KPHI and KEYGEN. -/
def State.primes (s : State) : Word64 × Word64 × Word64 × Bool :=
  (s.keys.kp, s.keys.kq, s.keys.kphi, s.status.keygen)

theorem State.primes_congr {s t : State} (hk : t.keys = s.keys) (hg : t.status.keygen = s.status.keygen) :
    t.primes = s.primes := by
  rw [State.primes, State.primes, hk, hg]

@[simp] theorem State.complete_primes (s : State) (c : ErrCode) : (s.complete c).primes = s.primes := rfl

theorem updatePart_primes (src len : Nat) (s : State) : (updatePart src len s).state.primes = s.primes := by
  obtain ⟨-, h⟩ | ⟨-, -, h⟩ | ⟨-, -, h⟩ := updatePart_cases src len s <;> rw [h] <;> rfl

theorem finalPart_primes (s : State) : (finalPart s).state.primes = s.primes := by
  obtain ⟨-, h⟩ | ⟨-, h⟩ := finalPart_cases s <;> rw [h] <;> rfl

theorem exec_primes {i : Instr} (hk : i ≠ .kcKeygen) {s t : State} (hexec : exec i s = .next t) :
    t.primes = s.primes := by
  cases hi : sessionCommand i with
  | true =>
    obtain ⟨u, c, hu, hprimes⟩ := exec_session_keeps (P := fun u => u.primes = s.primes) (fun _ h => h)
      (fun _ _ u h => (updatePart_primes _ _ u).trans h) (fun u h => (finalPart_primes u).trans h) hi rfl
    cases hexec.symm.trans hu
    exact hprimes
  | false =>
    obtain ⟨u, c, hu, hs⟩ := exec_onlyResults hi hk s
    cases hexec.symm.trans hu
    exact (u.complete_primes c).trans (State.primes_congr hs.keys_eq (congrArg Status.keygen hs.status_eq))

/-- KP, KQ and KPHI are RO to the host (10_state.md rule R51), and KEYGEN is no bit a STATUS write clears (rule R28). -/
theorem HostWrite.primes {s t : State} {v : Word32} {p : Place} (hw : HostWrite s v p t) : t.primes = s.primes := by
  cases hw with
  | status | cmd | config | register => rfl
  | key k hp hq hphi => rw [State.primes, hp, hq, hphi]; rfl
  | memory a => exact State.primes_congr (s.memWrite_keys a _) (congrArg Status.keygen (s.memWrite_status a _))

theorem portWrite_primes (s : State) (off : Offset) (v : Word32) : (s.portWrite off v).primes = s.primes := by
  obtain h | ⟨p, -, hw⟩ := portWrite_hostWrite s off v
  · rw [h]; rfl
  · exact hw.primes

theorem hostRead_primes (s : State) (off : Offset) : (s.hostRead off).primes = s.primes := by
  obtain h | ⟨v, h⟩ := hostRead_cases s off <;> rw [h] <;> rfl

/-- The engine's turn writes the primes only by a kc.keygen that completes with code 0x00. -/
theorem engineTurn_primes {s t : State} (h : engineTurn s = .next t) (hne : t.primes ≠ s.primes) :
    s.status.busy = true ∧ decode s.pending = .ok .kcKeygen ∧
      t.status.busy = false ∧ t.lastErr = 0x00 ∧ t.status.keygen = true := by
  obtain ⟨-, h'⟩ | ⟨hb, i, hi, h'⟩ | ⟨-, -, -, h'⟩ := engineTurn_cases s <;> rw [h'] at h
  · cases h; exact absurd rfl hne
  · by_cases hk : i = .kcKeygen
    · subst hk
      obtain ⟨r, c, -, hu⟩ | ⟨z, r, -, -, hu⟩ := exec_kcKeygen_cases s <;> cases h.symm.trans hu
      · exact absurd rfl hne
      · exact ⟨hb, hi, rfl, rfl, rfl⟩
    · exact absurd (exec_primes hk h) hne
  · cases h; exact absurd rfl hne

/-- Settles O12: host accesses and every command but kc.keygen keep the primes, and kc.keygen writes them only with a key. -/
theorem onlyKeygenWritesThePrimes : Obligations.OnlyKeygenWritesThePrimes := by
  intro s t h hreset hne
  change t.primes ≠ s.primes at hne
  obtain ⟨hm, h⟩ | ⟨rest, hm, h⟩ | ⟨off, rest, -, rfl⟩ | ⟨off, v, rest, -, rfl⟩ | ⟨lost, rest, hm, -⟩ := step_cases h
  · exact ⟨.inl hm, engineTurn_primes h hne⟩
  · exact ⟨.inr ⟨rest, hm⟩, engineTurn_primes (s := { s with moves := rest }) h hne⟩
  · exact absurd (hostRead_primes _ off) hne
  · exact absurd (portWrite_primes _ off v) hne
  · exact absurd hm (hreset lost rest)

/-! ### The key form -/

/-- The key form speaks of KP, KQ, KPHI and KEYGEN only. -/
theorem State.keyForm_congr {s t : State} (h : t.primes = s.primes) (hs : s.keyForm) : t.keyForm := by
  simp only [State.primes, Prod.mk.injEq] at h
  obtain ⟨hp, hq, hphi, hg⟩ := h
  unfold State.keyForm
  rwa [hp, hq, hphi, hg]

/-- The key registers of a pair of 32-bit primes hold the primes and their totient (42_cipher.md rule R199). -/
theorem KeyPair.registers_toNat {z : KeyPair} (hp : z.p < 2 ^ 32) (hq : z.q < 2 ^ 32) :
    z.registers.kp.toNat = z.p ∧ z.registers.kq.toNat = z.q ∧ z.p * z.q < 2 ^ 64 ∧
      z.registers.kphi.toNat = totient z.p z.q := by
  have hpq : z.p * z.q < 2 ^ 32 * 2 ^ 32 := Nat.mul_lt_mul'' hp hq
  have hphi : totient z.p z.q ≤ z.p * z.q := Nat.mul_le_mul (Nat.sub_le _ _) (Nat.sub_le _ _)
  exact ⟨Nat.mod_eq_of_lt (by omega), Nat.mod_eq_of_lt (by omega), by omega, Nat.mod_eq_of_lt (by omega)⟩

/-- So the key registers have the form KEYGEN = 1 asks for. -/
theorem KeyPair.registers_form {z : KeyPair} (hp : z.p < 2 ^ 32) (hq : z.q < 2 ^ 32) (hne : z.p ≠ z.q)
    (hbig : 128 ≤ z.p * z.q) :
    z.registers.kp ≠ z.registers.kq ∧ 128 ≤ z.registers.kp.toNat * z.registers.kq.toNat ∧
      z.registers.kp.toNat * z.registers.kq.toNat < 2 ^ 64 ∧
      z.registers.kphi.toNat = (z.registers.kp.toNat - 1) * (z.registers.kq.toNat - 1) := by
  obtain ⟨hkp, hkq, hfit, hphi⟩ := KeyPair.registers_toNat hp hq
  rw [ne_eq, ← BitVec.toNat_inj, hkp, hkq, hphi]
  exact ⟨hne, hbig, hfit, rfl⟩

theorem exec_keyForm (i : Instr) (s t : State) (hexec : exec i s = .next t) (hs : s.keyForm) : t.keyForm := by
  by_cases hk : i = .kcKeygen
  · subst hk
    obtain ⟨r, c, -, hu⟩ | ⟨z, r, hl, hz, hu⟩ := exec_kcKeygen_cases s <;> cases hexec.symm.trans hu
    · exact State.keyForm_congr rfl hs
    · obtain ⟨-, hp, -, hq, hne, hbig⟩ := State.search_primes hl hz
      exact ⟨fun h => Bool.noConfusion h, fun _ => KeyPair.registers_form hp hq hne hbig⟩
  · exact State.keyForm_congr (exec_primes hk hexec) hs

theorem reset_keyForm : State.reset.keyForm := by decide

theorem keyForm_stepInvariant : StepInvariant State.keyForm where
  moves _ _ h := h
  portData _ _ h := h
  refused _ h := h
  write _ _ _ _ hw h := State.keyForm_congr hw.primes h
  reset _ _ _ := State.keyForm_congr rfl reset_keyForm
  illegal _ h := h
  exec := exec_keyForm

/-- Settles O18: kc.keygen writes a pair of its search, 32-bit primes with a product from 128 on, and nothing else but reset
writes the primes. -/
theorem stepKeepsKeyForm : Obligations.StepKeepsKeyForm :=
  fun _ _ hs h => keyForm_stepInvariant.step hs h

end Sys2Proof.Machine
end

section
/-! The register form (obligation O17): PENDING is the word in LASTCMD (10_state.md rule R24), LASTERR holds a code of
60_exceptions.md rule R231, and SEPLEN is at most 4 (rule R42). -/

namespace Sys2Proof.Machine

/-- What a write to SEPLEN stores is the low three bits of the value, at most 4 (rule R42). -/
theorem sepLenOf_toNat (v : Word32) : (sepLenOf v).toNat = min (v.toNat % 8) 4 := by
  have hlow : (v.extractLsb' 0 3).toNat = v.toNat % 8 := by simp
  unfold sepLenOf
  simp only [hlow]
  split
  · rw [hlow]; omega
  · show 4 = _; omega

/-- A completion leaves a code of rule R231, and no command's pseudocode writes PENDING, LASTCMD or SEPLEN. -/
theorem exec_registerForm (i : Instr) (s t : State) (hexec : exec i s = .next t) (h : s.registerForm) :
    t.registerForm := by
  obtain ⟨hpending, -, hsep⟩ := h
  obtain ⟨u, c, hu, hcontrol⟩ := exec_completes_control i s
  cases hexec.symm.trans hu
  have hp : u.pending = s.pending := congrArg Control.pending hcontrol
  have hl : u.lastCmd = s.lastCmd := congrArg Control.lastCmd hcontrol
  have hc : u.cfg = s.cfg := congrArg Control.cfg hcontrol
  refine ⟨?_, ErrCode.byte_legal c, ?_⟩
  · rw [State.complete_pending, State.complete_lastCmd, hp, hl, hpending]
  · rw [State.complete_cfg, hc]; exact hsep

theorem HostWrite.registerForm {s t : State} {v : Word32} {p : Place} (hw : HostWrite s v p t) (h : s.registerForm) :
    t.registerForm := by
  obtain ⟨hpending, herr, hsep⟩ := h
  cases hw with
  | status | register | key => exact ⟨hpending, herr, hsep⟩
  | cmd => exact ⟨rfl, herr, hsep⟩
  | config c hc =>
    refine ⟨hpending, herr, ?_⟩
    show c.sepLen.toNat ≤ 4
    obtain hc | hc := hc <;> rw [hc]
    · exact hsep
    · rw [sepLenOf_toNat]; omega
  | memory a => simp [State.registerForm, hpending, herr, hsep]

theorem reset_registerForm : State.reset.registerForm := by decide

theorem registerForm_stepInvariant : StepInvariant State.registerForm where
  moves _ _ h := h
  portData _ _ h := h
  refused _ h := h
  write _ _ _ _ hw h := hw.registerForm h
  reset _ _ _ := reset_registerForm
  illegal _ h := ⟨h.1, ErrCode.byte_legal .illegal, h.2.2⟩
  exec := exec_registerForm

/-- Settles O17: acceptance writes PENDING and LASTCMD together, a completion leaves a legal code, and a write to SEPLEN is
capped at 4. -/
theorem stepKeepsRegisterForm : Obligations.StepKeepsRegisterForm :=
  fun _ _ hs h => registerForm_stepInvariant.step hs h

end Sys2Proof.Machine
end

section
/-! The status bits (obligations O9, O10, O19): BUSY, ERR and ACCERR under an engine turn, a host access and reset (10_state.md
rules R25, R28 to R31). -/

namespace Sys2Proof.Machine

/-! ### Where CMD and STATUS stand (10_state.md rule R26) -/

/-- The word index of a place, the register map read the other way round. -/
def Place.word : Place → Nat
  | .id => 0
  | .status => 1
  | .cmd => 2
  | .lastErr => 3
  | .cfgK => 4
  | .cfgCap => 5
  | .cfgPmin => 6
  | .cfgPmax => 7
  | .sep => 8
  | .sepLen => 9
  | .cmdCnt => 10
  | .draws => 11
  | .deH i => 0x040 / 4 + i.val
  | .deLen hi => 0x050 / 4 + hi.toNat
  | .deFill => 0x058 / 4
  | .dg i => 0x060 / 4 + i.val
  | .x i hi => 0x080 / 4 + 2 * i.val + hi.toNat
  | .key r hi => 0x0C0 / 4 + 2 * keyOrder.idxOf r + hi.toNat
  | .deBuf k => 0x100 / 4 + k.val
  | .bmem a => (0x1000 + a) / 4

theorem toNat_odd (n : Nat) : (n % 2 == 1).toNat = n % 2 := by
  obtain h | h := Nat.mod_two_eq_zero_or_one n <;> rw [h] <;> rfl

/-- The register map has every place at its own word, and no place twice. -/
theorem placeAt_word {size word : Nat} {p : Place} (h : placeAt size word = some p) : p.word = word := by
  unfold placeAt at h
  split_ifs at h
  · interval_cases word <;> cases h <;> rfl
  · cases h; simp only [Place.word, Fin.ofNat]; omega
  · cases h; simp only [Place.word, Bool.toNat_false]; omega
  · cases h; simp only [Place.word, Bool.toNat_true]; omega
  · cases h; simp only [Place.word]; omega
  · cases h; simp only [Place.word, Fin.ofNat]; omega
  · cases h; simp only [Place.word, Fin.ofNat, toNat_odd]; omega
  · obtain ⟨r, hr, rfl⟩ := Option.map_eq_some_iff.mp h
    obtain ⟨hlt, rfl⟩ := List.getElem?_eq_some_iff.mp hr
    simp only [Place.word, List.Nodup.idxOf_getElem (show keyOrder.Nodup by decide), toNat_odd]
    omega
  · cases h; simp only [Place.word, Fin.ofNat]; omega
  · cases h; simp only [Place.word]; omega

/-- So a place is reached at one offset only. -/
theorem locate_toNat {size : Nat} {off : Offset} {p : Place} (h : locate size off = some p) :
    off.toNat = 4 * p.word := by
  unfold locate at h
  split at h
  · rw [placeAt_word h]; omega
  · cases h

theorem locate_eq_status {size : Nat} {off : Offset} (h : locate size off = some .status) : off = 0x004 :=
  BitVec.eq_of_toNat_eq (locate_toNat h)

theorem locate_eq_cmd {size : Nat} {off : Offset} (h : locate size off = some .cmd) : off = 0x008 :=
  BitVec.eq_of_toNat_eq (locate_toNat h)

/-! ### STATUS after each move -/

/-- Everything a host write can do to STATUS: only CMD and STATUS itself reach it. -/
theorem portWrite_status_cases (s : State) (off : Offset) (v : Word32) :
    s.portWrite off v = s.refused ∨ (off = 0x008 ∧ s.portWrite off v = s.accept v) ∨
      (off = 0x004 ∧ (s.portWrite off v).status = s.status.clearBy v) ∨ (s.portWrite off v).status = s.status := by
  obtain h | ⟨p, hp, hw⟩ := portWrite_hostWrite s off v
  · exact .inl h
  · generalize s.portWrite off v = t at hw ⊢
    cases hw with
    | status => exact .inr (.inr (.inl ⟨locate_eq_status hp, rfl⟩))
    | cmd => exact .inr (.inl ⟨locate_eq_cmd hp, rfl⟩)
    | config | register | key => exact .inr (.inr (.inr rfl))
    | memory a => exact .inr (.inr (.inr (s.memWrite_status a _)))

/-- The engine's turn with BUSY = 1 is one completion, of a state with the control state it began with. -/
theorem engineTurn_completes {s : State} (hb : s.status.busy = true) :
    ∃ u c, engineTurn s = .next (State.complete u c) ∧ u.control = s.control := by
  obtain ⟨hidle, -⟩ | ⟨-, i, -, h⟩ | ⟨-, -, -, h⟩ := engineTurn_cases s
  · exact absurd (hidle.symm.trans hb) Bool.false_ne_true
  · rw [h]; exact exec_completes_control i s
  · exact ⟨s, .illegal, h, rfl⟩

/-- The engine's turn with BUSY = 0 is idle (70_reset_and_hazards.md rule R264). -/
theorem engineTurn_idle {s : State} (hb : s.status.busy = false) : engineTurn s = .next s := by
  unfold engineTurn
  rw [hb]
  rfl

/-- The engine's turn lowers BUSY if it is up, and neither clears ERR nor touches ACCERR. -/
theorem engineTurn_status {s t : State} (h : engineTurn s = .next t) :
    t.status.busy = false ∧ (s.status.err = true → t.status.err = true) ∧ t.status.accErr = s.status.accErr := by
  cases hb : s.status.busy with
  | false =>
    cases (engineTurn_idle hb).symm.trans h
    exact ⟨hb, id, rfl⟩
  | true =>
    obtain ⟨u, c, hu, hcontrol⟩ := engineTurn_completes hb
    cases hu.symm.trans h
    have herr : u.status.err = s.status.err := congrArg Control.err hcontrol
    have hacc : u.status.accErr = s.status.accErr := congrArg Control.accErr hcontrol
    exact ⟨rfl, fun he => by simp [herr, he], hacc⟩

/-- A host read leaves STATUS but for ACCERR. -/
theorem hostRead_status (s : State) (off : Offset) :
    s.hostRead off = State.refused { s with portData := 0 } ∨ (s.hostRead off).status = s.status := by
  obtain h | ⟨v, h⟩ := hostRead_cases s off
  · exact .inl h
  · exact .inr (by rw [h])

/-! ### BUSY (10_state.md rules R25, R29) -/

/-- Settles O9: of the moves only an accepted CMD write raises BUSY, and no host access lowers it. -/
theorem busyOnlyByAcceptanceAndCompletion : Obligations.BusyOnlyByAcceptanceAndCompletion := by
  intro s t h
  obtain ⟨hm, h⟩ | ⟨rest, hm, h⟩ | ⟨off, rest, hm, rfl⟩ | ⟨off, v, rest, hm, rfl⟩ | ⟨lost, rest, hm, rfl⟩ := step_cases h
  · exact ⟨fun _ hup => absurd (engineTurn_status h).1 (by simp [hup]), fun _ _ => .inl hm⟩
  · exact ⟨fun _ hup => absurd (engineTurn_status h).1 (by simp [hup]), fun _ _ => .inr (.inl ⟨rest, hm⟩)⟩
  · have hkept : (State.hostRead { s with moves := rest } off).status.busy = s.status.busy := by
      obtain h | h := hostRead_status { s with moves := rest } off <;> rw [h]
      rfl
    exact ⟨by simp +contextual [hkept], by simp +contextual [hkept]⟩
  · obtain h | ⟨rfl, h⟩ | ⟨-, h⟩ | h := portWrite_status_cases { s with moves := rest } off v
    · rw [h]
      exact ⟨by simp +contextual [State.refused], by simp +contextual [State.refused]⟩
    · exact ⟨fun _ _ => ⟨v, rest, hm⟩, by rw [h]; exact fun _ hdown => Bool.noConfusion hdown⟩
    · exact ⟨by simp +contextual [h, Status.clearBy], by simp +contextual [h, Status.clearBy]⟩
    · exact ⟨by simp +contextual [h], by simp +contextual [h]⟩
  · exact ⟨fun _ hup => absurd hup Bool.false_ne_true, fun _ _ => .inr (.inr ⟨lost, rest, hm⟩)⟩

/-! ### ERR and ACCERR (10_state.md rules R28, R30, R31) -/

/-- A completion sets ERR by its code (rule R30). -/
theorem engineTurn_err {s t : State} (hb : s.status.busy = true) (h : engineTurn s = .next t) :
    (t.lastErr ≠ 0x00 → t.status.err = true) ∧ (t.lastErr = 0x00 → t.status.err = s.status.err) := by
  obtain ⟨u, c, hu, hcontrol⟩ := engineTurn_completes hb
  cases hu.symm.trans h
  exact ⟨State.complete_err_of_error u, fun hok => (State.complete_err_of_ok u hok).trans (congrArg Control.err hcontrol)⟩

/-- Everything a step can do to ERR and ACCERR that are set: they stay, or a STATUS write or reset clears them. -/
theorem step_sticky_cases {s t : State} (h : step s = .next t) :
    ((s.status.err = true → t.status.err = true) ∧ (s.status.accErr = true → t.status.accErr = true)) ∨
      (∃ v rest, s.moves = .hostWrite 0x004 v :: rest ∧ t.status = s.status.clearBy v) ∨
      ∃ lost rest, s.moves = .reset lost :: rest := by
  obtain ⟨-, h⟩ | ⟨rest, -, h⟩ | ⟨off, rest, -, rfl⟩ | ⟨off, v, rest, hm, rfl⟩ | ⟨lost, rest, hm, -⟩ := step_cases h
  · obtain ⟨-, herr, hacc⟩ := engineTurn_status h
    exact .inl ⟨herr, hacc.trans⟩
  · obtain ⟨-, herr, hacc⟩ := engineTurn_status h
    exact .inl ⟨herr, hacc.trans⟩
  · obtain h | h := hostRead_status { s with moves := rest } off <;> rw [h]
    · exact .inl ⟨id, fun _ => rfl⟩
    · exact .inl ⟨id, id⟩
  · obtain h | ⟨-, h⟩ | ⟨rfl, h⟩ | h := portWrite_status_cases { s with moves := rest } off v
    · rw [h]; exact .inl ⟨id, fun _ => rfl⟩
    · rw [h]; exact .inl ⟨id, id⟩
    · exact .inr (.inl ⟨v, rest, hm, h⟩)
    · rw [h]; exact .inl ⟨id, id⟩
  · exact .inr (.inr ⟨lost, rest, hm⟩)

/-- ERR falls only by a STATUS write with bit 1 set or by reset. -/
theorem step_clears_err {s t : State} (h : step s = .next t) (hup : s.status.err = true) (hdown : t.status.err = false) :
    (∃ v rest, s.moves = .hostWrite 0x004 v :: rest ∧ v.getLsbD 1 = true) ∨
      ∃ lost rest, s.moves = .reset lost :: rest := by
  obtain ⟨hkept, -⟩ | ⟨v, rest, hm, hst⟩ | hreset := step_sticky_cases h
  · simp [hkept hup] at hdown
  · exact .inl ⟨v, rest, hm, by simpa [hst, Status.clearBy, hup] using hdown⟩
  · exact .inr hreset

/-- ACCERR falls only by a STATUS write with bit 2 set or by reset. -/
theorem step_clears_accErr {s t : State} (h : step s = .next t) (hup : s.status.accErr = true)
    (hdown : t.status.accErr = false) :
    (∃ v rest, s.moves = .hostWrite 0x004 v :: rest ∧ v.getLsbD 2 = true) ∨
      ∃ lost rest, s.moves = .reset lost :: rest := by
  obtain ⟨-, hkept⟩ | ⟨v, rest, hm, hst⟩ | hreset := step_sticky_cases h
  · simp [hkept hup] at hdown
  · exact .inl ⟨v, rest, hm, by simpa [hst, Status.clearBy, hup] using hdown⟩
  · exact .inr hreset

/-- ACCERR rises only by a refused host access, which does nothing else. -/
theorem step_sets_accErr {s t : State} (h : step s = .next t) (hdown : s.status.accErr = false)
    (hup : t.status.accErr = true) :
    ∃ rest, (∃ off, s.moves = .hostRead off :: rest ∧ t = State.refused { s with moves := rest, portData := 0 }) ∨
      ∃ off v, s.moves = .hostWrite off v :: rest ∧ t = State.refused { s with moves := rest } := by
  obtain ⟨-, h⟩ | ⟨rest, -, h⟩ | ⟨off, rest, hm, rfl⟩ | ⟨off, v, rest, hm, rfl⟩ | ⟨lost, rest, -, rfl⟩ := step_cases h
  · simp [(engineTurn_status h).2.2, hdown] at hup
  · simp [(engineTurn_status h).2.2, hdown] at hup
  · obtain h | h := hostRead_status { s with moves := rest } off
    · exact ⟨rest, .inl ⟨off, hm, h⟩⟩
    · simp [h, hdown] at hup
  · obtain h | ⟨-, h⟩ | ⟨-, h⟩ | h := portWrite_status_cases { s with moves := rest } off v
    · exact ⟨rest, .inr ⟨off, v, hm, h⟩⟩
    · simp [h, hdown] at hup
    · simp [h, Status.clearBy, hdown] at hup
    · simp [h, hdown] at hup
  · cases hup

/-- Settles O10: a completion writes ERR by its code, and of the other moves only a STATUS write and reset clear ERR or
ACCERR, and only a refusal sets ACCERR. -/
theorem stickyBitsStayUntilCleared : Obligations.StickyBitsStayUntilCleared :=
  ⟨fun _ _ hb h => engineTurn_err hb h, fun _ _ => step_clears_err, fun _ _ => step_clears_accErr,
    fun _ _ => step_sets_accErr⟩

end Sys2Proof.Machine
end

section
/-! The host port (obligations O19, O21 to O25): what an access does by the place at its offset (10_state.md rules R25 to R55,
20_memory.md rules R73 to R75). -/

namespace Sys2Proof.Machine

/-! ### An access by its place -/

theorem portRead_unmapped {s : State} {off : Offset} (h : locate s.params.bmemSize off = none) :
    s.portRead off = (0, s.refused) := by
  unfold State.portRead
  rw [h]
  rfl

theorem portWrite_unmapped {s : State} {off : Offset} (h : locate s.params.bmemSize off = none) (v : Word32) :
    s.portWrite off v = s.refused := by
  unfold State.portWrite
  rw [h]
  rfl

/-- A read BUSY does not bar returns the value of its place and changes nothing (20_memory.md rules R79, R87). -/
theorem portRead_mapped {s : State} {off : Offset} {p : Place} (h : locate s.params.bmemSize off = some p)
    (hb : s.status.busy = false ∨ p.readableBusy = true) : s.portRead off = (s.readPlace p, s) := by
  unfold State.portRead
  rw [h]
  exact if_neg (by obtain hb | hb := hb <;> simp [hb])

/-- A write BUSY does not bar has its place's effect. -/
theorem portWrite_mapped {s t : State} {off : Offset} {v : Word32} {p : Place}
    (h : locate s.params.bmemSize off = some p) (hb : s.status.busy = false ∨ p.writableBusy = true)
    (hw : s.writePlace v p = some t) : s.portWrite off v = t := by
  unfold State.portWrite
  rw [h]
  simp only [hw]
  exact if_neg (by obtain hb | hb := hb <;> simp [hb])

/-- A place read back after a write, BUSY being 0 before and after it. -/
theorem portRead_portWrite (s : State) (off : Offset) (v : Word32) {t : State} {p : Place}
    (h : locate s.params.bmemSize off = some p) (hb : s.status.busy = false) (hw : s.writePlace v p = some t)
    (hparams : t.params = s.params) (hb' : t.status.busy = false) :
    ((s.portWrite off v).portRead off).1 = t.readPlace p := by
  rw [portWrite_mapped h (.inl hb) hw, portRead_mapped (hparams ▸ h) (.inl hb')]

/-- A write of any place but STATUS is refused while BUSY = 1 (rule R87). -/
theorem portWrite_busy {s : State} {off : Offset} {p : Place} (h : locate s.params.bmemSize off = some p)
    (hb : s.status.busy = true) (hp : p.writableBusy = false) (v : Word32) : s.portWrite off v = s.refused := by
  unfold State.portWrite
  rw [h]
  exact if_pos (by simp [hb, hp])

/-- A write that has no effect on its place is refused, whatever BUSY is (10_state.md rule R55). -/
theorem portWrite_none {s : State} {off : Offset} {v : Word32} {p : Place} (h : locate s.params.bmemSize off = some p)
    (hw : s.writePlace v p = none) : s.portWrite off v = s.refused := by
  unfold State.portWrite
  rw [h]
  simp only [hw]
  split <;> rfl

/-! ### Unmapped offsets (10_state.md rule R53, 20_memory.md rules R74, R75) -/

/-- The words no place stands at. -/
theorem placeAt_eq_none_iff (size word : Nat) : placeAt size word = none ↔
    (12 ≤ word ∧ word < 16) ∨ word = 23 ∨ (28 ≤ word ∧ word < 32) ∨ (60 ≤ word ∧ word < 64) ∨
      (80 ≤ word ∧ word < 1024) ∨ (1024 ≤ word ∧ 0x1000 + size < 4 * word + 4) := by
  unfold placeAt
  split_ifs
  · simp only [controlPlaces, List.getElem?_eq_none_iff, List.length_cons, List.length_nil]; omega
  · simp only [false_iff]; omega
  · simp only [false_iff]; omega
  · simp only [false_iff]; omega
  · simp only [false_iff]; omega
  · simp only [false_iff]; omega
  · simp only [false_iff]; omega
  · simp only [keyOrder, Option.map_eq_none_iff, List.getElem?_eq_none_iff, List.length_cons, List.length_nil]; omega
  · simp only [false_iff]; omega
  · simp only [false_iff]; omega
  · simp only [true_iff]; omega

/-- An offset reaches nothing exactly if it is misaligned or reserved. -/
theorem locate_eq_none_iff {size : Nat} (hsize : size % 4 = 0) (off : Offset) :
    locate size off = none ↔ off.toNat % 4 ≠ 0 ∨ reservedOffset size off.toNat := by
  unfold locate
  split
  · rw [placeAt_eq_none_iff]
    unfold reservedOffset
    omega
  · simp only [true_iff]
    exact .inl ‹_›

/-- Settles O21: an unmapped offset refuses every access, and at a mapped one a read with BUSY = 0 has no side effect. -/
theorem unmappedAccessRefused : Obligations.UnmappedAccessRefused := by
  intro s off v hwf
  have hnone := locate_eq_none_iff hwf.1 off
  refine ⟨fun h => ⟨portRead_unmapped (hnone.mpr h), portWrite_unmapped (hnone.mpr h) v⟩, fun haligned hmapped hb => ?_⟩
  obtain ⟨p, hp⟩ := Option.ne_none_iff_exists'.mp fun h => (hnone.mp h).elim (· haligned) hmapped
  rw [portRead_mapped hp (.inl hb)]

/-! ### CMD (10_state.md rule R25) -/

/-- Settles O19: BUSY decides between acceptance and refusal of the write, and the engine's turn completes. -/
theorem cmdWriteAccepts : Obligations.CmdWriteAccepts := by
  intro s v
  refine ⟨fun hb => portWrite_mapped (p := .cmd) rfl (.inl hb) rfl, fun hb => portWrite_busy (p := .cmd) rfl hb rfl v,
    fun hb => ⟨fun i hi => ?_, ?_⟩⟩
  · simp only [engineTurn, hb, hi, if_true]
  · obtain ⟨u, c, hu, -⟩ := engineTurn_completes hb
    exact ⟨_, hu, rfl⟩

/-! ### Read-only registers (10_state.md rule R55) -/

/-- The places of the read-only registers. -/
def Place.isReadOnly : Place → Bool
  | .id | .lastErr | .cmdCnt | .draws | .deH _ | .deLen _ | .deFill | .dg _ | .deBuf _ => true
  | .key r _ => r == .kp || r == .kq || r == .kphi
  | .status | .cmd | .cfgK | .cfgCap | .cfgPmin | .cfgPmax | .sep | .sepLen | .x _ _ | .bmem _ => false

theorem writePlace_isReadOnly {p : Place} (hp : p.isReadOnly = true) (s : State) (v : Word32) :
    s.writePlace v p = none := by
  cases p with
  | id | lastErr | cmdCnt | draws | deH | deLen | deFill | dg | deBuf => rfl
  | key r hi =>
    cases r with
    | kn | ke | kd => cases hp
    | kp | kq | kphi => rfl
  | status | cmd | cfgK | cfgCap | cfgPmin | cfgPmax | sep | sepLen | x | bmem => cases hp

/-- Below the window BMEM_SIZE plays no part in the register map. -/
theorem locate_below_window (size : Nat) {off : Offset} (h : off.toNat < 0x1000) : locate size off = locate 0 off := by
  have hwindow : ¬0x1000 / 4 ≤ off.toNat / 4 := by omega
  simp only [locate, placeAt, hwindow, false_and, if_false]

/-- Settles O22: at each listed offset stands a read-only place. -/
theorem readOnlyWritesRefused : Obligations.ReadOnlyWritesRefused := by
  intro s v off hoff
  have hmap : ∀ o ∈ readOnlyOffsets, (BitVec.ofNat 16 o).toNat < 0x1000 ∧
      (locate 0 (BitVec.ofNat 16 o)).any Place.isReadOnly = true := by decide
  obtain ⟨hlow, hany⟩ := hmap off hoff
  obtain ⟨p, hp, hro⟩ := (Option.any_eq_true _ _).mp hany
  exact portWrite_none ((locate_below_window _ hlow).trans hp) (writePlace_isReadOnly hro s v)

/-! ### STATUS (10_state.md rule R28) -/

theorem flagBit_getLsbD (f : Bool) (i : Nat) : (flagBit f).getLsbD i = (decide (i = 0) && f) := by
  cases f <;> simp [flagBit]

/-- The bits of the STATUS word. -/
theorem Status.word_getLsbD (t : Status) (i : Nat) : t.word.getLsbD i =
    (if i = 0 then t.busy else if i = 1 then t.err else if i = 2 then t.accErr else if i = 3 then t.keygen
      else if i = 4 then t.dvalid else if i = 5 then t.dsess else false) := by
  simp only [Status.word, BitVec.getLsbD_or, BitVec.getLsbD_shiftLeft, flagBit_getLsbD]
  by_cases hi : i < 6
  · interval_cases i <;> simp
  · have h (n : Nat) (hn : n < 6) : decide (i - n = 0) = false := by simp; omega
    simp [h, show ∀ n < 6, i ≠ n by omega]

/-- Settles O23: STATUS is readable and writable in every state; its bits are those of the status word. -/
theorem statusReadAndClear : Obligations.StatusReadAndClear := by
  refine ⟨fun s => ?_, fun s v => portWrite_mapped (p := .status) rfl (.inr rfl) rfl, rfl⟩
  rw [portRead_mapped (p := .status) rfl (.inr rfl)]
  exact ⟨rfl, s.status.word_getLsbD⟩

/-! ### Configuration registers (10_state.md rules R37 to R42) -/

theorem sepLenOf_eq (v : Word32) : sepLenOf v = BitVec.ofNat 3 (min (v.toNat % 8) 4) := by
  apply BitVec.eq_of_toNat_eq
  rw [sepLenOf_toNat, BitVec.toNat_ofNat]
  omega

theorem low_byte (v : Word32) : v.extractLsb' 0 8 = v.setWidth 8 := by
  apply BitVec.eq_of_toNat_eq
  simp

/-- Settles O24: the effect of each write is its place's, and the read after it returns what was stored. -/
theorem configurationReadsBack : Obligations.ConfigurationReadsBack := by
  intro s v hb
  refine ⟨low_byte v ▸ portWrite_mapped (p := .cfgK) rfl (.inl hb) rfl,
    portWrite_mapped (p := .cfgCap) rfl (.inl hb) rfl, portWrite_mapped (p := .cfgPmin) rfl (.inl hb) rfl,
    portWrite_mapped (p := .cfgPmax) rfl (.inl hb) rfl, portWrite_mapped (p := .sep) rfl (.inl hb) rfl,
    sepLenOf_eq v ▸ portWrite_mapped (p := .sepLen) rfl (.inl hb) rfl, ?_, ?_, ?_, ?_, ?_, ?_⟩
  · rw [portRead_portWrite s 0x010 v (p := .cfgK) rfl hb rfl rfl hb]
    show ((v.extractLsb' 0 8).setWidth 32).toNat = _
    rw [low_byte, BitVec.toNat_setWidth, BitVec.toNat_setWidth]
    omega
  · rw [portRead_portWrite s 0x014 v (p := .cfgCap) rfl hb rfl rfl hb]; rfl
  · rw [portRead_portWrite s 0x018 v (p := .cfgPmin) rfl hb rfl rfl hb]; rfl
  · rw [portRead_portWrite s 0x01C v (p := .cfgPmax) rfl hb rfl rfl hb]; rfl
  · rw [portRead_portWrite s 0x020 v (p := .sep) rfl hb rfl rfl hb]; rfl
  · rw [portRead_portWrite s 0x024 v (p := .sepLen) rfl hb rfl rfl hb]
    show ((sepLenOf v).setWidth 32).toNat = _
    rw [BitVec.toNat_setWidth, sepLenOf_toNat]
    omega

/-! ### Register halves (10_state.md rules R22, R50) -/

theorem locate_xLow (size : Nat) (i : Reg) : locate size (BitVec.ofNat 16 (0x080 + 8 * i.val)) = some (.x i false) := by
  fin_cases i <;> rfl

theorem locate_xHigh (size : Nat) (i : Reg) : locate size (BitVec.ofNat 16 (0x084 + 8 * i.val)) = some (.x i true) := by
  fin_cases i <;> rfl

/-- A read of a place that shows the low half of w. -/
theorem portRead_low {s : State} {off : Offset} {p : Place} {w : Word64} (hb : s.status.busy = false)
    (h : locate s.params.bmemSize off = some p) (hp : s.readPlace p = half w false) :
    (s.portRead off).1.toNat = w.toNat % 2 ^ 32 := by
  rw [portRead_mapped h (.inl hb)]
  show (s.readPlace p).toNat = _
  rw [hp, half_low, lowHalf_toNat]

/-- A read of a place that shows the high half of w. -/
theorem portRead_high {s : State} {off : Offset} {p : Place} {w : Word64} (hb : s.status.busy = false)
    (h : locate s.params.bmemSize off = some p) (hp : s.readPlace p = half w true) :
    (s.portRead off).1.toNat = w.toNat / 2 ^ 32 := by
  rw [portRead_mapped h (.inl hb)]
  show (s.readPlace p).toNat = _
  rw [hp, half_high, highHalf_toNat]

/-- Settles O25: the offset picks the half, and the write keeps the other. -/
theorem registerHalvesAreIndependent : Obligations.RegisterHalvesAreIndependent := by
  intro s i v hb
  simp only [← withHalf_low, ← withHalf_high]
  exact ⟨portWrite_mapped (locate_xLow _ i) (.inl hb) rfl, portWrite_mapped (locate_xHigh _ i) (.inl hb) rfl,
    portRead_low hb (locate_xLow _ i) rfl, portRead_high hb (locate_xHigh _ i) rfl,
    portWrite_mapped (p := .key .kn false) rfl (.inl hb) rfl, portWrite_mapped (p := .key .kn true) rfl (.inl hb) rfl,
    portWrite_mapped (p := .key .ke false) rfl (.inl hb) rfl, portWrite_mapped (p := .key .ke true) rfl (.inl hb) rfl,
    portWrite_mapped (p := .key .kd false) rfl (.inl hb) rfl, portWrite_mapped (p := .key .kd true) rfl (.inl hb) rfl,
    portRead_low (p := .key .kn false) hb rfl rfl, portRead_high (p := .key .kn true) hb rfl rfl,
    portRead_low (p := .key .ke false) hb rfl rfl, portRead_high (p := .key .ke true) hb rfl rfl,
    portRead_low (p := .key .kd false) hb rfl rfl, portRead_high (p := .key .kd true) hb rfl rfl⟩

end Sys2Proof.Machine
end

section
/-! Reset (obligations O13, O14): the reset event leaves the values of 10_state.md rule R56, and they meet the forms. -/

namespace Sys2Proof.Machine

/-- The step that is a reset answers the reset event. -/
theorem step_reset {s : State} {lost : Nat} {rest : List Move} (h : s.moves = .reset lost :: rest) :
    step s = .next ({ s with moves := rest }.resetEvent lost) := by
  simp only [step, nextTurn, h, runMove]

theorem reset_readX (i : Reg) : State.reset.readX i = 0 := Vector.getElem_replicate i.isLt

theorem reset_buf (j : Fin 64) : State.reset.de.buf[j] = 0x00 := Vector.getElem_replicate j.isLt

/-- Settles O13: every field of the reset event is that of State.reset, but for the parameters. -/
theorem resetValues : Obligations.ResetValues := by
  intro s lost rest h
  exact ⟨_, step_reset h, reset_readX, rfl, rfl, rfl, rfl, rfl, rfl, rfl, rfl, rfl, rfl, rfl, rfl, rfl, rfl, rfl,
    reset_buf, rfl, rfl, fun _ => rfl, rfl⟩

theorem reset_memoryForm : State.reset.memoryForm :=
  ⟨by decide, reset_bmem_wf, fun _ h => absurd h List.not_mem_nil⟩

/-- Settles O14: the four forms hold of the reset values. -/
theorem resetMeetsForms : Obligations.ResetMeetsForms :=
  ⟨reset_memoryForm, reset_digestForm, reset_registerForm, reset_keyForm⟩

end Sys2Proof.Machine
end

section
/-! The memory form (obligation O15): a command stores to BMEM inside the range it checked (20_memory.md rule R76), a host
write inside the window (rules R73, R75), and both keep the canonical form. -/

namespace Sys2Proof.Machine

/-! ### The lengths of what is stored -/

theorem length_hexPair (b : Byte) : (hexPair b).length = 2 := rfl

/-- A rendering has two digits a byte, and a separator before every byte but the first (40_digest.md rule R121). -/
theorem length_hexRender (b : Byte) (bs sep : List Byte) :
    (hexRender (b :: bs) sep).length = 2 + bs.length * (sep.length + 2) := by
  simp [hexRender, length_hexPair]

/-- So the 16 digest bytes take at most the length de.hex checks (40_digest.md rule R126). -/
theorem length_hexRender_digest_le (h : HashState) (c : ConfigRegs) :
    (hexRender h.bytes c.sepBytes).length ≤ 32 + 15 * c.sepLen.toNat := by
  have hsep : c.sepBytes.length ≤ c.sepLen.toNat := List.length_take_le _ _
  have hlen : (hexRender h.bytes c.sepBytes).length = 2 + 15 * (c.sepBytes.length + 2) := length_hexRender _ _ _
  omega

/-- Each ciphertext word takes 8 bytes (42_cipher.md rule R210). -/
theorem length_cipherBytes (c : List Nat) : (cipherBytes c).length = 8 * c.length := by
  simp [cipherBytes, bytesLe64, Nat.mul_comm]

theorem length_encodeText (mode : MulmodMode) (p : List Byte) (n e : Nat) :
    (encodeText mode p n e).length = blockCount p.length (bpb n) := by
  simp [encodeText]

/-! ### What a command does to BMEM -/

/-- u has the BMEM of s with bytes stored inside the range command i stores to, which lies in BMEM. -/
def StoresInRange (i : Instr) (s u : State) : Prop :=
  ∃ bs : List Byte, bs.length ≤ (storedRange i s).2 ∧
    (storedRange i s).1 + (storedRange i s).2 ≤ s.params.bmemSize ∧
    u.bmem = (s.memWrite (storedRange i s).1 bs).bmem

theorem State.inRange_of_not {s : State} {addr len : Nat} (h : ¬(!s.inRange addr len) = true) :
    addr + len ≤ s.params.bmemSize := by
  simpa [State.inRange] using h

theorem updatePart_bmem (src len : Nat) (s : State) : (updatePart src len s).state.bmem = s.bmem := by
  obtain ⟨-, h⟩ | ⟨-, -, h⟩ | ⟨-, -, h⟩ := updatePart_cases src len s <;> rw [h] <;> rfl

theorem finalPart_bmem (s : State) : (finalPart s).state.bmem = s.bmem := by
  obtain ⟨-, h⟩ | ⟨-, h⟩ := finalPart_cases s <;> rw [h] <;> rfl

theorem exec_session_bmem {i : Instr} (hi : sessionCommand i = true) (s : State) :
    ∃ u c, exec i s = .next (State.complete u c) ∧ (u.bmem = s.bmem ∨ StoresInRange i s u) := by
  obtain ⟨u, c, hu, hmem⟩ := exec_session_keeps (P := fun t => t.bmem = s.bmem) (fun _ h => h)
    (fun src len t h => (updatePart_bmem src len t).trans h) (fun t h => (finalPart_bmem t).trans h) hi rfl
  exact ⟨u, c, hu, .inl hmem⟩

/-- Everything a command can do to BMEM before it completes: nothing, or a store in its range. -/
theorem exec_bmem (i : Instr) (s : State) :
    ∃ u c, exec i s = .next (State.complete u c) ∧ (u.bmem = s.bmem ∨ StoresInRange i s u) := by
  cases i with
  | deInit | deUpdate | deFinal | deHash => exact exec_session_bmem rfl s
  | kcKeygen =>
    obtain ⟨r, c, -, h⟩ | ⟨z, r, -, -, h⟩ := exec_kcKeygen_cases s <;> exact ⟨_, _, h, .inl rfl⟩
  | nop | arGcd | arEgcd | kcBpb => exact ⟨_, _, rfl, .inl rfl⟩
  | arPowmod | arJacobi | arPrime =>
    refine ⟨_, _, rfl, .inl ?_⟩
    split <;> rfl
  | arInv =>
    refine ⟨_, _, rfl, .inl ?_⟩
    split
    · rfl
    · split <;> rfl
  | deHex d1 s1 =>
    refine ⟨_, _, rfl, ?_⟩
    split
    · exact .inl rfl
    · split
      · exact .inl rfl
      · exact .inr ⟨_, length_hexRender_digest_le s.dg s.cfg, State.inRange_of_not ‹_›, rfl⟩
  | kcEncode d1 s1 s2 s3 =>
    refine ⟨_, _, rfl, ?_⟩
    split
    · exact .inl rfl
    · split
      · exact .inl rfl
      · split
        · exact .inl rfl
        · refine .inr ⟨_, ?_, State.inRange_of_not ‹_›, rfl⟩
          rw [length_cipherBytes, length_encodeText, State.length_memRead]
          rfl
  | kcDecode d1 s1 s2 s3 =>
    refine ⟨_, _, rfl, ?_⟩
    split
    · exact .inl rfl
    · split
      · exact .inl rfl
      · split
        · exact .inl rfl
        · exact .inr ⟨_, le_rfl, State.inRange_of_not ‹_›, rfl⟩

/-! ### The memory form under each move -/

/-- The memory form speaks of BMEM and the parameters only. -/
theorem State.memoryForm_congr {s t : State} (hmem : t.bmem = s.bmem) (hparams : t.params = s.params)
    (h : s.memoryForm) : t.memoryForm := by
  unfold State.memoryForm
  rwa [hmem, hparams]

/-- A store inside BMEM keeps the memory form. -/
theorem State.memWrite_memoryForm {s : State} {a : Nat} {bs : List Byte} (hin : a + bs.length ≤ s.params.bmemSize)
    (h : s.memoryForm) : (s.memWrite a bs).memoryForm := by
  obtain ⟨hparams, hwf, hbound⟩ := h
  refine ⟨(s.memWrite_params a bs).symm ▸ hparams, s.wf_memWrite a bs hwf, fun c hc => ?_⟩
  rw [State.memWrite_params]
  obtain ⟨-, hlt⟩ | hold := s.mem_memWrite a bs c hc
  · omega
  · exact hbound c hold

theorem StoresInRange.memoryForm {i : Instr} {s u : State} (hstore : StoresInRange i s u) (hparams : u.params = s.params)
    (h : s.memoryForm) : u.memoryForm := by
  obtain ⟨bs, hlen, hin, hmem⟩ := hstore
  have hkept : (s.memWrite (storedRange i s).1 bs).memoryForm := State.memWrite_memoryForm (by omega) h
  exact State.memoryForm_congr hmem (hparams.trans (s.memWrite_params _ bs).symm) hkept

theorem exec_params {i : Instr} {s t : State} (hexec : exec i s = .next t) : t.params = s.params := by
  obtain ⟨u, c, hu, hcontrol⟩ := exec_completes_control i s
  cases hexec.symm.trans hu
  exact congrArg Control.params hcontrol

theorem exec_memoryForm (i : Instr) (s t : State) (hexec : exec i s = .next t) (h : s.memoryForm) :
    t.memoryForm ∧ t.params = s.params := by
  have hparams : t.params = s.params := exec_params hexec
  obtain ⟨u, c, hu, hmem⟩ := exec_bmem i s
  cases hexec.symm.trans hu
  refine ⟨?_, hparams⟩
  obtain hmem | hstore := hmem
  · exact State.memoryForm_congr (t := u.complete c) hmem hparams h
  · exact State.memoryForm_congr rfl rfl (hstore.memoryForm hparams h)

theorem engineTurn_memoryForm {s t : State} (hturn : engineTurn s = .next t) (h : s.memoryForm) :
    t.memoryForm ∧ t.params = s.params := by
  obtain ⟨-, hs⟩ | ⟨-, i, -, hs⟩ | ⟨-, -, -, hs⟩ := engineTurn_cases s <;> rw [hs] at hturn
  · cases hturn; exact ⟨h, rfl⟩
  · exact exec_memoryForm i s t hturn h
  · cases hturn; exact ⟨h, rfl⟩

/-- The register map from the window on (20_memory.md rules R73, R75). -/
theorem placeAt_window {size word : Nat} (h : 0x1000 / 4 ≤ word) :
    placeAt size word = if 4 * word + 4 ≤ 0x1000 + size then some (.bmem (4 * word - 0x1000)) else none := by
  unfold placeAt
  iterate 9 rw [if_neg (by omega)]
  simp only [h, true_and]

/-- A word of the window lies in BMEM. -/
theorem placeAt_bmem {size word a : Nat} (h : placeAt size word = some (.bmem a)) : a + 4 ≤ size := by
  have hword : (0x1000 + a) / 4 = word := placeAt_word h
  rw [placeAt_window (by omega)] at h
  split at h
  · have ha : 4 * word - 0x1000 = a := Place.bmem.inj (Option.some.inj h)
    omega
  · cases h

theorem locate_bmem {size a : Nat} {off : Offset} (h : locate size off = some (.bmem a)) : a + 4 ≤ size := by
  unfold locate at h
  split at h
  · exact placeAt_bmem h
  · cases h

theorem portWrite_memoryForm (s : State) (off : Offset) (v : Word32) (h : s.memoryForm) :
    (s.portWrite off v).memoryForm ∧ (s.portWrite off v).params = s.params := by
  obtain hr | ⟨p, hp, hw⟩ := portWrite_hostWrite s off v
  · rw [hr]; exact ⟨h, rfl⟩
  · generalize s.portWrite off v = t at hw ⊢
    cases hw with
    | status | cmd | config | register | key => exact ⟨h, rfl⟩
    | memory a => exact ⟨State.memWrite_memoryForm (locate_bmem hp) h, s.memWrite_params a _⟩

theorem hostRead_memoryForm (s : State) (off : Offset) (h : s.memoryForm) :
    (s.hostRead off).memoryForm ∧ (s.hostRead off).params = s.params := by
  obtain hr | ⟨v, hr⟩ := hostRead_cases s off <;> rw [hr] <;> exact ⟨h, rfl⟩

/-- Settles O15: what an engine turn or a host write stores lies inside BMEM, reset empties the list, and no move writes the
parameters. -/
theorem stepKeepsMemoryForm : Obligations.StepKeepsMemoryForm := by
  intro s t h hstep
  obtain ⟨-, hturn⟩ | ⟨rest, -, hturn⟩ | ⟨off, rest, -, rfl⟩ | ⟨off, v, rest, -, rfl⟩ | ⟨lost, rest, -, rfl⟩ :=
    step_cases hstep
  · exact engineTurn_memoryForm hturn h
  · exact engineTurn_memoryForm (s := { s with moves := rest }) hturn h
  · exact hostRead_memoryForm { s with moves := rest } off h
  · exact portWrite_memoryForm { s with moves := rest } off v h
  · exact ⟨⟨h.1, reset_bmem_wf, fun _ hc => absurd hc List.not_mem_nil⟩, rfl⟩

end Sys2Proof.Machine
end

section
/-! The moves and the data the port carries (obligations O6, O20, O26, O27): which agent a step belongs to (20_memory.md rules
R80, R81), what BUSY bars (rule R87), and the value at each offset of the register map (10_state.md rule R26, 20_memory.md
rule R73). -/

namespace Sys2Proof.Machine

/-! ### The step by its move -/

/-- A step with a move listed is that move, taken off the list. -/
theorem step_listed {s : State} {m : Move} {rest : List Move} (h : s.moves = m :: rest) :
    step s = runMove m { s with moves := rest } := by
  unfold step nextTurn
  rw [h]

/-- The engine's turn with BUSY = 1 executes the command PENDING decodes to. -/
theorem engineTurn_decoded {s : State} {i : Instr} (hb : s.status.busy = true) (hd : decode s.pending = .ok i) :
    engineTurn s = exec i s :=
  ((cmdWriteAccepts s 0).2.2 hb).1 i hd

/-- Settles O6: the step is the listed move or the engine's turn, and BUSY decides what the engine's turn is. -/
theorem stepRunsTheDecodedCommand : Obligations.StepRunsTheDecodedCommand := by
  intro s rest
  refine ⟨fun i hb hd => ⟨fun hm => ?_, fun hm => ?_⟩, fun hb => ⟨fun hm => ?_, fun hm => ?_⟩, fun off hm => step_listed hm,
    fun off v hm => step_listed hm, fun lost hm => step_listed hm⟩
  · rw [step_idle s hm, engineTurn_decoded hb hd]
  · rw [step_listed hm]; exact engineTurn_decoded hb hd
  · rw [step_idle s hm, engineTurn_idle hb]
  · rw [step_listed hm]; exact engineTurn_idle hb

/-! ### What BUSY bars (20_memory.md rule R87) -/

/-- A read of any place but ID and STATUS is refused while BUSY = 1. -/
theorem portRead_busy {s : State} {off : Offset} {p : Place} (h : locate s.params.bmemSize off = some p)
    (hb : s.status.busy = true) (hp : p.readableBusy = false) : s.portRead off = (0, s.refused) := by
  unfold State.portRead
  rw [h]
  exact if_pos (by simp [hb, hp])

theorem locate_eq_id {size : Nat} {off : Offset} (h : locate size off = some .id) : off = 0x000 :=
  BitVec.eq_of_toNat_eq (locate_toNat h)

/-- The places readable while BUSY = 1 stand at 0x000 and 0x004. -/
theorem locate_readableBusy {size : Nat} {off : Offset} {p : Place} (h : locate size off = some p)
    (hp : p.readableBusy = true) : off = 0x000 ∨ off = 0x004 := by
  cases p with
  | id => exact .inl (locate_eq_id h)
  | status => exact .inr (locate_eq_status h)
  | _ => cases hp

/-- The place writable while BUSY = 1 stands at 0x004. -/
theorem locate_writableBusy {size : Nat} {off : Offset} {p : Place} (h : locate size off = some p)
    (hp : p.writableBusy = true) : off = 0x004 := by
  cases p with
  | status => exact locate_eq_status h
  | _ => cases hp

/-- Settles O20: every offset is unmapped, or its place is one BUSY bars, or it is that of ID or STATUS. -/
theorem busyPortRefuses : Obligations.BusyPortRefuses := by
  intro s off v hb
  refine ⟨portRead_mapped (p := .id) rfl (.inr rfl), portRead_mapped (p := .status) rfl (.inr rfl),
    portWrite_mapped (p := .status) rfl (.inr rfl) rfl, fun hid hstatus => ?_, fun hstatus => ?_⟩
  · cases h : locate s.params.bmemSize off with
    | none => exact portRead_unmapped h
    | some p =>
      refine portRead_busy h hb (Bool.eq_false_iff.mpr fun hp => ?_)
      exact (locate_readableBusy h hp).elim hid hstatus
  · cases h : locate s.params.bmemSize off with
    | none => exact portWrite_unmapped h v
    | some p => exact portWrite_busy h hb (Bool.eq_false_iff.mpr fun hp => hstatus (locate_writableBusy h hp)) v

/-! ### Four bytes as a word (00_scope.md rule R11) -/

theorem toNat_append_eq {m n : Nat} (x : BitVec m) (y : BitVec n) : (x ++ y).toNat = x.toNat * 2 ^ n + y.toNat := by
  rw [BitVec.toNat_append, ← Nat.shiftLeft_add_eq_or_of_lt y.isLt, Nat.shiftLeft_eq]

theorem le32_toNat (b0 b1 b2 b3 : Byte) :
    (le32 b0 b1 b2 b3).toNat = b0.toNat + 256 * b1.toNat + 65536 * b2.toNat + 16777216 * b3.toNat := by
  simp only [le32, toNat_append_eq]
  omega

theorem ofNat_leNat_four (b0 b1 b2 b3 : Byte) : BitVec.ofNat 32 (leNat [b0, b1, b2, b3]) = le32 b0 b1 b2 b3 := by
  have hsum : leNat [b0, b1, b2, b3] = (le32 b0 b1 b2 b3).toNat := by
    simp only [leNat, le32_toNat]
    omega
  rw [hsum, BitVec.ofNat_toNat, BitVec.setWidth_eq]

/-- Four consecutive elements of a list. -/
theorem take_four_drop {α : Type} (l : List α) (n : Nat) (h : n + 3 < l.length) :
    (l.drop n).take 4 = [l[n], l[n + 1], l[n + 2], l[n + 3]] := by
  rw [List.drop_eq_getElem_cons (by omega), List.drop_eq_getElem_cons (by omega), List.drop_eq_getElem_cons (by omega),
    List.drop_eq_getElem_cons h]
  rfl

/-- DE_BUFk is the little-endian word of BUF[4k] to BUF[4k + 3] (10_state.md rule R52). -/
theorem Session.bufWord_eq (d : Session) (k : Fin 16) :
    d.bufWord k = BitVec.ofNat 32 (leNat ((d.buf.toList.drop (4 * k.val)).take 4)) := by
  rw [take_four_drop _ _ (by rw [Vector.length_toList]; omega), ofNat_leNat_four]
  rfl

/-! ### The window (20_memory.md rule R73) -/

/-- An aligned word of the window stands at its address. -/
theorem locate_window {size a : Nat} (hsize : size ≤ 4096) (ha : a % 4 = 0) (hin : a + 4 ≤ size) :
    locate size (BitVec.ofNat 16 (0x1000 + a)) = some (.bmem a) := by
  have hoff : (BitVec.ofNat 16 (0x1000 + a)).toNat = 0x1000 + a := Nat.mod_eq_of_lt (by omega)
  unfold locate
  rw [hoff, if_pos (by omega), placeAt_window (by omega), if_pos (by omega),
    show 4 * ((0x1000 + a) / 4) - 0x1000 = a by omega]

/-- The bytes of a word stored at a, and every other byte as before. -/
theorem readByte_memWrite_word (s : State) (a k : Nat) (v : Word32) (hwf : s.bmem.wf) :
    (s.memWrite a (bytesLe32 v)).readByte k =
      if k = a then v.extractLsb' 0 8 else if k = a + 1 then v.extractLsb' 8 8
      else if k = a + 2 then v.extractLsb' 16 8 else if k = a + 3 then v.extractLsb' 24 8 else s.readByte k := by
  rw [s.readByte_memWrite a k _ hwf, show (bytesLe32 v).length = 4 from rfl]
  by_cases hin : a ≤ k ∧ k < a + 4
  · obtain ⟨j, rfl⟩ := Nat.exists_eq_add_of_le hin.1
    have hj : j < 4 := by omega
    rw [if_pos hin, Nat.add_sub_cancel_left]
    interval_cases j <;> simp [bytesLe32]
  · rw [if_neg hin, if_neg (by omega), if_neg (by omega), if_neg (by omega), if_neg (by omega)]

/-- Settles O26: the window offset reaches BMEM[a] to BMEM[a + 3], and the write is a MemWrite of the four bytes. -/
theorem windowIsLittleEndian : Obligations.WindowIsLittleEndian := by
  intro s a v hb hparams hwf ha hin
  have hplace := locate_window hparams.2 ha hin
  have hwrite : s.portWrite (BitVec.ofNat 16 (0x1000 + a)) v = s.memWrite a (bytesLe32 v) :=
    portWrite_mapped hplace (.inl hb) rfl
  rw [portRead_mapped hplace (.inl hb), hwrite]
  exact ⟨le32_toNat _ _ _ _, fun k => readByte_memWrite_word s a k v hwf, s.memWrite_only a _⟩

/-! ### The values of the register map (10_state.md rules R26 to R52) -/

/-- A refused read is refused again after it, and any other read changes nothing. -/
theorem portRead_again (s : State) (off : Offset) :
    (s.portRead off = (0, s.refused) ∧ s.refused.portRead off = (0, s.refused)) ∨ (s.portRead off).2 = s := by
  cases h : locate s.params.bmemSize off with
  | none => exact .inl ⟨portRead_unmapped h, portRead_unmapped (s := s.refused) h⟩
  | some p =>
    by_cases hopen : s.status.busy = false ∨ p.readableBusy = true
    · exact .inr (by rw [portRead_mapped h hopen])
    · have hb : s.status.busy = true := Bool.eq_true_of_not_eq_false fun hb => hopen (.inl hb)
      have hp : p.readableBusy = false := Bool.eq_false_iff.mpr fun hp => hopen (.inr hp)
      exact .inl ⟨portRead_busy h hb hp, portRead_busy (s := s.refused) h hb hp⟩

/-- The place at an offset shows a value. -/
def State.Shows (s : State) (off : Nat) (w : Word32) : Prop :=
  ∃ p, locate s.params.bmemSize (BitVec.ofNat 16 off) = some p ∧ s.readPlace p = w

theorem portRead_of_shows {s : State} {off : Nat} {w : Word32} (hb : s.status.busy = false) (h : s.Shows off w) :
    s.portRead (BitVec.ofNat 16 off) = (w, s) := by
  obtain ⟨p, hp, hv⟩ := h
  rw [portRead_mapped hp (.inl hb), hv]

theorem shows_controlValues (s : State) : ∀ c ∈ controlValues s, s.Shows c.1 c.2 := by
  simp only [controlValues, List.forall_mem_cons]
  exact ⟨⟨.id, rfl, rfl⟩, ⟨.cmd, rfl, rfl⟩, ⟨.lastErr, rfl, rfl⟩, ⟨.cfgK, rfl, rfl⟩, ⟨.cfgCap, rfl, rfl⟩,
    ⟨.cfgPmin, rfl, rfl⟩, ⟨.cfgPmax, rfl, rfl⟩, ⟨.sep, rfl, rfl⟩, ⟨.sepLen, rfl, rfl⟩, ⟨.cmdCnt, rfl, rfl⟩,
    ⟨.draws, rfl, rfl⟩, fun _ h => absurd h List.not_mem_nil⟩

theorem shows_digestValues (s : State) : ∀ c ∈ digestValues s, s.Shows c.1 c.2 := by
  simp only [digestValues, List.forall_mem_cons, ← half_low, ← half_high]
  exact ⟨⟨.deH 0, rfl, rfl⟩, ⟨.deH 1, rfl, rfl⟩, ⟨.deH 2, rfl, rfl⟩, ⟨.deH 3, rfl, rfl⟩, ⟨.deLen false, rfl, rfl⟩,
    ⟨.deLen true, rfl, rfl⟩, ⟨.deFill, rfl, rfl⟩, ⟨.dg 0, rfl, rfl⟩, ⟨.dg 1, rfl, rfl⟩, ⟨.dg 2, rfl, rfl⟩,
    ⟨.dg 3, rfl, rfl⟩, fun _ h => absurd h List.not_mem_nil⟩

theorem shows_keyValues (s : State) : ∀ c ∈ keyValues s, s.Shows c.1 c.2 := by
  simp only [keyValues, List.forall_mem_cons, ← half_low, ← half_high]
  exact ⟨⟨.key .kn false, rfl, rfl⟩, ⟨.key .kn true, rfl, rfl⟩, ⟨.key .ke false, rfl, rfl⟩, ⟨.key .ke true, rfl, rfl⟩,
    ⟨.key .kd false, rfl, rfl⟩, ⟨.key .kd true, rfl, rfl⟩, ⟨.key .kp false, rfl, rfl⟩, ⟨.key .kp true, rfl, rfl⟩,
    ⟨.key .kq false, rfl, rfl⟩, ⟨.key .kq true, rfl, rfl⟩, ⟨.key .kphi false, rfl, rfl⟩, ⟨.key .kphi true, rfl, rfl⟩,
    fun _ h => absurd h List.not_mem_nil⟩

theorem locate_deBuf (size : Nat) (k : Fin 16) : locate size (BitVec.ofNat 16 (0x100 + 4 * k.val)) = some (.deBuf k) := by
  fin_cases k <;> rfl

theorem shows_arrayValues (s : State) : ∀ c ∈ arrayValues s, s.Shows c.1 c.2 := by
  intro c hc
  obtain hx | hbuf := List.mem_append.mp hc
  · obtain ⟨i, -, hi⟩ := List.mem_flatMap.mp hx
    rw [← half_low, ← half_high] at hi
    obtain rfl | rfl : _ ∨ _ := by simpa using hi
    · exact ⟨.x i false, locate_xLow _ i, rfl⟩
    · exact ⟨.x i true, locate_xHigh _ i, rfl⟩
  · obtain ⟨k, hk, rfl⟩ := List.mem_map.mp hbuf
    exact ⟨.deBuf ⟨k, List.mem_range.mp hk⟩, locate_deBuf _ ⟨k, List.mem_range.mp hk⟩, s.de.bufWord_eq _⟩

theorem shows_registerValues (s : State) : ∀ c ∈ registerValues s, s.Shows c.1 c.2 := by
  simp only [registerValues, List.forall_mem_append]
  exact ⟨⟨⟨shows_controlValues s, shows_digestValues s⟩, shows_keyValues s⟩, shows_arrayValues s⟩

/-- Settles O27: a read is refused the same way twice or changes nothing, and each offset's place shows its value. -/
theorem readsHaveNoSideEffect : Obligations.ReadsHaveNoSideEffect := by
  refine ⟨fun s off => ?_, fun s hb c hc => portRead_of_shows hb (shows_registerValues s c hc)⟩
  obtain ⟨h, hagain⟩ | h := portRead_again s off
  · exact ⟨.inr h, by rw [h, hagain]⟩
  · exact ⟨.inl h, by rw [h]⟩

end Sys2Proof.Machine
end

section
/-! The encoding (obligations O1 to O5). A word and its fields determine each other (30_encoding.md rule R91), so a row of the
opcode map (rule R94) can be read field by field: its mask and match ask for its OPC and for 0 in RSV and in the fields its
command leaves unused, which is the field check of rules R95 to R97. -/

namespace Sys2Proof

/-! ### A word and its fields (rule R91) -/

/-- Two adjacent fields of a word, taken as one. -/
theorem extract_append_extract {n : Nat} (k l m : Nat) (w : BitVec n) :
    w.extractLsb' (k + l) m ++ w.extractLsb' k l = w.extractLsb' k (m + l) :=
  BitVec.extractLsb'_append_extractLsb'_eq_extractLsb' rfl

/-- The fields of rule R91 cover all 32 bits of a word. -/
@[simp] theorem toWord_ofWord (w : Word32) : (Format.ofWord w).toWord = w := by
  simp only [Format.toWord, Format.ofWord]
  rw [extract_append_extract 23 3 6 w, extract_append_extract 20 3 9 w, extract_append_extract 17 3 12 w,
    extract_append_extract 14 3 15 w, extract_append_extract 11 3 18 w, extract_append_extract 8 3 21 w,
    extract_append_extract 0 8 24 w]
  exact BitVec.extractLsb'_eq_self

theorem ofWord_injective : Function.Injective Format.ofWord := Function.LeftInverse.injective toWord_ofWord

theorem ofWord_encode (i : Instr) : Format.ofWord (encode i) = i.format := Laws.WordCarriesFields.ofWord_toWord _

/-! ### The field check (rules R95 to R97) -/

theorem problem_eq_none_iff (f : Format) :
    f.problem = none ↔ ∃ u, fieldUse f.opc = some u ∧ f.rsv = 0 ∧ u.unusedZero f = true := by
  unfold Format.problem
  cases fieldUse f.opc with
  | none => simp
  | some u =>
    by_cases hrsv : f.rsv = 0#6 <;> simp [hrsv]

theorem format_wf_iff (f : Format) :
    f.wf = true ↔ ∃ u, fieldUse f.opc = some u ∧ f.rsv = 0 ∧ u.unusedZero f = true := by
  rw [Format.wf, beq_iff_eq, problem_eq_none_iff]

theorem instr_wf (i : Instr) : i.wf = true := by
  cases i <;> rfl

/-! ### The rows of the opcode map (rule R94) -/

/-- The OPC a row's match asks for. -/
def OpcodeRow.opc (r : OpcodeRow) : BitVec 8 := (Format.ofWord r.pattern).opc

/-- The bits of a register field that a row's mask tests: all of an unused one, none of a used one. -/
def fieldMask (used : Bool) : BitVec 3 := if used then 0 else .allOnes 3

/-- The fields of the mask of a row with these columns. -/
def FieldUse.mask (u : FieldUse) : Format where
  opc := .allOnes 8
  d1 := fieldMask u.d1
  s1 := fieldMask u.s1
  s2 := fieldMask u.s2
  s3 := fieldMask u.s3
  d2 := fieldMask u.d2
  d3 := fieldMask u.d3
  rsv := .allOnes 6

/-- A register field as a command keeps it: its value if used, else 0. -/
def keptField (used : Bool) (v : BitVec 3) : BitVec 3 := if used then v else 0

/-- The format a row's command keeps of the one it was built from. -/
def FieldUse.kept (u : FieldUse) (opc : BitVec 8) (f : Format) : Format where
  opc := opc
  d1 := keptField u.d1 f.d1
  s1 := keptField u.s1 f.s1
  s2 := keptField u.s2 f.s2
  s3 := keptField u.s3 f.s3
  d2 := keptField u.d2 f.d2
  d3 := keptField u.d3 f.d3

/-- A row says what the columns of its OPC say: in its match, its mask, and the command it builds. -/
structure OpcodeRow.Agrees (r : OpcodeRow) (u : FieldUse) : Prop where
  columns : fieldUse r.opc = some u
  pattern : Format.ofWord r.pattern = { opc := r.opc }
  mask : Format.ofWord r.mask = u.mask
  build : ∀ f, (r.build f).format = u.kept r.opc f

theorem opcodeRows_agree : ∀ r ∈ opcodeRows, ∃ u, r.Agrees u := by
  simp only [opcodeRows, List.forall_mem_append, digestRows, arithRows, cipherRows, List.forall_mem_cons]
  refine ⟨⟨⟨?_, ?_, ?_, ?_, ?_, ?_, List.forall_mem_nil _⟩, ?_, ?_, ?_, ?_, ?_, ?_, List.forall_mem_nil _⟩, ?_, ?_, ?_, ?_,
    List.forall_mem_nil _⟩
  all_goals exact ⟨_, rfl, rfl, rfl, fun _ => rfl⟩

theorem opcodeRows_opc_nodup : (opcodeRows.map OpcodeRow.opc).Nodup := by decide

/-- Every OPC with columns has its row. -/
theorem exists_row_of_fieldUse : ∀ opc : BitVec 8, (fieldUse opc).isSome = true → ∃ r ∈ opcodeRows, r.opc = opc := by
  decide

/-- The row found by a command's OPC builds the command from its own format. -/
theorem exists_row_build (i : Instr) :
    ∃ r, opcodeRows.find? (·.opc == i.format.opc) = some r ∧ r.build i.format = i := by
  cases i <;> exact ⟨_, rfl, rfl⟩

/-! ### A row hit, field by field -/

theorem and_fieldMask_eq_zero_iff (used : Bool) (v : BitVec 3) : v &&& fieldMask used = 0 ↔ fieldOk used v = true := by
  cases used with
  | true => simp [fieldMask, fieldOk]
  | false => rw [fieldMask, if_neg Bool.false_ne_true, BitVec.and_allOnes, fieldOk, Bool.false_or, beq_iff_eq]

theorem keptField_eq_self {used : Bool} {v : BitVec 3} (h : fieldOk used v = true) : keptField used v = v := by
  cases used <;> simp_all [keptField, fieldOk]

theorem unusedZero_iff (u : FieldUse) (f : Format) :
    u.unusedZero f = true ↔ fieldOk u.d1 f.d1 = true ∧ fieldOk u.s1 f.s1 = true ∧ fieldOk u.s2 f.s2 = true ∧
      fieldOk u.s3 f.s3 = true ∧ fieldOk u.d2 f.d2 = true ∧ fieldOk u.d3 f.d3 = true := by
  simp only [FieldUse.unusedZero, Bool.and_eq_true, and_assoc]

theorem kept_eq_self {u : FieldUse} {f : Format} (hrsv : f.rsv = 0) (hu : u.unusedZero f = true) : u.kept f.opc f = f := by
  obtain ⟨hd1, hs1, hs2, hs3, hd2, hd3⟩ := (unusedZero_iff u f).mp hu
  simp only [FieldUse.kept, keptField_eq_self, hd1, hs1, hs2, hs3, hd2, hd3, ← hrsv]

/-- A row hits a word exactly if the word has the row's OPC, RSV 0 and 0 in the unused fields. -/
theorem OpcodeRow.Agrees.hits_iff {r : OpcodeRow} {u : FieldUse} (h : r.Agrees u) (w : Word32) :
    r.hits w = true ↔
      (Format.ofWord w).opc = r.opc ∧ (Format.ofWord w).rsv = 0 ∧ u.unusedZero (Format.ofWord w) = true := by
  have hmask := h.mask
  rw [OpcodeRow.hits, beq_iff_eq, ← ofWord_injective.eq_iff, h.pattern, unusedZero_iff]
  simp only [Format.ofWord, FieldUse.mask, Format.mk.injEq] at hmask
  obtain ⟨hopc, hd1, hs1, hs2, hs3, hd2, hd3, hrsv⟩ := hmask
  simp only [Format.ofWord, Format.mk.injEq, BitVec.extractLsb'_and, hopc, hd1, hs1, hs2, hs3, hd2, hd3, hrsv,
    BitVec.and_allOnes, and_fieldMask_eq_zero_iff]
  tauto

/-- A row of the map hits exactly the well-formed words of its OPC. -/
theorem hits_iff_wf {r : OpcodeRow} (hr : r ∈ opcodeRows) (w : Word32) :
    r.hits w = true ↔ (Format.ofWord w).opc = r.opc ∧ (Format.ofWord w).wf = true := by
  obtain ⟨u, h⟩ := opcodeRows_agree r hr
  rw [h.hits_iff, format_wf_iff]
  refine and_congr_right fun hopc => ?_
  simp [hopc, h.columns]

/-- Nothing of a well-formed format of the row's OPC is dropped from the command. -/
theorem format_build {r : OpcodeRow} (hr : r ∈ opcodeRows) {f : Format} (hopc : f.opc = r.opc) (hwf : f.wf = true) :
    (r.build f).format = f := by
  obtain ⟨u, h⟩ := opcodeRows_agree r hr
  obtain ⟨u', hu', hrsv, hzero⟩ := (format_wf_iff f).mp hwf
  obtain rfl : u = u' := Option.some.inj (h.columns.symm.trans (hopc ▸ hu'))
  rw [h.build, ← hopc, kept_eq_self hrsv hzero]

/-! ### The decoder (rule R99) -/

/-- No word hits two rows. -/
theorem row_eq_of_hits {r r' : OpcodeRow} {w : Word32} (hr : r ∈ opcodeRows) (hr' : r' ∈ opcodeRows)
    (h : r.hits w = true) (h' : r'.hits w = true) : r = r' :=
  List.inj_on_of_nodup_map opcodeRows_opc_nodup hr hr'
    (((hits_iff_wf hr w).mp h).1.symm.trans ((hits_iff_wf hr' w).mp h').1)

theorem decode_of_hits {r : OpcodeRow} {w : Word32} (hr : r ∈ opcodeRows) (h : r.hits w = true) :
    decode w = .ok (r.build (Format.ofWord w)) := by
  cases hfind : opcodeRows.find? (·.hits w) with
  | none => exact absurd h (List.find?_eq_none.mp hfind r hr)
  | some r' =>
    have hhit : r'.hits w = true := List.find?_some (p := fun r : OpcodeRow => r.hits w) hfind
    obtain rfl := row_eq_of_hits hr (List.mem_of_find?_eq_some hfind) h hhit
    rw [decode, hfind]

theorem decode_of_not_hits {w : Word32} (h : ∀ r ∈ opcodeRows, r.hits w = false) :
    decode w = .error ((Format.ofWord w).problem.getD .unassignedOpcode) := by
  have hnone : opcodeRows.find? (·.hits w) = none := List.find?_eq_none.mpr fun r hr => Bool.not_eq_true _ ▸ h r hr
  rw [decode, hnone]

/-- A word whose fields are well formed hits the row of its OPC, which decides its command. -/
theorem decode_of_wf {w : Word32} (h : (Format.ofWord w).wf = true) :
    ∃ r ∈ opcodeRows, r.opc = (Format.ofWord w).opc ∧ decode w = .ok (r.build (Format.ofWord w)) := by
  obtain ⟨u, hu, -⟩ := (format_wf_iff _).mp h
  obtain ⟨r, hr, hopc⟩ := exists_row_of_fieldUse (Format.ofWord w).opc (by simp [hu])
  exact ⟨r, hr, hopc, decode_of_hits hr ((hits_iff_wf hr w).mpr ⟨hopc.symm, h⟩)⟩

/-- A word whose fields are not well formed is refused with the field check's reason. -/
theorem decode_of_problem {w : Word32} {e : IllegalWord} (h : (Format.ofWord w).problem = some e) : decode w = .error e := by
  have hwf : (Format.ofWord w).wf ≠ true := by simp [Format.wf, h]
  rw [decode_of_not_hits fun r hr => Bool.eq_false_iff.mpr fun hhit => hwf ((hits_iff_wf hr w).mp hhit).2, h, Option.getD_some]

/-- Settles O1: the row found by the command's OPC hits its word and builds the command from the fields of that word. -/
theorem decodeEncode : Obligations.DecodeEncode := by
  refine fun i => ⟨instr_wf i, ?_⟩
  obtain ⟨r, hfind, hbuild⟩ := exists_row_build i
  have hr : r ∈ opcodeRows := List.mem_of_find?_eq_some hfind
  have hopc : r.opc = i.format.opc := by
    simpa using List.find?_some (p := fun r : OpcodeRow => r.opc == i.format.opc) hfind
  have hhit : r.hits (encode i) = true := (hits_iff_wf hr _).mpr (by rw [ofWord_encode]; exact ⟨hopc.symm, instr_wf i⟩)
  rw [decode_of_hits hr hhit, ofWord_encode, hbuild]

/-- Settles O3: rows of different OPC hit no common word. -/
theorem decodeByTheOneMatchingRow : Obligations.DecodeByTheOneMatchingRow :=
  fun _ => ⟨fun _ hr h => decode_of_hits hr h, fun h => ⟨_, decode_of_not_hits h⟩⟩

/-- Settles O4: a word without a problem is decoded by the row of its OPC, and one with a problem hits no row. -/
theorem decodeAcceptsExactlyWellFormed : Obligations.DecodeAcceptsExactlyWellFormed := by
  intro w
  cases hp : (Format.ofWord w).problem with
  | none =>
    have hwf : (Format.ofWord w).wf = true := by simp [Format.wf, hp]
    obtain ⟨r, -, -, hd⟩ := decode_of_wf hwf
    simp [hd, hwf]
  | some e => simp [decode_of_problem hp, Format.wf, hp]

/-- Settles O2: a word that decodes is well formed, so its command has all its fields, and the fields determine the word. -/
theorem encodeDecode : Obligations.EncodeDecode := by
  intro w i hi
  have hwf : (Format.ofWord w).wf = true := (decodeAcceptsExactlyWellFormed w).1.mp ⟨i, hi⟩
  obtain ⟨r, hr, hopc, hd⟩ := decode_of_wf hwf
  obtain rfl : r.build (Format.ofWord w) = i := Except.ok.inj (hd.symm.trans hi)
  rw [encode, format_build hr hopc.symm hwf, toWord_ofWord]

/-- Settles O5, by running the decoder on each word. -/
theorem sampleWordsDecode : Obligations.SampleWordsDecode :=
  ⟨rfl, rfl, rfl, rfl, rfl, rfl, rfl, rfl, rfl, rfl, rfl⟩

end Sys2Proof
end

section
/-! The blocks of a byte sequence (40_digest.md rules R118, R119): how compressAll, the reference function of the digest,
goes over a sequence in two parts, and what the padding adds to the last part. -/

namespace Sys2Proof.Machine

/-! ### Blocks -/

theorem blockOf_getElem (bs : List Byte) (i j : Nat) (hj : j < 64) : (blockOf bs i)[j] = bs.getD (64 * i + j) 0x00 := by
  simp [blockOf]

/-- A whole block of the first part is a block of the whole. -/
theorem blockOf_append_left (xs ys : List Byte) {i : Nat} (h : 64 * i + 64 ≤ xs.length) :
    blockOf (xs ++ ys) i = blockOf xs i := by
  ext j hj : 1
  rw [blockOf_getElem, blockOf_getElem, List.getD_append _ _ _ _ (by omega)]

/-- The blocks after the first q ones. -/
theorem blockOf_add (bs : List Byte) (q i : Nat) : blockOf bs (q + i) = blockOf (bs.drop (64 * q)) i := by
  ext j hj : 1
  rw [blockOf_getElem, blockOf_getElem, List.getD_eq_getElem?_getD, List.getD_eq_getElem?_getD, List.getElem?_drop,
    show 64 * q + (64 * i + j) = 64 * (q + i) + j by omega]

/-! ### Compressing whole blocks -/

/-- A sequence in two parts: the whole blocks of the first part, then its last bytes with the second part. -/
theorem compressAll_append (h : HashState) (xs ys : List Byte) :
    compressAll h (xs ++ ys) = compressAll (compressAll h xs) (xs.drop (64 * (xs.length / 64)) ++ ys) := by
  have hdrop : (xs ++ ys).drop (64 * (xs.length / 64)) = xs.drop (64 * (xs.length / 64)) ++ ys :=
    List.drop_append_of_le_length (by omega)
  have hcount : (xs ++ ys).length / 64 = xs.length / 64 + (xs.drop (64 * (xs.length / 64)) ++ ys).length / 64 := by
    simp only [List.length_append, List.length_drop]
    omega
  unfold compressAll
  rw [hcount, List.range_add, List.foldl_append, List.foldl_map, ← hdrop]
  have hfirst : (List.range (xs.length / 64)).foldl (fun h i => compress h (blockOf (xs ++ ys) i)) h =
      (List.range (xs.length / 64)).foldl (fun h i => compress h (blockOf xs i)) h :=
    List.foldl_ext _ _ _ fun g i hi => by
      have hi := List.mem_range.mp hi
      rw [blockOf_append_left _ _ (by omega)]
  rw [hfirst]
  exact List.foldl_ext _ _ _ fun g i _ => by rw [blockOf_add]

/-- Fewer than 64 bytes are no block. -/
theorem compressAll_short (h : HashState) {bs : List Byte} (hlen : bs.length < 64) : compressAll h bs = h := by
  rw [compressAll, Nat.div_eq_of_lt hlen]
  rfl

/-- One block. -/
theorem compressAll_one (h : HashState) {bs : List Byte} (hlen : bs.length = 64) :
    compressAll h bs = compress h (blockOf bs 0) := by
  rw [compressAll, hlen]
  rfl

/-- Two blocks. -/
theorem compressAll_two (h : HashState) {bs : List Byte} (hlen : bs.length = 128) :
    compressAll h bs = compress (compress h (blockOf bs 0)) (blockOf bs 1) := by
  rw [compressAll, hlen]
  rfl

/-- One more byte, which completes no block. -/
theorem compressAll_snoc_partial (h : HashState) (bs : List Byte) (v : Byte) (hlen : bs.length % 64 ≠ 63) :
    compressAll h (bs ++ [v]) = compressAll h bs := by
  rw [compressAll_append, compressAll_short]
  simp only [List.length_append, List.length_drop, List.length_singleton]
  omega

/-- One more byte, which completes a block. -/
theorem compressAll_snoc_full (h : HashState) (bs : List Byte) (v : Byte) (hlen : bs.length % 64 = 63) :
    compressAll h (bs ++ [v]) = compress (compressAll h bs) (blockOf (bs ++ [v]) (bs.length / 64)) := by
  have hdrop : (bs ++ [v]).drop (64 * (bs.length / 64)) = bs.drop (64 * (bs.length / 64)) ++ [v] :=
    List.drop_append_of_le_length (by omega)
  rw [compressAll_append, compressAll_one, ← hdrop, ← blockOf_add]
  · rfl
  · simp only [List.length_append, List.length_drop, List.length_singleton]
    omega

/-! ### BUF (rule R123, 10_state.md rule R52) -/

/-- One more byte goes to the place after the last one, cyclically. -/
theorem bufferAfter_snoc (old : Vector Byte 64) (bs : List Byte) (v : Byte) (h : bs.length % 64 < 64) :
    bufferAfter old (bs ++ [v]) = (bufferAfter old bs).set (bs.length % 64) v h := by
  ext j hj : 1
  rw [Vector.getElem_set, bufferAfter_getElem, bufferAfter_getElem, List.length_append, List.length_singleton]
  by_cases hat : bs.length % 64 = j
  · rw [if_pos hat, if_pos (by omega), show j + 64 * ((bs.length + 1 - 1 - j) / 64) = bs.length by omega,
      List.getD_append_right _ _ _ _ le_rfl, Nat.sub_self, List.getD_cons_zero]
  · rw [if_neg hat]
    by_cases hin : j < bs.length
    · have hpos : (bs.length + 1 - 1 - j) / 64 = (bs.length - 1 - j) / 64 := by omega
      rw [if_pos hin, if_pos (by omega), hpos, List.getD_append _ _ _ _ (by omega)]
    · rw [if_neg hin, if_neg (by omega)]

/-- After whole blocks BUF is the last block. -/
theorem bufferAfter_whole (old : Vector Byte 64) {bs : List Byte} {q : Nat} (hlen : bs.length = 64 * (q + 1)) :
    bufferAfter old bs = blockOf bs q := by
  ext j hj : 1
  rw [bufferAfter_getElem, blockOf_getElem, if_pos (by omega),
    show j + 64 * ((bs.length - 1 - j) / 64) = 64 * q + j by omega]

/-- The first places of BUF hold what follows the last whole block. -/
theorem bufferAfter_tail (old : Vector Byte 64) (bs : List Byte) :
    (bufferAfter old bs).toList.take (bs.length % 64) = bs.drop (64 * (bs.length / 64)) := by
  apply List.ext_getElem
  · rw [List.length_take, Vector.length_toList, List.length_drop]
    omega
  · intro j hj _
    have hj : j < bs.length % 64 := by rw [List.length_take] at hj; omega
    rw [List.getElem_take, Vector.getElem_toList, bufferAfter_getElem, if_pos (by omega), List.getElem_drop,
      List.getD_eq_getElem _ _ (by omega)]
    congr 1
    omega

/-- BUF after its own first places is unchanged. -/
theorem bufferAfter_take (old : Vector Byte 64) {r : Nat} (hr : r ≤ 64) :
    bufferAfter old (old.toList.take r) = old := by
  have hlen : (old.toList.take r).length = r := by rw [List.length_take, Vector.length_toList]; omega
  ext j hj : 1
  rw [bufferAfter_getElem, hlen]
  split
  · rw [show j + 64 * ((r - 1 - j) / 64) = j by omega, List.getD_eq_getElem _ _ (by omega), List.getElem_take,
      Vector.getElem_toList]
  · rfl

/-! ### Padding (rule R119) -/

/-- The length field byte by byte. -/
theorem bytesLe64_getD (len : Word64) {j : Nat} (hj : j < 8) : (bytesLe64 (8 * len)).getD j 0x00 = lengthByte len j := by
  interval_cases j <;> rfl

/-- A tail of r bytes with its padding, place by place: the tail, the marker, zeros, and the length in the last 8 places. -/
theorem padded_getD {tail : List Byte} {r z : Nat} (hr : tail.length = r) (len : Word64) {p : Nat} (hp : p < r + z + 9) :
    (tail ++ ([0x80] ++ List.replicate z 0x00 ++ bytesLe64 (8 * len))).getD p 0x00 =
      if p < r then tail.getD p 0x00 else if p = r then 0x80
      else if r + z < p then lengthByte len (p - (r + z + 1)) else 0x00 := by
  subst hr
  by_cases h1 : p < tail.length
  · rw [if_pos h1, List.getD_append _ _ _ _ h1]
  rw [if_neg h1, List.getD_append_right _ _ _ _ (by omega), List.append_assoc, List.singleton_append]
  by_cases h2 : p = tail.length
  · rw [if_pos h2, h2, Nat.sub_self, List.getD_cons_zero]
  rw [if_neg h2, show p - tail.length = (p - tail.length - 1) + 1 by omega, List.getD_cons_succ]
  by_cases h3 : tail.length + z < p
  · rw [if_pos h3, List.getD_append_right _ _ _ _ (by rw [List.length_replicate]; omega), List.length_replicate,
      show p - tail.length - 1 - z = p - (tail.length + z + 1) by omega, bytesLe64_getD _ (by omega)]
  · rw [if_neg h3, List.getD_append _ _ _ _ (by rw [List.length_replicate]; omega), List.getD_replicate _ (by omega)]

theorem length_padding (r : Nat) (len : Word64) : (padding r len).length = (119 - r % 64) % 64 + 9 := by
  simp [padding, bytesLe64]

/-- Only r mod 64 plays a part in the padding. -/
theorem padding_mod (r : Nat) (len : Word64) : padding (r % 64) len = padding r len := by
  rw [padding, Nat.mod_mod, padding]

/-- Byte p of the tail BUF[0] to BUF[r - 1]. -/
theorem take_buf_getD (buf : Vector Byte 64) {r p : Nat} (hp : p < r) (h : p < 64) :
    (buf.toList.take r).getD p 0x00 = buf[p] := by
  rw [List.getD_eq_getElem _ _ (by rw [List.length_take, Vector.length_toList]; omega), List.getElem_take,
    Vector.getElem_toList]

theorem length_take_buf (buf : Vector Byte 64) {r : Nat} (hr : r < 64) : (buf.toList.take r).length = r := by
  rw [List.length_take, Vector.length_toList]
  omega

/-- A tail that leaves room for the length makes one block with its padding, any other two. -/
theorem length_padded (buf : Vector Byte 64) {r : Nat} (hr : r < 64) (len : Word64) :
    (buf.toList.take r ++ padding r len).length = if r < 56 then 64 else 128 := by
  rw [List.length_append, length_take_buf buf hr, length_padding]
  split <;> omega

/-- The first block of pad_final is that of the tail with its padding. -/
theorem padFirst_eq_blockOf (buf : Vector Byte 64) {r : Nat} (hr : r < 64) (len : Word64) :
    padFirst buf r len = blockOf (buf.toList.take r ++ padding r len) 0 := by
  ext j hj : 1
  rw [blockOf_getElem, padding, padded_getD (length_take_buf buf hr) len (by omega), padFirst, Vector.getElem_ofFn,
    Nat.mul_zero, Nat.zero_add]
  by_cases htail : j < r
  · rw [if_pos htail, if_pos htail, take_buf_getD buf htail hj]
    rfl
  rw [if_neg htail, if_neg htail]
  by_cases hmark : j = r
  · rw [if_pos hmark, if_pos hmark]
  rw [if_neg hmark, if_neg hmark]
  by_cases hfield : r < 56 ∧ 56 ≤ j
  · rw [if_pos hfield, if_pos (by omega), show r + (119 - r % 64) % 64 + 1 = 56 by omega]
  · rw [if_neg hfield, if_neg (by omega)]

/-- So is the second, when there is one. -/
theorem padSecond_eq_blockOf (buf : Vector Byte 64) {r : Nat} (hr : r < 64) (hlong : 56 ≤ r) (len : Word64) :
    padSecond len = blockOf (buf.toList.take r ++ padding r len) 1 := by
  ext j hj : 1
  rw [blockOf_getElem, padding, padded_getD (length_take_buf buf hr) len (by omega), padSecond, Vector.getElem_ofFn,
    show r + (119 - r % 64) % 64 = 119 by omega]
  by_cases hfield : 56 ≤ j
  · rw [if_pos hfield, if_neg (by omega), if_neg (by omega), if_pos (by omega),
      show 64 * 1 + j - (119 + 1) = j - 56 by omega]
  · rw [if_neg hfield, if_neg (by omega), if_neg (by omega), if_neg (by omega)]

/-- pad_final compressed is the tail with its padding compressed. -/
theorem foldl_padFinal (h : HashState) (buf : Vector Byte 64) {r : Nat} (hr : r < 64) (len : Word64) :
    (padFinal buf r len).foldl compress h = compressAll h (buf.toList.take r ++ padding r len) := by
  have hlen := length_padded buf hr len
  unfold padFinal
  by_cases hone : r < 56
  · rw [if_pos hone] at hlen ⊢
    rw [compressAll_one _ hlen, ← padFirst_eq_blockOf buf hr]
    rfl
  · rw [if_neg hone] at hlen ⊢
    rw [compressAll_two _ hlen, ← padFirst_eq_blockOf buf hr, ← padSecond_eq_blockOf buf hr (by omega)]
    rfl

end Sys2Proof.Machine
end

section
/-! The digest sessions (obligations O29, O30, O32 to O35): the registers of a session as a function of the bytes that went
through it (40_digest.md rules R122 to R128), and what the session commands do in terms of it. -/

namespace Sys2Proof.Machine

/-! ### The session registers after the bytes that went through them -/

/-- H, FILL and BUF after the bytes `all`, counted from the start of the current block; LEN as before. -/
def Session.over (d : Session) (all : List Byte) : Session :=
  { d with h := compressAll d.h all, fill := BitVec.ofNat 6 (all.length % 64), buf := bufferAfter d.buf all }

/-- The bytes of the current block that are in BUF. -/
def Session.tail (d : Session) : List Byte := d.buf.toList.take d.fill.toNat

theorem Session.length_tail (d : Session) : d.tail.length = d.fill.toNat := length_take_buf d.buf d.fill.isLt

/-- The bytes in BUF change nothing by themselves. -/
theorem Session.over_tail (d : Session) : d.over d.tail = d := by
  have hfill : d.fill.toNat < 64 := d.fill.isLt
  have hbuf : bufferAfter d.buf d.tail = d.buf := bufferAfter_take d.buf hfill.le
  rw [Session.over, d.length_tail, compressAll_short _ (d.length_tail.trans_lt hfill), hbuf, Nat.mod_eq_of_lt hfill,
    BitVec.ofNat_toNat, BitVec.setWidth_eq]

/-- The absorb loop with FILL as a number (rule R123). -/
theorem Session.absorbByte_of_fill {d : Session} {r : Nat} (hr : d.fill.toNat = r) (hlt : r < 64) (v : Byte) :
    d.absorbByte v =
      if r + 1 = 64 then { d with buf := d.buf.set r v, fill := 0, h := compress d.h (d.buf.set r v) }
      else { d with buf := d.buf.set r v, fill := d.fill + 1 } := by
  subst hr
  rfl

/-- One more byte: it goes to BUF[FILL], and a full block is compressed. -/
theorem Session.absorbByte_over (d : Session) (all : List Byte) (v : Byte) :
    (d.over all).absorbByte v = d.over (all ++ [v]) := by
  have hfill : (d.over all).fill.toNat = all.length % 64 := by
    rw [Session.over, BitVec.toNat_ofNat]
    omega
  have hbuf : (d.over all).buf.set (all.length % 64) v = bufferAfter d.buf (all ++ [v]) :=
    (bufferAfter_snoc _ _ _ _).symm
  have hlen : (all ++ [v]).length = all.length + 1 := List.length_append
  rw [Session.absorbByte_of_fill hfill (by omega), hbuf]
  by_cases hfull : all.length % 64 + 1 = 64
  · have hblock : bufferAfter d.buf (all ++ [v]) = blockOf (all ++ [v]) (all.length / 64) :=
      bufferAfter_whole _ (by omega)
    have hnext : (all ++ [v]).length % 64 = 0 := by omega
    have hhash := compressAll_snoc_full d.h all v (by omega)
    rw [if_pos hfull, Session.over, Session.over, hnext, hhash, hblock]
    rfl
  · have hnext : (all ++ [v]).length % 64 = all.length % 64 + 1 := by omega
    have hhash := compressAll_snoc_partial d.h all v (by omega)
    rw [if_neg hfull, Session.over, Session.over, hnext, hhash, BitVec.ofNat_add]
    rfl

theorem Session.foldl_absorbByte_over (d : Session) (all bs : List Byte) :
    bs.foldl Session.absorbByte (d.over all) = d.over (all ++ bs) := by
  induction bs generalizing all with
  | nil => rw [List.append_nil, List.foldl_nil]
  | cons b bs ih => rw [List.foldl_cons, d.absorbByte_over, ih, List.append_assoc, List.singleton_append]

/-- Absorbing takes the bytes in BUF with the new ones (rules R118, R123). -/
theorem Session.absorb_eq (d : Session) (bs : List Byte) :
    d.absorb bs = { d.over (d.tail ++ bs) with len := d.len + BitVec.ofNat 64 bs.length } := by
  rw [Session.absorb, ← d.foldl_absorbByte_over, d.over_tail]

/-- Absorbing no byte changes nothing. -/
theorem Session.absorb_nil (d : Session) : d.absorb [] = d := by
  simp [Session.absorb]

/-- The bytes in BUF after absorbing are those past the last whole block. -/
theorem Session.tail_absorb (d : Session) (bs : List Byte) :
    (d.absorb bs).tail = (d.tail ++ bs).drop (64 * ((d.tail ++ bs).length / 64)) := by
  rw [← bufferAfter_tail d.buf, d.absorb_eq, Session.tail, Session.over, BitVec.toNat_ofNat]
  congr 1
  omega

/-- LEN plays no part in the absorb loop. -/
theorem Session.foldl_absorbByte_len (d : Session) (n : Word64) (bs : List Byte) :
    bs.foldl Session.absorbByte { d with len := n } = { bs.foldl Session.absorbByte d with len := n } := by
  induction bs generalizing d with
  | nil => rfl
  | cons b bs ih =>
    have hbyte : Session.absorbByte { d with len := n } b = { d.absorbByte b with len := n } := by
      unfold Session.absorbByte
      split <;> rfl
    rw [List.foldl_cons, hbyte, ih, List.foldl_cons]

/-- Absorbing in two parts is absorbing the whole (rule R127). -/
theorem Session.absorb_append (d : Session) (xs ys : List Byte) : (d.absorb xs).absorb ys = d.absorb (xs ++ ys) := by
  simp only [Session.absorb, Session.foldl_absorbByte_len, List.foldl_append, List.length_append, BitVec.ofNat_add,
    BitVec.add_assoc]

/-- H after the final block or blocks (rules R119, R124). -/
theorem Session.finalHash_eq (d : Session) :
    d.finalHash = compressAll d.h (d.tail ++ padding d.fill.toNat d.len) :=
  foldl_padFinal d.h d.buf d.fill.isLt d.len

/-- The session registers de.init leaves (rule R122). -/
def Session.fresh : Session := { h := digestIV, len := 0, fill := 0, buf := Vector.replicate 64 0x00 }

theorem Session.absorb_fresh (m : List Byte) : Session.fresh.absorb m =
    { h := compressAll digestIV m, len := BitVec.ofNat 64 m.length, fill := BitVec.ofNat 6 m.length,
      buf := bufferAfter (Vector.replicate 64 0x00) m } := by
  have hfill : BitVec.ofNat 6 (m.length % 64) = BitVec.ofNat 6 m.length :=
    BitVec.eq_of_toNat_eq (by simp)
  rw [Session.absorb_eq]
  simp [Session.over, Session.tail, Session.fresh, hfill]

/-- A session that absorbed a message ends in the digest of the message. -/
theorem Session.finalHash_absorb_fresh (m : List Byte) : (Session.fresh.absorb m).finalHash = digestOf m := by
  have htail : (Session.fresh.absorb m).tail = m.drop (64 * (m.length / 64)) := Session.fresh.tail_absorb m
  rw [Session.finalHash_eq, htail, digestOf, compressAll_append digestIV m, Session.absorb_fresh, ← padding_mod m.length,
    BitVec.toNat_ofNat]

/-! ### The commands -/

theorem exec_deInit (s : State) : exec .deInit s = .next s.openSession.succeeded := conclude_done_succeeded _

/-- Settles O29: de.init writes what openSession writes, and completes with 0x00. -/
theorem deInitOpensSession : Obligations.DeInitOpensSession := ⟨rfl, exec_deInit⟩

/-- An update of an open session from a range in BMEM absorbs the range. -/
theorem updatePart_in {src len : Nat} {s : State} (hopen : s.status.dsess = true)
    (hin : src + len ≤ s.params.bmemSize) :
    updatePart src len s = done { s with de := s.de.absorb (s.memRead src len) } := by
  obtain ⟨hclosed, -⟩ | ⟨-, hout, -⟩ | ⟨-, -, h⟩ := updatePart_cases src len s
  · simp [hopen] at hclosed
  · omega
  · exact h

/-- An update of an open session from a range outside BMEM aborts it. -/
theorem updatePart_out {src len : Nat} {s : State} (hopen : s.status.dsess = true)
    (hout : s.params.bmemSize < src + len) :
    updatePart src len s = raise .ioRange { s with status := s.status.abortSession } := by
  obtain ⟨hclosed, -⟩ | ⟨-, -, h⟩ | ⟨-, hin, -⟩ := updatePart_cases src len s
  · simp [hopen] at hclosed
  · exact h
  · omega

/-- de.final of an open session publishes its digest. -/
theorem finalPart_open {s : State} (hopen : s.status.dsess = true) :
    finalPart s = done { s with
      de := { s.de with h := s.de.finalHash }
      dg := s.de.finalHash
      status := s.status.publish } := by
  obtain ⟨hclosed, -⟩ | ⟨-, h⟩ := finalPart_cases s
  · simp [hopen] at hclosed
  · exact h

theorem exec_deUpdate (s1 s2 : Reg) (s : State) :
    exec (.deUpdate s1 s2) s = conclude (updatePart (s.xNat s1) (s.xNat s2) s) := rfl

theorem exec_deFinal (s : State) : exec .deFinal s = conclude (finalPart s) := rfl

theorem exec_deHash (s1 s2 : Reg) (s : State) : exec (.deHash s1 s2) s =
    conclude ((updatePart (s.xNat s1) (s.xNat s2) s.openSession).andThen finalPart) := rfl

/-- BMEM is read the same in a state with a session opened. -/
@[simp] theorem State.memRead_openSession (s : State) (a n : Nat) : s.openSession.memRead a n = s.memRead a n :=
  State.memRead_congr _ _ _ _ fun _ _ _ => rfl

/-- de.hash from a range in BMEM leaves a published session that absorbed the range alone. -/
theorem exec_deHash_in {s1 s2 : Reg} {s : State} (hin : s.xNat s1 + s.xNat s2 ≤ s.params.bmemSize) :
    exec (.deHash s1 s2) s = .next (State.succeeded { s with
      de := { Session.fresh.absorb (s.memRead (s.xNat s1) (s.xNat s2)) with
        h := digestOf (s.memRead (s.xNat s1) (s.xNat s2)) }
      dg := digestOf (s.memRead (s.xNat s1) (s.xNat s2))
      status := { s.status with dvalid := true, dsess := false } }) := by
  rw [exec_deHash, updatePart_in (s := s.openSession) rfl hin, Result.andThen_done, finalPart_open rfl,
    conclude_done_succeeded, State.memRead_openSession, ← Session.finalHash_absorb_fresh]
  rfl

/-- de.hash from a range outside BMEM leaves the session de.init opened, aborted. -/
theorem exec_deHash_out {s1 s2 : Reg} {s : State} (hout : s.params.bmemSize < s.xNat s1 + s.xNat s2) :
    exec (.deHash s1 s2) s =
      .next (State.failed { s.openSession with status := s.openSession.status.abortSession } 0x10) := by
  rw [exec_deHash, updatePart_out (s := s.openSession) rfl hout, Result.raise_andThen _ (by decide)]
  exact conclude_raise_error _ (by decide)

/-- Settles O30: absorbing takes the bytes in BUF with those read, and no byte changes nothing. -/
theorem deUpdateAbsorbs : Obligations.DeUpdateAbsorbs := by
  intro s1 s2 s hopen hin
  have hupdate : exec (.deUpdate s1 s2) s =
      .next (State.succeeded { s with de := s.de.absorb (s.memRead (s.xNat s1) (s.xNat s2)) }) := by
    rw [exec_deUpdate, updatePart_in hopen hin, conclude_done_succeeded]
  refine ⟨bufferAfter_tail _ _, ?_, fun hzero => ?_⟩
  · rw [hupdate, Session.absorb_eq, State.length_memRead]
    rfl
  · rw [hupdate, hzero]
    exact congrArg (fun d => Host.Outcome.next (State.succeeded { s with de := d })) s.de.absorb_nil

/-- Settles O33: the blocks of pad_final are those of the tail with its padding. -/
theorem deFinalPublishes : Obligations.DeFinalPublishes := by
  intro s hopen
  rw [exec_deFinal, finalPart_open hopen, conclude_done_succeeded, Session.finalHash_eq]
  rfl

/-- Settles O34: de.hash absorbs the message into a fresh session, which ends in the message's digest. -/
theorem deHashIsDigestOfMessage : Obligations.DeHashIsDigestOfMessage := by
  intro s1 s2 s hin
  refine ⟨bufferAfter_tail _ _, ?_⟩
  rw [exec_deHash_in hin, Session.absorb_fresh, State.length_memRead]

/-! ### Sessions (rules R127, R128) -/

/-- A command that raised an error does not complete with 0x00. -/
theorem conclude_raise_lastErr {c : ErrCode} {s t : State} (h : conclude (raise c s) = .next t) (hc : c ≠ .ok) :
    t.lastErr ≠ 0x00 := by
  cases h
  exact fun hok => hc ((ErrCode.byte_eq_zero c).mp hok)

/-- A de.update that completes with 0x00 was one of an open session and absorbed its range. -/
theorem exec_deUpdate_ok {s1 s2 : Reg} {s t : State} (h : exec (.deUpdate s1 s2) s = .next t) (hok : t.lastErr = 0x00) :
    s.status.dsess = true ∧
      t = State.succeeded { s with de := s.de.absorb (s.memRead (s.xNat s1) (s.xNat s2)) } := by
  rw [exec_deUpdate] at h
  obtain ⟨-, hu⟩ | ⟨-, -, hu⟩ | ⟨hopen, -, hu⟩ := updatePart_cases (s.xNat s1) (s.xNat s2) s <;> rw [hu] at h
  · exact absurd hok (conclude_raise_lastErr h (by decide))
  · exact absurd hok (conclude_raise_lastErr h (by decide))
  · rw [conclude_done_succeeded] at h
    cases h
    exact ⟨hopen, rfl⟩

/-- A de.hash that completes with 0x00 leaves the digest of its range. -/
theorem exec_deHash_ok {s1 s2 : Reg} {s t : State} (h : exec (.deHash s1 s2) s = .next t) (hok : t.lastErr = 0x00) :
    t.dg = digestOf (s.memRead (s.xNat s1) (s.xNat s2)) := by
  obtain hin | hout := le_or_gt (s.xNat s1 + s.xNat s2) s.params.bmemSize
  · cases (exec_deHash_in hin).symm.trans h
    rfl
  · cases (exec_deHash_out hout).symm.trans h
    have hcode : (0x10 : Byte) ≠ 0x00 := by decide
    exact absurd hok hcode

/-- However it was cut, a session that absorbed a message is open, with the registers of the message absorbed at once. -/
theorem Absorbed.session {m : List Byte} {s : State} (h : Absorbed m s) :
    s.status.dsess = true ∧ s.de = Session.fresh.absorb m := by
  induction h with
  | opened h =>
    cases (exec_deInit _).symm.trans h
    exact ⟨rfl, (Session.absorb_nil _).symm⟩
  | updated s1 s2 _ h ok ih =>
    obtain ⟨hopen, rfl⟩ := exec_deUpdate_ok h ok
    refine ⟨hopen, ?_⟩
    rw [← Session.absorb_append, ← ih.2]
    rfl
  | between _ hd hs ih => exact ⟨hs.trans ih.1, hd.trans ih.2⟩

/-- Settles O35: the session's registers depend on the absorbed bytes only, and end in their digest. -/
theorem sessionEqualsOneShot : Obligations.SessionEqualsOneShot := by
  intro m s t hm hfinal _
  obtain ⟨hopen, hde⟩ := hm.session
  rw [exec_deFinal, finalPart_open hopen, hde, Session.finalHash_absorb_fresh] at hfinal
  cases hfinal
  exact ⟨rfl, rfl, fun s1 s2 u v hread hhash hok => hread ▸ exec_deHash_ok hhash hok⟩

end Sys2Proof.Machine
end

section
/-! Hex rendering and frames (obligations O32, O36, O37, O60): where de.hex puts each digit and separator (40_digest.md rules
R121, R126), and what the digest commands and the storing commands leave alone. -/

namespace Sys2Proof.Machine

/-! ### Byte sequences laid out piece by piece -/

/-- Place j of piece i, where every piece has n places. -/
theorem flatMap_getD {α β : Type} (f : α → List β) {n : Nat} (hf : ∀ a, (f a).length = n) (l : List α) {i j : Nat}
    (hi : i < l.length) (hj : j < n) (a : α) (b : β) : (l.flatMap f).getD (i * n + j) b = (f (l.getD i a)).getD j b := by
  induction l generalizing i with
  | nil => exact absurd hi (Nat.not_lt_zero i)
  | cons x xs ih =>
    rw [List.flatMap_cons]
    cases i with
    | zero => rw [Nat.zero_mul, Nat.zero_add, List.getD_append _ _ _ _ (by rwa [hf]), List.getD_cons_zero]
    | succ i =>
      have hpos : (i + 1) * n + j = n + (i * n + j) := by ring
      rw [hpos, List.getD_append_right _ _ _ _ (by rw [hf]; omega), hf, Nat.add_sub_cancel_left, List.getD_cons_succ]
      exact ih (Nat.lt_of_succ_lt_succ hi)

/-- Separators before the pieces or after them, but for one at either end. -/
theorem flatMap_append_sep {α β : Type} (f : α → List β) (sep : List β) (l : List α) :
    l.flatMap (fun v => sep ++ f v) ++ sep = sep ++ l.flatMap (fun v => f v ++ sep) := by
  induction l with
  | nil => simp
  | cons x xs ih => simp only [List.flatMap_cons, List.append_assoc, ih]

/-! ### The rendering (rule R121) -/

/-- A rendering with one more separator at its end is digit pair and separator for every byte. -/
theorem hexRender_append_sep (b : Byte) (bs sep : List Byte) :
    hexRender (b :: bs) sep ++ sep = (b :: bs).flatMap (fun v => hexPair v ++ sep) := by
  rw [hexRender, List.append_assoc, flatMap_append_sep, List.flatMap_cons, List.append_assoc]

/-- Place j of byte i's digit pair and separator, within the rendering. -/
theorem hexRender_getD {dg sep : List Byte} {i j : Nat} (hi : i < dg.length) (hj : j < 2 + sep.length)
    (hin : i * (2 + sep.length) + j < (hexRender dg sep).length) :
    (hexRender dg sep).getD (i * (2 + sep.length) + j) 0x00 = (hexPair (dg.getD i 0x00) ++ sep).getD j 0x00 := by
  have hpiece (v : Byte) : (hexPair v ++ sep).length = 2 + sep.length := List.length_append
  cases dg with
  | nil => exact absurd hi (Nat.not_lt_zero i)
  | cons b bs =>
    rw [← List.getD_append _ sep _ _ hin, hexRender_append_sep]
    exact flatMap_getD _ hpiece (b :: bs) hi hj 0x00 0x00

theorem hexDigit_eq_hexChar {v : Nat} (hv : v < 16) : hexDigit v = hexChar v := by
  interval_cases v <;> rfl

/-- The separator bytes are those of SEP, the lowest first (10_state.md rules R41, R42). -/
theorem sepBytes_getD (c : ConfigRegs) {j : Nat} (hj : j < c.sepLen.toNat) (hc : c.sepLen.toNat ≤ 4) :
    c.sepBytes.getD j 0x00 = c.sep.extractLsb' (8 * j) 8 := by
  have htake : c.sepBytes.getD j 0x00 = (bytesLe32 c.sep).getD j 0x00 := by
    rw [ConfigRegs.sepBytes, List.getD_eq_getElem?_getD, List.getD_eq_getElem?_getD, List.getElem?_take_of_lt hj]
  have hj : j < 4 := by omega
  rw [htake]
  interval_cases j <;> rfl

theorem length_sepBytes {c : ConfigRegs} (hc : c.sepLen.toNat ≤ 4) : c.sepBytes.length = c.sepLen.toNat :=
  List.length_take_of_le hc

/-- The length de.hex checks is that of its output (rule R126). -/
theorem length_hexRender_digest (h : HashState) {c : ConfigRegs} (hc : c.sepLen.toNat ≤ 4) :
    (hexRender h.bytes c.sepBytes).length = 32 + 15 * c.sepLen.toNat := by
  have hlen : (hexRender h.bytes c.sepBytes).length = 2 + 15 * (c.sepBytes.length + 2) := length_hexRender _ _ _
  have hsep := length_sepBytes hc
  omega

/-! ### de.hex (rule R126) -/

/-- Everything de.hex can do. -/
theorem exec_deHex_cases (d1 s1 : Reg) (s : State) :
    (s.status.dvalid = false ∧ exec (.deHex d1 s1) s = .next (s.failed 0x12)) ∨
    (s.status.dvalid = true ∧ s.params.bmemSize < s.xNat s1 + (32 + 15 * s.cfg.sepLen.toNat) ∧
      exec (.deHex d1 s1) s = .next (s.failed 0x10)) ∨
    (s.status.dvalid = true ∧ s.xNat s1 + (32 + 15 * s.cfg.sepLen.toNat) ≤ s.params.bmemSize ∧
      exec (.deHex d1 s1) s = .next (State.succeeded
        ((s.memWrite (s.xNat s1) (hexRender s.dg.bytes s.cfg.sepBytes)).writeXNat d1 (32 + 15 * s.cfg.sepLen.toNat)))) := by
  have hexec : exec (.deHex d1 s1) s = execDeHex d1 s1 s := rfl
  rw [hexec]
  unfold execDeHex State.inRange
  cases hv : s.status.dvalid with
  | false => exact .inl ⟨rfl, conclude_raise_error s (by decide)⟩
  | true =>
    by_cases hin : s.xNat s1 + (32 + 15 * s.cfg.sepLen.toNat) ≤ s.params.bmemSize
    · refine .inr (.inr ⟨rfl, hin, ?_⟩)
      simp only [hin, decide_true, Bool.not_true, Bool.false_eq_true, if_false]
      exact conclude_done_succeeded _
    · refine .inr (.inl ⟨rfl, Nat.lt_of_not_le hin, ?_⟩)
      simp only [hin, decide_false, Bool.not_true, Bool.not_false, Bool.false_eq_true, if_false, if_true]
      exact conclude_raise_error s (by decide)

/-- A byte of the rendering de.hex stored: place j of byte i's digit pair and separator. -/
theorem readByte_hexRender (s : State) {i j : Nat} (hwf : s.bmem.wf) (hc : s.cfg.sepLen.toNat ≤ 4) (a : Nat) (hi : i < 16)
    (hj : j < 2 + s.cfg.sepLen.toNat) (hlast : i = 15 → j < 2) :
    (s.memWrite a (hexRender s.dg.bytes s.cfg.sepBytes)).readByte (a + (i * (2 + s.cfg.sepLen.toNat) + j)) =
      (hexPair (s.dg.bytes.getD i 0x00) ++ s.cfg.sepBytes).getD j 0x00 := by
  have hin : i * (2 + s.cfg.sepLen.toNat) + j < 32 + 15 * s.cfg.sepLen.toNat := by
    obtain hi | rfl := Nat.lt_or_eq_of_le (Nat.le_of_lt_succ hi)
    · have hmul : i * (2 + s.cfg.sepLen.toNat) ≤ 14 * (2 + s.cfg.sepLen.toNat) := Nat.mul_le_mul_right _ (by omega)
      omega
    · have hj := hlast rfl
      omega
  rw [← length_hexRender_digest s.dg hc] at hin
  rw [State.readByte_memWrite _ _ _ _ hwf, if_pos (by omega), Nat.add_sub_cancel_left]
  rw [← length_sepBytes hc] at hin hj ⊢
  exact hexRender_getD hi hj hin

/-- Settles O36: the output is stored as it is rendered, digit pair and separator for every byte but the last. -/
theorem deHexRenders : Obligations.DeHexRenders := by
  intro d1 s1 s hvalid hc hwf hin k byte
  obtain ⟨hinvalid, -⟩ | ⟨-, hout, -⟩ | ⟨-, -, hexec⟩ := exec_deHex_cases d1 s1 s
  · simp [hvalid] at hinvalid
  · omega
  have hdigit (v : Byte) : v.toNat / 16 < 16 ∧ v.toNat % 16 < 16 := by
    have := v.isLt
    omega
  refine ⟨_, hexec, rfl, State.readX_writeX_same _ d1 _, fun i hi => ⟨?_, ?_⟩, fun i hi j hj => ?_⟩
  · rw [← hexDigit_eq_hexChar (hdigit _).1]
    exact readByte_hexRender s hwf hc _ hi (j := 0) (by omega) (by omega)
  · rw [← hexDigit_eq_hexChar (hdigit _).2, Nat.add_assoc]
    exact readByte_hexRender s hwf hc _ hi (j := 1) (by omega) (by omega)
  · have hbyte := readByte_hexRender s hwf hc (s.xNat s1) (i := i) (j := 2 + j) (by omega) (by omega) (by omega)
    rw [← sepBytes_getD s.cfg hj hc, Nat.add_assoc, Nat.add_assoc]
    refine hbyte.trans ?_
    rw [List.getD_append_right _ _ _ _ (by rw [length_hexPair]; omega), length_hexPair, Nat.add_sub_cancel_left]

/-- Settles O32: each command raises IO_RANGE after the writes its part made before the range check. -/
theorem digestRangeErrors : Obligations.DigestRangeErrors := by
  refine fun r1 r2 s => ⟨fun hout hopen => ?_, exec_deHash_out, fun hvalid hout => ?_⟩
  · rw [exec_deUpdate, updatePart_out hopen hout]
    exact conclude_raise_error _ (by decide)
  · obtain ⟨hinvalid, -⟩ | ⟨-, -, hexec⟩ | ⟨-, hin, -⟩ := exec_deHex_cases r1 r2 s
    · simp [hvalid] at hinvalid
    · exact hexec
    · omega

/-! ### What the session commands leave alone -/

/-- u is s but for the session, DG, DVALID and DSESS. -/
def State.OnlySession (s u : State) : Prop :=
  u = { s with de := u.de, dg := u.dg, status := { s.status with dvalid := u.status.dvalid, dsess := u.status.dsess } }

theorem State.OnlySession.eq {s u : State} (h : s.OnlySession u) : u =
    { s with de := u.de, dg := u.dg, status := { s.status with dvalid := u.status.dvalid, dsess := u.status.dsess } } := h

theorem State.OnlySession.refl (s : State) : s.OnlySession s := rfl

theorem State.OnlySession.openSession {s u : State} (h : s.OnlySession u) : s.OnlySession u.openSession := by
  rw [h.eq]
  rfl

theorem State.OnlySession.updatePart (src len : Nat) {s u : State} (h : s.OnlySession u) :
    s.OnlySession (updatePart src len u).state := by
  obtain ⟨-, hu⟩ | ⟨-, -, hu⟩ | ⟨-, -, hu⟩ := updatePart_cases src len u <;> rw [hu]
  · exact h
  · rw [h.eq]; rfl
  · rw [h.eq]; rfl

theorem State.OnlySession.finalPart {s u : State} (h : s.OnlySession u) : s.OnlySession (finalPart u).state := by
  obtain ⟨-, hu⟩ | ⟨-, hu⟩ := finalPart_cases u <;> rw [hu]
  · exact h
  · rw [h.eq]; rfl

/-- An update does not write DG. -/
theorem updatePart_dg (src len : Nat) (s : State) : (updatePart src len s).state.dg = s.dg := by
  obtain ⟨-, hu⟩ | ⟨-, -, hu⟩ | ⟨-, -, hu⟩ := updatePart_cases src len s <;> rw [hu] <;> rfl

/-- Settles O37: the parts of the session commands write the session, DG, DVALID and DSESS only, and DG only at the end. -/
theorem digestCommandFrame : Obligations.DigestCommandFrame := by
  intro i s t hi hexec
  have hdg : (i = .deInit ∨ ∃ a b, i = .deUpdate a b) → t.dg = s.dg := by
    rintro (rfl | ⟨a, b, rfl⟩)
    · cases hexec
      rfl
    · cases hexec
      exact updatePart_dg _ _ s
  obtain ⟨u, c, hu, honly⟩ := exec_session_keeps (P := s.OnlySession) (fun _ h => h.openSession)
    (fun src len _ h => h.updatePart src len) (fun _ h => h.finalPart) hi (.refl s)
  cases hexec.symm.trans hu
  rw [honly.eq]
  exact ⟨fun _ => rfl, fun _ => rfl, rfl, rfl, rfl, rfl, rfl, rfl, rfl, rfl, rfl, rfl, rfl, fun h => hdg h⟩

/-! ### What the storing commands leave alone -/

/-- u is s with bytes stored in the range command i stores to and D1 written. -/
def StoresResult (i : Instr) (s u : State) : Prop :=
  ∃ (bs : List Byte) (d1 : Reg) (v : Nat), bs.length ≤ (storedRange i s).2 ∧ d1 ∈ destRegs i ∧
    u = (s.memWrite (storedRange i s).1 bs).writeXNat d1 v

/-- Everything a storing command can do before it completes: nothing, or its store and its write of D1. -/
theorem exec_stores {i : Instr} {a b c d : Reg} (hi : i = .deHex a b ∨ i = .kcEncode a b c d ∨ i = .kcDecode a b c d)
    (s : State) : ∃ u code, exec i s = .next (State.complete u code) ∧ (u = s ∨ StoresResult i s u) := by
  obtain rfl | rfl | rfl := hi
  · refine ⟨_, _, rfl, ?_⟩
    split
    · exact .inl rfl
    · split
      · exact .inl rfl
      · exact .inr ⟨_, a, _, length_hexRender_digest_le s.dg s.cfg, List.mem_singleton_self a, rfl⟩
  · refine ⟨_, _, rfl, ?_⟩
    split
    · exact .inl rfl
    · split
      · exact .inl rfl
      · split
        · exact .inl rfl
        · refine .inr ⟨_, a, _, ?_, List.mem_singleton_self a, rfl⟩
          rw [length_cipherBytes, length_encodeText, State.length_memRead]
          rfl
  · refine ⟨_, _, rfl, ?_⟩
    split
    · exact .inl rfl
    · split
      · exact .inl rfl
      · split
        · exact .inl rfl
        · exact .inr ⟨_, a, _, le_rfl, List.mem_singleton_self a, rfl⟩

/-- Settles O60: a storing command does nothing but its store, its write of D1 and its completion. -/
theorem storingCommandFrame : Obligations.StoringCommandFrame := by
  intro i s t a b c d hi _ hwf hexec
  obtain ⟨u, code, hu, rfl | ⟨bs, d1, v, hlen, hd1, rfl⟩⟩ := exec_stores hi s <;> cases hexec.symm.trans hu
  · exact ⟨fun _ _ => rfl, fun _ _ => rfl, rfl, rfl, rfl, rfl, rfl, rfl, rfl, rfl, rfl, rfl, rfl, rfl⟩
  · refine ⟨fun k hk => ?_, fun r hr => ?_, ?_⟩
    · exact (s.readByte_memWrite _ k bs hwf).trans (if_neg (by omega))
    · have hne : r ≠ d1 := fun h => hr (h ▸ hd1)
      exact (State.readX_writeX_other _ _ hne).trans (s.readX_memWrite _ _ r)
    · simp [State.writeXNat_eq]

end Sys2Proof.Machine
end

section
/-! The modular power (obligations O38, O39): the loop of rule R152 is the power by the bits of the exponent, lowest first, in
either MULMOD_MODE, and b^e mod n where the multiplication is exact (41_arith.md rules R151, R152, R163). -/

namespace Sys2Proof.Machine

/-! ### Operands and the number of bits -/

theorem State.xNat_lt (s : State) (i : Reg) : s.xNat i < 2 ^ 64 := (s.readX i).isLt

theorem bitlen_le_iff {e k : Nat} : bitlen e ≤ k ↔ e < 2 ^ k := by
  by_cases h : e = 0
  · subst h
    simp [bitlen_zero]
  · rw [← Nat.log2_lt h, bitlen, if_neg h, Nat.succ_le_iff]

theorem lt_two_pow_bitlen (e : Nat) : e < 2 ^ bitlen e := bitlen_le_iff.mp le_rfl

/-! ### A power bit by bit -/

@[simp] theorem binaryPower_zero (mul : Nat → Nat → Nat) (b e one : Nat) : binaryPower mul b e one 0 = one := rfl

/-- The lowest bit first: multiply if it is set, square, and go on with the other bits. -/
theorem binaryPower_succ (mul : Nat → Nat → Nat) (b e one bits : Nat) :
    binaryPower mul b e one (bits + 1) =
      binaryPower mul (mul b b) (e / 2) (if e % 2 = 1 then mul one b else one) bits := by
  simp only [binaryPower, List.range_succ_eq_map, List.foldl_cons, List.foldl_map, Nat.testBit_succ, Nat.testBit_zero,
    decide_eq_true_eq]

/-- No bit set, no factor. -/
theorem binaryPower_exponent_zero (mul : Nat → Nat → Nat) (b one bits : Nat) : binaryPower mul b 0 one bits = one := by
  induction bits generalizing b with
  | zero => rfl
  | succ bits ih => rw [binaryPower_succ, Nat.zero_div, if_neg (by decide), ih]

/-- With multiplication mod n the power by the bits is the power mod n. -/
theorem binaryPower_eq_pow_mod {mul : Nat → Nat → Nat} {n : Nat} (hmul : ∀ x < n, ∀ y < n, mul x y = x * y % n)
    {b e one bits : Nat} (hb : b < n) (hone : one < n) (he : e < 2 ^ bits) :
    binaryPower mul b e one bits = one * b ^ e % n := by
  induction bits generalizing b e one with
  | zero =>
    obtain rfl : e = 0 := by omega
    rw [binaryPower_zero, pow_zero, mul_one, Nat.mod_eq_of_lt hone]
  | succ bits ih =>
    have hlt (x : Nat) : x % n < n := Nat.mod_lt x (by omega)
    have hhalf : e / 2 < 2 ^ bits := by omega
    rw [binaryPower_succ, hmul b hb b hb]
    obtain heven | hodd := Nat.mod_two_eq_zero_or_one e
    · rw [if_neg (by omega), ih (hlt _) hone hhalf]
      have hpow : b ^ e = (b * b) ^ (e / 2) := by
        rw [← pow_two, ← pow_mul]; congr 1; omega
      rw [hpow, Nat.mul_mod, ← Nat.pow_mod, ← Nat.mul_mod]
    · rw [if_pos hodd, hmul one hone b hb, ih (hlt _) (hlt _) hhalf]
      have hpow : b ^ e = b * (b * b) ^ (e / 2) := by
        rw [← pow_two, ← pow_mul, ← pow_succ']; congr 1; omega
      rw [hpow, ← mul_assoc, Nat.mul_mod, Nat.mod_mod, ← Nat.pow_mod, ← Nat.mul_mod]

/-! ### powmod (rule R152) -/

/-- On residues mulmod is multiplication mod n where it is exact (rule R151). -/
theorem mulmod_exact {mode : MulmodMode} {n x y : Nat} (h : exactFor mode n) (hx : x < n) (hy : y < n) :
    mulmod mode x y n = x * y % n := by
  cases mode with
  | exact => rfl
  | wrap64 =>
    obtain h | h := h
    · cases h
    · have hprod : x * y < 2 ^ 64 :=
        calc x * y < n * n := Nat.mul_lt_mul'' hx hy
          _ ≤ 2 ^ 32 * 2 ^ 32 := Nat.mul_le_mul h h
      rw [mulmod, Nat.mod_eq_of_lt hprod]

/-- The loop of powmod goes through the bits of the exponent; past the highest set one it has nothing left to do. -/
theorem powmodLoop_eq_binaryPower (mode : MulmodMode) (n fuel r b e : Nat) :
    powmodLoop mode n fuel r b e = binaryPower (fun x y => mulmod mode x y n) b e r fuel := by
  induction fuel generalizing r b e with
  | zero => rfl
  | succ fuel ih =>
    by_cases he : e = 0
    · rw [powmodLoop, if_pos he, he, binaryPower_exponent_zero]
    · rw [powmodLoop, if_neg he, ih, binaryPower_succ]

/-- powmod by any number of bits that holds the exponent. -/
theorem powmod_eq_binaryPower (mode : MulmodMode) (b n : Nat) {e bits : Nat} (he : e < 2 ^ bits) :
    powmod mode b e n = binaryPower (fun x y => mulmod mode x y n) (b % n) e (1 % n) bits := by
  rw [powmod, ← powmodLoop_fuel _ _ _ _ _ _ (bitlen_le_iff.mpr he), powmodLoop_eq_binaryPower]

theorem powmod_exact {mode : MulmodMode} (b e : Nat) {n : Nat} (hn : 0 < n) (h : exactFor mode n) :
    powmod mode b e n = b ^ e % n := by
  rw [powmod_eq_binaryPower mode b n (lt_two_pow_bitlen e),
    binaryPower_eq_pow_mod (fun _ hx _ hy => mulmod_exact h hx hy) (Nat.mod_lt b hn) (Nat.mod_lt 1 hn)
      (lt_two_pow_bitlen e),
    Nat.mul_mod, Nat.mod_mod, ← Nat.pow_mod, ← Nat.mul_mod, one_mul]

theorem mulmod_lt (mode : MulmodMode) (x y : Nat) {n : Nat} (hn : 0 < n) : mulmod mode x y n < n := by
  cases mode <;> exact Nat.mod_lt _ hn

/-- The loop keeps a residue. -/
theorem powmodLoop_lt (mode : MulmodMode) {n : Nat} (hn : 0 < n) (fuel : Nat) {r : Nat} (b e : Nat) (hr : r < n) :
    powmodLoop mode n fuel r b e < n := by
  induction fuel generalizing r b e with
  | zero => exact hr
  | succ fuel ih =>
    rw [powmodLoop]
    split
    · exact hr
    · apply ih
      split
      · exact mulmod_lt mode r b hn
      · exact hr

theorem powmod_lt (mode : MulmodMode) (b e : Nat) {n : Nat} (hn : 0 < n) : powmod mode b e n < n :=
  powmodLoop_lt mode hn _ _ e (Nat.mod_lt 1 hn)

/-- Settles O38: the loop is the power by the bits, which is the power mod n where its multiplications are exact. -/
theorem powmodIsBinaryAndExact : Obligations.PowmodIsBinaryAndExact :=
  fun mode b e n hn => ⟨powmod_eq_binaryPower mode b n (lt_two_pow_bitlen e), powmod_exact b e hn⟩

/-! ### ar.powmod (rule R163) -/

theorem exec_arPowmod (d1 s1 s2 s3 : Reg) {s : State} (hn : s.xNat s3 ≠ 0) :
    exec (.arPowmod d1 s1 s2 s3) s =
      .next (s.writeXNat d1 (powmod s.params.mulmodMode (s.xNat s1) (s.xNat s2) (s.xNat s3))).succeeded := by
  show conclude (if s.xNat s3 = 0 then _ else _) = _
  rw [if_neg hn, conclude_done_succeeded]

/-- Settles O39: the power ar.powmod writes is powmod's, and its exponent has at most 64 bits. -/
theorem arPowmodResult : Obligations.ArPowmodResult := by
  intro d1 s1 s2 s3 s hn
  have hpos : 0 < s.xNat s3 := Nat.pos_of_ne_zero hn
  exact ⟨powmod s.params.mulmodMode (s.xNat s1) (s.xNat s2) (s.xNat s3), powmod_lt _ _ _ hpos,
    powmod_eq_binaryPower _ _ _ (s.xNat_lt s2), powmod_exact _ _ hpos, exec_arPowmod d1 s1 s2 s3 hn⟩

end Sys2Proof.Machine
end

section
/-! Euclid's algorithm (obligations O41 to O43): the loops of gcd and egcd compute Mathlib's greatest common divisor and Bezout
coefficients, whose classical bound makes them exact in a register (41_arith.md rules R153 to R156). -/

namespace Sys2Proof.Machine

/-! ### gcd (rules R153, R164) -/

theorem natGcd_turn (a b : Nat) : Nat.gcd a b = Nat.gcd b (a % b) := by
  rw [Nat.gcd_comm a b, Nat.gcd_rec b a, Nat.gcd_comm]

theorem gcd_eq_natGcd (a b : Nat) : gcd a b = Nat.gcd a b := by
  induction b using Nat.strong_induction_on generalizing a with
  | _ b ih =>
    by_cases hb : b = 0
    · rw [hb, gcd_zero, Nat.gcd_zero_right]
    · rw [gcd_turn a hb, ih (a % b) (Nat.mod_lt a (Nat.pos_of_ne_zero hb)), natGcd_turn a b]

theorem exec_arGcd (d1 s1 s2 : Reg) (s : State) :
    exec (.arGcd d1 s1 s2) s = .next (s.writeXNat d1 (gcd (s.xNat s1) (s.xNat s2))).succeeded :=
  conclude_done_succeeded _

/-- Settles O41: the loop of ar.gcd computes the greatest common divisor. -/
theorem arGcdResult : Obligations.ArGcdResult := by
  intro d1 s1 s2 s
  rw [exec_arGcd, gcd_eq_natGcd, State.writeXNat_eq]

/-! ### The coefficients of egcd (rule R154) -/

/-- The loop of egcd is Mathlib's, which takes the two rows in the other order. -/
theorem egcdLoop_eq_xgcdAux (r0 r1 : Nat) (s0 s1 t0 t1 : Int) :
    egcdLoop r1 r0 r1 s0 s1 t0 t1 =
      ⟨(Nat.xgcdAux r1 t1 s1 r0 t0 s0).1, (Nat.xgcdAux r1 t1 s1 r0 t0 s0).2.2, (Nat.xgcdAux r1 t1 s1 r0 t0 s0).2.1⟩ := by
  induction r1 using Nat.strong_induction_on generalizing r0 s0 s1 t0 t1 with
  | _ r1 ih =>
    by_cases h : r1 = 0
    · subst h
      rw [egcdLoop_done, Nat.xgcd_zero_left]
    · have hpos : 0 < r1 := Nat.pos_of_ne_zero h
      rw [egcdLoop_turn r0 s0 s1 t0 t1 h, ih _ (Nat.mod_lt r0 hpos), Nat.xgcdAux_rec hpos, Int.natCast_div]

theorem egcd_eq (a b : Nat) : egcd a b = ⟨Nat.gcd a b, Nat.gcdB b a, Nat.gcdA b a⟩ := by
  rw [egcd, egcdLoop_eq_xgcdAux, Nat.xgcdAux_val, Nat.gcd_comm]
  rfl

/-- The result of the loop is linear in the coefficients it starts from. -/
theorem xgcdAux_linear (r r' : Nat) : ∃ p q : Int, ∀ s t s' t' : Int,
    (Nat.xgcdAux r s t r' s' t').2 = (p * s + q * s', p * t + q * t') := by
  induction r, r' using Nat.gcd.induction with
  | H0 r' => exact ⟨0, 1, fun s t s' t' => by simp⟩
  | H1 r r' hr ih =>
    obtain ⟨p, q, h⟩ := ih
    refine ⟨q - p * (r' / r : Int), p, fun s t s' t' => ?_⟩
    rw [Nat.xgcdAux_rec hr, h]
    ext <;> simp only <;> ring

/-- The two factors are the Bezout coefficients themselves. -/
theorem xgcdAux_snd (r r' : Nat) (s t s' t' : Int) : (Nat.xgcdAux r s t r' s' t').2 =
    (Nat.gcdA r r' * s + Nat.gcdB r r' * s', Nat.gcdA r r' * t + Nat.gcdB r r' * t') := by
  obtain ⟨p, q, h⟩ := xgcdAux_linear r r'
  have hval : (Nat.gcdA r r', Nat.gcdB r r') = (p, q) := by
    have := h 1 0 0 1
    rwa [Nat.xgcdAux_val, Nat.xgcd_val, mul_one, mul_zero, mul_zero, mul_one, add_zero, zero_add] at this
  obtain ⟨hp, hq⟩ := Prod.mk.inj hval
  rw [h, hp, hq]

/-- One turn of Euclid's algorithm on the coefficients. -/
theorem gcdA_gcdB_turn (a : Nat) {b : Nat} (hb : 0 < b) :
    Nat.gcdA b a = Nat.gcdB (a % b) b - (a / b : Nat) * Nat.gcdA (a % b) b ∧
      Nat.gcdB b a = Nat.gcdA (a % b) b := by
  have h : (Nat.gcdA b a, Nat.gcdB b a) =
      (Nat.gcdA (a % b) b * (0 - a / b * 1) + Nat.gcdB (a % b) b * 1,
        Nat.gcdA (a % b) b * (1 - a / b * 0) + Nat.gcdB (a % b) b * 0) := by
    rw [← Nat.xgcd_val, ← xgcdAux_snd, ← Nat.xgcdAux_rec hb]
    rfl
  obtain ⟨hA, hB⟩ := Prod.mk.inj h
  rw [hA, hB]
  push_cast
  constructor <;> ring

/-- Divisibility ends the algorithm in one turn. -/
theorem gcdA_gcdB_of_dvd {a b : Nat} (hb : 0 < b) (h : b ∣ a) : Nat.gcdA b a = 1 ∧ Nat.gcdB b a = 0 := by
  obtain ⟨hA, hB⟩ := gcdA_gcdB_turn a hb
  rw [Nat.mod_eq_zero_of_dvd h, Nat.gcdA_zero_left] at hA hB
  rw [Nat.gcdB_zero_left, mul_zero, sub_zero] at hA
  exact ⟨hA, hB⟩

/-- The classical bound, for operands in falling order (rule R155): it passes from (b, a mod b) to (a, b). -/
theorem bezout_bound_of_lt {a b : Nat} (hb : 0 < b) (hlt : b < a) :
    2 * Nat.gcd a b * (Nat.gcdB b a).natAbs ≤ b ∧ 2 * Nat.gcd a b * (Nat.gcdA b a).natAbs ≤ a := by
  induction b using Nat.strong_induction_on generalizing a with
  | _ b ih =>
    by_cases hd : b ∣ a
    · obtain ⟨hA, hB⟩ := gcdA_gcdB_of_dvd hb hd
      obtain ⟨k, rfl⟩ := hd
      have hk : 2 ≤ k := by
        by_contra hk
        have : b * k ≤ b * 1 := Nat.mul_le_mul_left b (by omega)
        omega
      rw [hA, hB, Nat.gcd_comm, Nat.gcd_mul_right_right]
      refine ⟨Nat.zero_le _, ?_⟩
      calc 2 * b * (1 : Int).natAbs = b * 2 := by rw [Int.natAbs_one]; ring
        _ ≤ b * k := Nat.mul_le_mul_left b hk
    · have hpos : 0 < a % b := Nat.pos_of_ne_zero fun h => hd (Nat.dvd_of_mod_eq_zero h)
      obtain ⟨hA, hB⟩ := gcdA_gcdB_turn a hb
      obtain ⟨hs, ht⟩ := ih (a % b) (Nat.mod_lt a hb) hpos (Nat.mod_lt a hb)
      rw [← natGcd_turn] at hs ht
      rw [hA, hB]
      refine ⟨ht, ?_⟩
      generalize Nat.gcd a b = g at hs ht ⊢
      generalize Nat.gcdA (a % b) b = t at ht ⊢
      generalize Nat.gcdB (a % b) b = s at hs ⊢
      calc 2 * g * (s - (a / b : Nat) * t).natAbs
          ≤ 2 * g * (s.natAbs + (a / b) * t.natAbs) := by
            refine Nat.mul_le_mul_left _ ((Int.natAbs_sub_le _ _).trans ?_)
            rw [Int.natAbs_mul, Int.natAbs_natCast]
        _ = 2 * g * s.natAbs + (a / b) * (2 * g * t.natAbs) := by ring
        _ ≤ a % b + (a / b) * b := Nat.add_le_add hs (Nat.mul_le_mul_left _ ht)
        _ = a := Nat.mod_add_div' a b

/-- The bound of rule R155, for all operands. -/
theorem bezout_bound (a b : Nat) (hg : Nat.gcd a b ≠ 0) :
    2 * Nat.gcd a b * (Nat.gcdB b a).natAbs ≤ max (2 * Nat.gcd a b) b ∧
      2 * Nat.gcd a b * (Nat.gcdA b a).natAbs ≤ max (2 * Nat.gcd a b) a := by
  obtain rfl | hb := Nat.eq_zero_or_pos b
  · rw [Nat.gcdB_zero_left, Nat.gcdA_zero_left]
    exact ⟨by simp, by simp⟩
  by_cases hd : b ∣ a
  · obtain ⟨hA, hB⟩ := gcdA_gcdB_of_dvd hb hd
    rw [hA, hB]
    exact ⟨by simp, by simp⟩
  obtain hlt | hge := Nat.lt_or_ge b a
  · obtain ⟨hs, ht⟩ := bezout_bound_of_lt hb hlt
    exact ⟨le_max_of_le_right hs, le_max_of_le_right ht⟩
  · have ha : 0 < a := Nat.pos_of_ne_zero fun h => hd (h ▸ dvd_zero b)
    have hlt : a < b := lt_of_le_of_ne hge fun h => hd (h ▸ dvd_rfl)
    obtain ⟨hA, hB⟩ := gcdA_gcdB_turn a hb
    obtain ⟨hs, ht⟩ := bezout_bound_of_lt ha hlt
    rw [Nat.mod_eq_of_lt hlt] at hA hB
    rw [Nat.div_eq_of_lt hlt, Nat.cast_zero, zero_mul, sub_zero] at hA
    rw [Nat.gcd_comm] at hs ht
    rw [hA, hB]
    exact ⟨le_max_of_le_right ht, le_max_of_le_right hs⟩

/-- So a coefficient fits a register: one within the bound of rule R155 is exact as two's complement. -/
theorem toInt_ofInt_of_bound {g x : Nat} {u : Int} (hg : 0 < g) (hx : x < 2 ^ 64)
    (h : 2 * g * u.natAbs ≤ max (2 * g) x) : (BitVec.ofInt 64 u).toInt = u := by
  have habs : u.natAbs < 2 ^ 63 := by
    obtain h | h := le_max_iff.mp h
    · have : u.natAbs ≤ 1 := Nat.le_of_mul_le_mul_left (by rwa [mul_one]) (show 0 < 2 * g by omega)
      omega
    · have : 2 * u.natAbs ≤ 2 * g * u.natAbs := Nat.mul_le_mul_right _ (by omega)
      omega
  exact BitVec.toInt_ofInt_eq_self (by decide) (by omega) (by omega)

theorem bezout_toInt {a b : Nat} (ha : a < 2 ^ 64) (hb : b < 2 ^ 64) :
    (BitVec.ofInt 64 (Nat.gcdB b a)).toInt = Nat.gcdB b a ∧
      (BitVec.ofInt 64 (Nat.gcdA b a)).toInt = Nat.gcdA b a := by
  by_cases hg : Nat.gcd a b = 0
  · obtain ⟨rfl, rfl⟩ := Nat.gcd_eq_zero_iff.mp hg
    rw [Nat.gcdB_zero_left, Nat.gcdA_zero_left]
    decide
  · obtain ⟨hs, ht⟩ := bezout_bound a b hg
    exact ⟨toInt_ofInt_of_bound (Nat.pos_of_ne_zero hg) hb hs, toInt_ofInt_of_bound (Nat.pos_of_ne_zero hg) ha ht⟩

/-! ### ar.egcd (rule R165) -/

theorem exec_arEgcd (d1 d2 d3 s1 s2 : Reg) (s : State) :
    exec (.arEgcd d1 d2 d3 s1 s2) s =
      .next (((s.writeXNat d1 (egcd (s.xNat s1) (s.xNat s2)).g).writeXInt d2 (egcd (s.xNat s1) (s.xNat s2)).s).writeXInt
        d3 (egcd (s.xNat s1) (s.xNat s2)).t).succeeded :=
  conclude_done_succeeded _

/-- Settles O42: the loop is Mathlib's iteration, whose coefficients have the classical bound. -/
theorem arEgcdResult : Obligations.ArEgcdResult := by
  intro d1 d2 d3 s1 s2 s a b g u v
  obtain ⟨hu, hv⟩ := bezout_toInt (s.xNat_lt s1) (s.xNat_lt s2)
  refine ⟨?_, bezout_bound a b, ?_, ?_, ?_, hu, hv, ?_⟩
  · show (a : Int) * Nat.gcdB b a + b * Nat.gcdA b a = Nat.gcd a b
    rw [Nat.gcd_comm, Nat.gcd_eq_gcd_ab, add_comm]
  · intro hb
    show Nat.gcdB b a = 1 ∧ Nat.gcdA b a = 0
    rw [hb]
    exact ⟨Nat.gcdB_zero_left, Nat.gcdA_zero_left⟩
  · intro ha hb
    exact (gcdA_gcdB_of_dvd (Nat.pos_of_ne_zero hb) (ha ▸ dvd_zero b)).symm
  · intro hab hb
    exact (gcdA_gcdB_of_dvd (Nat.pos_of_ne_zero hb) (hab ▸ dvd_rfl)).symm
  · rw [exec_arEgcd, egcd_eq]
    rfl

/-! ### ar.inv (rules R156, R166) -/

/-- modinv gives an inverse where there is one (rule R156). -/
theorem modinv_of_coprime {e m : Nat} (hm : 0 < m) (h : Nat.gcd e m = 1) :
    ∃ d, modinv e m = some d ∧ d < m ∧ e * d % m = 1 % m := by
  have hm' : (m : Int) ≠ 0 := by omega
  have hbezout : (e : Int) * Nat.gcdB m e = 1 - m * Nat.gcdA m e := by
    have := Nat.gcd_eq_gcd_ab m e
    rw [Nat.gcd_comm, h] at this
    linear_combination -this
  have hnonneg := Int.emod_nonneg (Nat.gcdB m e) hm'
  refine ⟨(Nat.gcdB m e % m).toNat, ?_, ?_, ?_⟩
  · rw [modinv, egcd_eq, if_pos h]
  · have := Int.emod_lt_of_pos (Nat.gcdB m e) (show (0 : Int) < m by omega)
    omega
  · zify
    rw [Int.toNat_of_nonneg hnonneg, Int.mul_emod, Int.emod_emod, ← Int.mul_emod, hbezout, Int.sub_mul_emod_self_left]

theorem exec_arInv_some (d1 s1 s2 : Reg) {s : State} {d : Nat} (hm : s.xNat s2 ≠ 0)
    (h : modinv (s.xNat s1) (s.xNat s2) = some d) :
    exec (.arInv d1 s1 s2) s = .next (s.writeXNat d1 d).succeeded := by
  show conclude (if s.xNat s2 = 0 then _ else _) = _
  rw [if_neg hm, h, conclude_done_succeeded]

/-- Settles O43: the Bezout coefficient of e, reduced mod m, is its inverse. -/
theorem arInvResult : Obligations.ArInvResult := by
  intro d1 s1 s2 s hm hcoprime
  obtain ⟨d, hd, hlt, hinv⟩ := modinv_of_coprime (Nat.pos_of_ne_zero hm) hcoprime
  exact ⟨d, hlt, hinv, exec_arInv_some d1 s1 s2 hm hd⟩

end Sys2Proof.Machine
end

section
/-! The Jacobi symbol (obligation O45): the loop of rule R158 keeps the sign times the symbol, by the supplement for 2 and
quadratic reciprocity (41_arith.md rules R157, R158, R167). -/

namespace Sys2Proof.Machine

/-- Stripping the twos keeps the sign times the symbol: each halving turns the sign as the symbol of 2 does. -/
theorem stripTwos_jacobiSym {n : Nat} (hn : n % 2 = 1) {a : Nat} (t : Int) (ha : a ≠ 0) :
    (stripTwos n a a t).2 * jacobiSym (stripTwos n a a t).1 n = t * jacobiSym a n := by
  induction a using Nat.strong_induction_on generalizing t with
  | _ a ih =>
    obtain heven | hodd := Nat.mod_two_eq_zero_or_one a
    · have hhalf : (if n % 8 = 3 ∨ n % 8 = 5 then -jacobiSym (a / 2 : Nat) n else jacobiSym (a / 2 : Nat) n) =
          jacobiSym a n := by
        rw [Int.natCast_div]
        exact jacobiSym.even_odd (by omega) hn
      rw [stripTwos_even n t ha heven, ih (a / 2) (by omega) _ (by omega), ← hhalf]
      split
      · rw [neg_mul, mul_neg]
      · rfl
    · rw [stripTwos_odd n t hodd]

theorem jacobiSym_natCast_mod (a n : Nat) : jacobiSym (a % n : Nat) n = jacobiSym a n := by
  rw [Int.natCast_mod, ← jacobiSym.mod_left]

/-- The loop gives the sign times the symbol. -/
theorem jacobiLoop_eq {n : Nat} (hn : n % 2 = 1) (a : Nat) (t : Int) : jacobiLoop a a n t = t * jacobiSym a n := by
  induction a using Nat.strong_induction_on generalizing n t with
  | _ a ih =>
    by_cases ha : a = 0
    · subst ha
      rw [jacobiLoop_done]
      split
      next h => rw [h, jacobiSym.one_right, mul_one]
      next h => rw [Nat.cast_zero, jacobiSym.zero_left (by omega), mul_zero]
    · obtain ⟨hodd, hle⟩ := stripTwos_fst n a t ha
      have hsym := stripTwos_jacobiSym hn t ha
      rw [jacobiLoop_turn n t ha]
      generalize (stripTwos n a a t).1 = o at hodd hle hsym ⊢
      generalize (stripTwos n a a t).2 = t' at hsym ⊢
      rw [ih (n % o) ((Nat.mod_lt n (by omega)).trans_le hle) hodd, jacobiSym_natCast_mod, ← hsym,
        ← jacobiSym.quadratic_reciprocity_if hodd hn]
      simp only [and_comm (a := n % 4 = 3)]
      split
      · rw [neg_mul, mul_neg]
      · rfl

theorem jacobi_eq_jacobiSym (a : Nat) {n : Nat} (hn : n % 2 = 1) : jacobi a n = jacobiSym a n := by
  rw [jacobi, jacobiLoop_eq hn, one_mul, jacobiSym_natCast_mod]

theorem exec_arJacobi (d1 s1 s2 : Reg) {s : State} (hn : s.xNat s2 % 2 = 1) :
    exec (.arJacobi d1 s1 s2) s = .next (s.writeXInt d1 (jacobi (s.xNat s1) (s.xNat s2))).succeeded := by
  show conclude (if s.xNat s2 % 2 = 0 then _ else _) = _
  rw [if_neg (by omega), conclude_done_succeeded]

/-- Settles O45: the loop of ar.jacobi computes the symbol of number theory. -/
theorem arJacobiResult : Obligations.ArJacobiResult := by
  intro d1 s1 s2 s hn
  rw [exec_arJacobi d1 s1 s2 hn, jacobi_eq_jacobiSym _ hn, State.writeXInt_eq]

end Sys2Proof.Machine
end

section
/-! The Solovay-Strassen test (obligations O47, O48): a trial is the Euler check on the Jacobi symbol, sstest takes the verdict
and the draws of its trials, and Euler's criterion lets every prime pass (41_arith.md rules R159 to R162, R168). -/

namespace Sys2Proof.Machine

/-! ### One trial (rules R160, R161) -/

/-- The reference power is powmod's. -/
theorem powmod_eq_powerMod (mode : MulmodMode) (b : Nat) {e n : Nat} (hn : 0 < n) (he : e < 2 ^ 64) :
    powmod mode b e n = powerMod mode b e n := by
  unfold powerMod
  split
  next h => exact powmod_exact b e hn h
  next h =>
    cases mode with
    | exact => exact absurd (.inl rfl) h
    | wrap64 => exact powmod_eq_binaryPower .wrap64 b n he

/-- A trial is the Euler check of its witness. -/
theorem trial_eq_eulerPass (mode : MulmodMode) {c : Nat} (hodd : c % 2 = 1) (hlt : c < 2 ^ 64) (d : Word64) :
    trial mode c (2 + d.toNat % (c - 3)) = eulerPass mode c d := by
  have hpow (a : Nat) : powmod mode a ((c - 1) / 2) c = powerMod mode a ((c - 1) / 2) c :=
    powmod_eq_powerMod mode a (by omega) (by omega)
  unfold trial eulerPass
  simp only [jacobi_eq_jacobiSym _ hodd, hpow]
  by_cases hzero : jacobiSym (2 + d.toNat % (c - 3) : Nat) c = 0
  · rw [if_pos hzero, eq_comm, decide_eq_false_iff_not]
    exact fun h => h.1 hzero
  · rw [if_neg hzero, Bool.beq_eq_decide_eq]
    exact decide_eq_decide.mpr (and_iff_right hzero).symm

/-! ### The trials of a candidate (rule R162) -/

/-- How many of the next k draws pass before the first that does not. -/
def passes (mode : MulmodMode) (c k : Nat) (r : Source) : Nat :=
  ((List.range k).takeWhile fun i => eulerPass mode c (r.ahead i)).length

@[simp] theorem passes_zero (mode : MulmodMode) (c : Nat) (r : Source) : passes mode c 0 r = 0 := rfl

theorem passes_succ (mode : MulmodMode) (c k : Nat) (r : Source) :
    passes mode c (k + 1) r = if eulerPass mode c (r.ahead 0) then passes mode c k (r.after 1) + 1 else 0 := by
  unfold passes
  rw [List.range_succ_eq_map, List.takeWhile_cons]
  split
  · rw [List.takeWhile_map, List.length_cons, List.length_map]
    simp only [Function.comp_def, Source.ahead_after, Nat.succ_eq_one_add]
  · rfl

/-- The trials run up to the first rejection, one draw each. -/
theorem trials_eq (mode : MulmodMode) {c : Nat} (h5 : 5 ≤ c) (hodd : c % 2 = 1) (hlt : c < 2 ^ 64) (k : Nat) (r : Source) :
    trials mode c k r = if passes mode c k r = k then (true, r.after k) else (false, r.after (passes mode c k r + 1)) := by
  induction k generalizing r with
  | zero => simp [trials]
  | succ k ih =>
    have hdraw : r.drawIn 2 (c - 2) = (2 + (r.ahead 0).toNat % (c - 3), r.after 1) := by
      rw [Source.drawIn, Source.draw_eq, show c - 2 - 2 + 1 = c - 3 by omega]
    rw [trials, hdraw, passes_succ]
    simp only [trial_eq_eulerPass mode hodd hlt]
    split
    · rw [ih]
      simp only [Nat.add_right_cancel_iff, Source.after_after, Nat.add_comm 1]
    · rfl

/-- sstest gives the verdict of number theory and takes its draws. -/
theorem sstest_eq_primeVerdict (mode : MulmodMode) {c : Nat} (hlt : c < 2 ^ 64) (k : Nat) (r : Source) :
    sstest mode c k r = ((primeVerdict mode c k r).1, r.after (primeVerdict mode c k r).2) := by
  by_cases hsmall : c < 5 ∨ c % 2 = 0
  · rw [primeVerdict_small mode c k r hsmall, Source.after_zero]
    unfold sstest
    split
    · rw [decide_eq_false (by omega)]
    · split
      next h => rw [decide_eq_true h]
      next h => rw [decide_eq_false h, if_pos (by omega)]
  · have hverdict : primeVerdict mode c k r = if passes mode c k r = k then (true, k) else (false, passes mode c k r + 1) :=
      if_neg hsmall
    have htrials : sstest mode c k r = trials mode c k r := by
      unfold sstest
      rw [if_neg (by omega), if_neg (by omega), if_neg (by omega)]
    rw [htrials, trials_eq mode (by omega) (by omega) hlt, hverdict]
    split <;> rfl

/-! ### ar.prime (rule R168) -/

theorem exec_arPrime (d1 s1 : Reg) {s : State} (hk : s.cfg.k.toNat ≠ 0) : exec (.arPrime d1 s1) s = .next (State.succeeded
    (State.writeXNat { s with source := (sstest s.params.mulmodMode (s.xNat s1) s.cfg.k.toNat s.source).2 } d1
      (if (sstest s.params.mulmodMode (s.xNat s1) s.cfg.k.toNat s.source).1 then 1 else 0))) := by
  show conclude (if s.cfg.k.toNat = 0 then _ else _) = _
  rw [if_neg hk, conclude_done_succeeded]

/-- ar.prime in the terms of number theory: the verdict to D1, and its draws. -/
theorem exec_arPrime_verdict (d1 s1 : Reg) {s : State} (hk : s.cfg.k.toNat ≠ 0) {prime : Bool} {taken : Nat}
    (h : primeVerdict s.params.mulmodMode (s.xNat s1) s.cfg.k.toNat s.source = (prime, taken)) :
    exec (.arPrime d1 s1) s = .next (State.succeeded
      (State.writeX { s with source := s.source.after taken } d1 (if prime then 1 else 0))) := by
  rw [exec_arPrime d1 s1 hk, sstest_eq_primeVerdict _ (s.xNat_lt s1), h, State.writeXNat_eq]
  cases prime <;> rfl

/-- Settles O47: sstest is the verdict on its candidate, which counts the trials that pass. -/
theorem arPrimeResult : Obligations.ArPrimeResult := by
  intro d1 s1 s c k good taken hk
  refine ⟨fun hsmall => ?_, fun h5 hodd => ?_⟩
  · rw [exec_arPrime_verdict d1 s1 hk (primeVerdict_small _ _ _ _ hsmall), Source.after_zero]
    simp only [decide_eq_true_eq]
    rfl
  · have hverdict : primeVerdict s.params.mulmodMode c k s.source =
        if good.length = k then (true, k) else (false, good.length + 1) := if_neg (by omega)
    by_cases hall : good.length = k
    · rw [if_pos hall] at hverdict
      rw [exec_arPrime_verdict d1 s1 hk hverdict]
      simp only [taken, if_pos hall]
      rfl
    · rw [if_neg hall] at hverdict
      rw [exec_arPrime_verdict d1 s1 hk hverdict]
      simp only [taken, if_neg hall]
      rfl

/-! ### Primes (rule R162) -/

/-- Euler's criterion: every witness of a prime passes, where multiplication is exact. -/
theorem eulerPass_of_prime {mode : MulmodMode} {p : Nat} (hp : p.Prime) (h5 : 5 ≤ p) (hexact : exactFor mode p)
    (d : Word64) : eulerPass mode p d = true := by
  have : Fact p.Prime := ⟨hp⟩
  have hmod : d.toNat % (p - 3) < p - 3 := Nat.mod_lt _ (by omega)
  obtain ⟨a, ha⟩ : ∃ a, 2 + d.toNat % (p - 3) = a := ⟨_, rfl⟩
  have hcoprime : Int.gcd a p = 1 :=
    Nat.Coprime.symm ((Nat.Prime.coprime_iff_not_dvd hp).mpr (Nat.not_dvd_of_pos_of_lt (by omega) (by omega)))
  refine eulerPass_of mode p d a _ ha rfl (jacobiSym.ne_zero hcoprime) ?_
  have hhalf : (p - 1) / 2 = p / 2 := by
    have := hp.eq_two_or_odd
    omega
  have heuler : ((a ^ (p / 2) : Nat) : ZMod p) = (jacobiSym a p : Int) := by
    rw [← jacobiSym.legendreSym.to_jacobiSym, legendreSym.eq_pow]
    push_cast
    rfl
  rw [powerMod, if_pos hexact, hhalf, Int.natCast_mod]
  exact (ZMod.intCast_eq_intCast_iff' _ _ _).mp (by rw [← heuler, Int.cast_natCast])

/-- Settles O48: all trials of a prime pass, and a prime below 5 is 2 or 3. -/
theorem arPrimeAcceptsPrimes : Obligations.ArPrimeAcceptsPrimes := by
  intro d1 s1 s hk hp hexact
  have hk' : s.cfg.k.toNat ≠ 0 := fun h => hk (BitVec.eq_of_toNat_eq h)
  have hodd := hp.eq_two_or_odd
  have htwo := hp.two_le
  refine exec_arPrime_verdict d1 s1 hk' (prime := true) ?_
  by_cases h5 : s.xNat s1 < 5
  · have hsmall : s.xNat s1 = 2 ∨ s.xNat s1 = 3 := by omega
    rw [primeVerdict_small _ _ _ _ (.inl h5), if_pos h5, decide_eq_true hsmall]
  · rw [if_neg h5]
    exact primeVerdict_passes _ _ _ _ (by omega) (by omega) fun _ _ => eulerPass_of_prime hp (by omega) hexact _

end Sys2Proof.Machine
end

section
/-! The frame of the register commands (obligation O50): nop, the ar commands and kc.bpb write their destination registers and
ar.prime the random source, and complete (41_arith.md section 3, 42_cipher.md rule R209, 60_exceptions.md rule R254). -/

namespace Sys2Proof.Machine

/-- u is s after writes to registers among ds. -/
inductive WritesOnly (ds : List Reg) (s : State) : State → Prop
  | refl : WritesOnly ds s s
  | writeX {u : State} (h : WritesOnly ds s u) {i : Reg} (hi : i ∈ ds) (v : Word64) : WritesOnly ds s (u.writeX i v)

theorem WritesOnly.eq {ds : List Reg} {s u : State} (h : WritesOnly ds s u) : u = { s with x := u.x } := by
  induction h with
  | refl => rfl
  | writeX _ _ _ ih => rw [ih]; rfl

theorem WritesOnly.readX {ds : List Reg} {s u : State} (h : WritesOnly ds s u) {r : Reg} (hr : r ∉ ds) :
    u.readX r = s.readX r := by
  induction h with
  | refl => rfl
  | writeX _ hi _ ih => exact (State.readX_writeX_other _ _ fun (heq : r = _) => hr (heq ▸ hi)).trans ih

/-- Everything a register command can do before it completes: draw, if it is ar.prime, and write its destinations. -/
theorem exec_writesOnly {i : Instr} (hi : sessionCommand i = false) (hk : i ≠ .kcKeygen)
    (hstore : ∀ a b c d, i ≠ .deHex a b ∧ i ≠ .kcEncode a b c d ∧ i ≠ .kcDecode a b c d) (s : State) :
    ∃ r u c, exec i s = .next (State.complete u c) ∧ WritesOnly (destRegs i) { s with source := r } u ∧
      (drawingCommand i = false → r = s.source) := by
  cases i with
  | deInit | deUpdate | deFinal | deHash => cases hi
  | kcKeygen => exact absurd rfl hk
  | deHex a b => exact absurd rfl (hstore a b 0 0).1
  | kcEncode a b c d => exact absurd rfl (hstore a b c d).2.1
  | kcDecode a b c d => exact absurd rfl (hstore a b c d).2.2
  | nop => exact ⟨s.source, _, _, rfl, .refl, fun _ => rfl⟩
  | arGcd | kcBpb => exact ⟨s.source, _, _, rfl, WritesOnly.refl.writeX (.head _) _, fun _ => rfl⟩
  | arEgcd =>
    exact ⟨s.source, _, _, rfl, ((WritesOnly.refl.writeX (.head _) _).writeX (.tail _ (.head _)) _).writeX
      (.tail _ (.tail _ (.head _))) _, fun _ => rfl⟩
  | arPowmod | arJacobi =>
    refine ⟨s.source, _, _, rfl, ?_, fun _ => rfl⟩
    split
    · exact .refl
    · exact WritesOnly.refl.writeX (.head _) _
  | arInv =>
    refine ⟨s.source, _, _, rfl, ?_, fun _ => rfl⟩
    split
    · exact .refl
    · split
      · exact WritesOnly.refl.writeX (.head _) _
      · exact .refl
  | arPrime d1 s1 =>
    by_cases hzero : s.cfg.k.toNat = 0
    · exact ⟨s.source, s, .arg, congrArg conclude (if_pos hzero), .refl, fun h => nomatch h⟩
    · have hexec := exec_arPrime d1 s1 hzero
      rw [← complete_ok] at hexec
      exact ⟨_, _, _, hexec, WritesOnly.refl.writeX (.head _) _, fun h => nomatch h⟩

/-- Settles O50: a register command does nothing but its draws, its writes of destinations and its completion. -/
theorem registerCommandFrame : Obligations.RegisterCommandFrame := by
  intro i s t hi hk hstore hexec
  obtain ⟨r, u, c, hu, hwrites, hsource⟩ := exec_writesOnly hi hk hstore s
  cases hexec.symm.trans hu
  refine ⟨fun _ hr => (u.readX_complete c _).trans (hwrites.readX hr), ?_⟩
  rw [hwrites.eq]
  exact ⟨fun _ => rfl, rfl, rfl, rfl, rfl, rfl, rfl, rfl, rfl, rfl, rfl, rfl, hsource⟩

end Sys2Proof.Machine
end

section
/-! The searches of kc.keygen by their counters (obligations O51, O52, O54): each search of the machine goes as the counted
search of Safety.lean says, whatever is drawn (42_cipher.md rules R193 to R197). -/

namespace Sys2Proof.Machine

/-! ### One prime search (rule R193) -/

/-- A candidate is drawn in the prime range. -/
theorem Search.drawIn_eq_candidate (z : Search) (r : Source) : r.drawIn z.pmin z.pmax = (z.candidate r, r.after 1) := by
  rw [Source.drawIn, Source.draw_eq]
  rfl

theorem Search.candidate_mem {z : Search} (hle : z.pmin ≤ z.pmax) (r : Source) :
    z.pmin ≤ z.candidate r ∧ z.candidate r ≤ z.pmax := by
  have hmem := r.drawIn_mem hle
  rwa [z.drawIn_eq_candidate] at hmem

section
variable {z : Search} (hle : z.pmin ≤ z.pmax) (hmax : z.pmax < 2 ^ 32)
include hle hmax

/-- One try: the search ends with a candidate of verdict PRIME and goes on after any other. -/
theorem Search.findPrime_succ (tries : Nat) (r : Source) :
    z.findPrime (tries + 1) r =
      if (z.verdict r).1 then (some (z.candidate r), z.passed r) else z.findPrime tries (z.passed r) := by
  obtain ⟨-, hc⟩ := Search.candidate_mem hle r
  rw [Search.findPrime, z.drawIn_eq_candidate]
  simp only [sstest_eq_primeVerdict z.mode (show z.candidate r < 2 ^ 64 by omega), Source.after_after]
  rfl

/-- Rejected candidates only use up tries. -/
theorem Search.findPrime_rejected (n tries : Nat) {r : Source} (h : ∀ j < n, (z.verdict (z.passed^[j] r)).1 = false) :
    z.findPrime (n + tries) r = z.findPrime tries (z.passed^[n] r) := by
  induction n generalizing r with
  | zero => rw [Nat.zero_add]; rfl
  | succ n ih =>
    have hfirst : (z.verdict r).1 = false := h 0 n.succ_pos
    rw [Nat.add_right_comm, Search.findPrime_succ hle hmax, hfirst, Function.iterate_succ_apply]
    exact ih fun j hj => h (j + 1) (Nat.succ_lt_succ hj)

theorem Search.FindsPrime.findPrime_eq {r r' : Source} {c : Nat} (h : z.FindsPrime r c r') :
    z.findPrime z.cap r = (some c, r') := by
  obtain ⟨i, hi, hrejected, hprime, rfl, rfl⟩ := h
  obtain ⟨m, hm⟩ := Nat.exists_eq_add_of_lt hi
  rw [hm, Nat.add_assoc, Search.findPrime_rejected hle hmax i _ hrejected, Search.findPrime_succ hle hmax, hprime,
    Function.iterate_succ_apply']
  rfl

theorem Search.FindsNoPrime.findPrime_eq {r r' : Source} (h : z.FindsNoPrime r r') : z.findPrime z.cap r = (none, r') := by
  obtain ⟨hrejected, rfl⟩ := h
  exact Search.findPrime_rejected hle hmax z.cap 0 hrejected

/-! ### One pair attempt (rule R195) -/

theorem Search.FindsPair.drawPair_eq {r r' : Source} {p q : Nat} (h : z.FindsPair r p q r') :
    z.drawPair r = (some (p, q), r') := by
  obtain ⟨r1, hp, hq⟩ := h
  simp only [Search.drawPair, hp.findPrime_eq hle hmax, hq.findPrime_eq hle hmax]

theorem Search.FindsNoPair.drawPair_eq {r r' : Source} (h : z.FindsNoPair r r') : z.drawPair r = (none, r') := by
  obtain hp | ⟨p, r1, hp, hq⟩ := h
  · simp only [Search.drawPair, hp.findPrime_eq hle hmax]
  · simp only [Search.drawPair, hp.findPrime_eq hle hmax, hq.findPrime_eq hle hmax]

/-! ### The pair search (rule R195) -/

/-- Rejected pairs only use up attempts. -/
theorem Search.RejectsPairs.findPair_add {n : Nat} {r r' : Source} (h : z.RejectsPairs n r r') (pairs : Nat) :
    z.findPair (n + pairs) r = z.findPair pairs r' := by
  induction n generalizing r with
  | zero => rw [Nat.zero_add, (z.rejectsPairs_zero r r').mp h]
  | succ n ih =>
    obtain ⟨p, q, r1, hpair, hbad, hrest⟩ := (z.rejectsPairs_succ n r r').mp h
    rw [Nat.add_right_comm]
    simp only [Search.findPair, hpair.drawPair_eq hle hmax]
    obtain heq | hsmall := hbad
    · rw [if_pos heq, ih hrest]
    · rw [if_pos hsmall, ite_self, ih hrest]

theorem Search.AcceptsPair.findPair_eq {r r' : Source} {p q : Nat} (h : z.AcceptsPair r p q r') :
    z.findPair z.cap r = (some (p, q), r') := by
  obtain ⟨i, hi, r1, hrejected, hpair, hne, hbig⟩ := h
  obtain ⟨m, hm⟩ := Nat.exists_eq_add_of_lt hi
  rw [hm, Nat.add_assoc, hrejected.findPair_add hle hmax]
  simp only [Search.findPair, hpair.drawPair_eq hle hmax]
  rw [if_neg hne, if_neg (by omega)]

/-- The pair search is exhausted by its attempts or by a prime search of one of them. -/
theorem Search.findPair_exhausted {r r' : Source}
    (h : z.RejectsPairs z.cap r r' ∨ ∃ i < z.cap, ∃ r1, z.RejectsPairs i r r1 ∧ z.FindsNoPair r1 r') :
    z.findPair z.cap r = (none, r') := by
  obtain hall | ⟨i, hi, r1, hrejected, hnone⟩ := h
  · exact hall.findPair_add hle hmax 0
  · obtain ⟨m, hm⟩ := Nat.exists_eq_add_of_lt hi
    rw [hm, Nat.add_assoc, hrejected.findPair_add hle hmax]
    simp only [Search.findPair, hnone.drawPair_eq hle hmax]

end

/-! ### Every search ends one of its ways -/

theorem Search.findsPrime_or_findsNoPrime (z : Search) (r : Source) :
    (∃ c r', z.FindsPrime r c r') ∨ ∃ r', z.FindsNoPrime r r' := by
  by_cases hprime : ∃ i, i < z.cap ∧ (z.verdict (z.passed^[i] r)).1 = true
  · obtain ⟨hi, hfound⟩ := Nat.find_spec hprime
    refine .inl ⟨_, _, Nat.find hprime, hi, fun j hj => ?_, hfound, rfl, rfl⟩
    have hnot := Nat.find_min hprime hj
    exact Bool.eq_false_iff.mpr fun h => hnot ⟨hj.trans hi, h⟩
  · exact .inr ⟨_, fun j hj => Bool.eq_false_iff.mpr fun h => hprime ⟨j, hj, h⟩, rfl⟩

theorem Search.findsPair_or_findsNoPair (z : Search) (r : Source) :
    (∃ p q r', z.FindsPair r p q r') ∨ ∃ r', z.FindsNoPair r r' := by
  obtain ⟨p, r1, hp⟩ | ⟨r', hp⟩ := z.findsPrime_or_findsNoPrime r
  · obtain ⟨q, r', hq⟩ | ⟨r', hq⟩ := z.findsPrime_or_findsNoPrime r1
    · exact .inl ⟨p, q, r', r1, hp, hq⟩
    · exact .inr ⟨r', .inr ⟨p, r1, hp, hq⟩⟩
  · exact .inr ⟨r', .inl hp⟩

/-- The first n pair attempts: all are rejected, or one of them is exhausted, or one of them is accepted. -/
theorem Search.attempts_cases (z : Search) (n : Nat) (r : Source) :
    (∃ r', z.RejectsPairs n r r') ∨
    (∃ r', ∃ i < n, ∃ r1, z.RejectsPairs i r r1 ∧ z.FindsNoPair r1 r') ∨
    ∃ p q r', ∃ i < n, ∃ r1, z.RejectsPairs i r r1 ∧ z.FindsPair r1 p q r' ∧ p ≠ q ∧ 128 ≤ p * q := by
  induction n generalizing r with
  | zero => exact .inl ⟨r, rfl⟩
  | succ n ih =>
    obtain ⟨p, q, r1, hpair⟩ | ⟨r', hnone⟩ := z.findsPair_or_findsNoPair r
    · by_cases hbad : p = q ∨ p * q < 128
      · obtain ⟨r', h⟩ | ⟨r', i, hi, r2, hrej, h⟩ | ⟨p', q', r', i, hi, r2, hrej, h⟩ := ih r1
        · exact .inl ⟨r', p, q, r1, hpair, hbad, h⟩
        · exact .inr (.inl ⟨r', i + 1, Nat.succ_lt_succ hi, r2, ⟨p, q, r1, hpair, hbad, hrej⟩, h⟩)
        · exact .inr (.inr ⟨p', q', r', i + 1, Nat.succ_lt_succ hi, r2, ⟨p, q, r1, hpair, hbad, hrej⟩, h⟩)
      · exact .inr (.inr ⟨p, q, r1, 0, n.succ_pos, r, rfl, hpair, by omega, by omega⟩)
    · exact .inr (.inl ⟨r', 0, n.succ_pos, r, rfl, hnone⟩)

/-- A key generation gives a key or is exhausted (rules R194 to R197). -/
theorem Search.givesKey_or_exhausts (z : Search) (r : Source) :
    (∃ p q e r', z.GivesKey r p q e r') ∨ ∃ r', z.Exhausts r r' := by
  obtain ⟨r', h⟩ | ⟨r', h⟩ | ⟨p, q, r1, hpair⟩ := z.attempts_cases z.cap r
  · exact .inr ⟨r', .inl h⟩
  · exact .inr ⟨r', .inr (.inl h)⟩
  · by_cases hcoprime : ∃ k, k ≤ z.cap ∧ Nat.gcd (firstExponent p q r1 + k) (totient p q) = 1
    · obtain ⟨hk, hgcd⟩ := Nat.find_spec hcoprime
      refine .inl ⟨p, q, _, _, r1, hpair, rfl, Nat.find hcoprime, hk, rfl, hgcd, fun j hj h => ?_⟩
      exact Nat.find_min hcoprime hj ⟨hj.le.trans hk, h⟩
    · exact .inr ⟨_, .inr (.inr ⟨p, q, r1, hpair, rfl, fun j hj h => hcoprime ⟨j, hj, h⟩⟩)⟩

/-! ### The exponent search (rule R197) -/

/-- Exponents that share a factor with the totient only use up increments. -/
theorem findExponent_shared (phi n incs e : Nat) (h : ∀ j < n, Nat.gcd (e + j) phi ≠ 1) :
    findExponent phi (n + incs) e = findExponent phi incs (e + n) := by
  induction n generalizing e with
  | zero => rw [Nat.zero_add]; rfl
  | succ n ih =>
    have hfirst : Nat.gcd e phi ≠ 1 := h 0 n.succ_pos
    rw [Nat.add_right_comm, findExponent, gcd_eq_natGcd, if_neg hfirst, ih, Nat.add_right_comm, Nat.add_assoc]
    intro j hj
    rw [Nat.add_assoc, Nat.add_comm 1]
    exact h (j + 1) (Nat.succ_lt_succ hj)

theorem findExponent_coprime (phi incs : Nat) {e : Nat} (h : Nat.gcd e phi = 1) : findExponent phi incs e = some e := by
  cases incs <;> rw [findExponent, gcd_eq_natGcd, if_pos h]

/-- The first exponent coprime to the totient is found when the increments reach it. -/
theorem findExponent_first {phi incs e k : Nat} (hk : k ≤ incs) (h : Nat.gcd (e + k) phi = 1)
    (hbefore : ∀ j < k, Nat.gcd (e + j) phi ≠ 1) : findExponent phi incs e = some (e + k) := by
  obtain ⟨m, rfl⟩ := Nat.exists_eq_add_of_le hk
  rw [findExponent_shared phi k m e hbefore, findExponent_coprime phi m h]

theorem findExponent_none {phi incs e : Nat} (h : ∀ j ≤ incs, Nat.gcd (e + j) phi ≠ 1) :
    findExponent phi incs e = none := by
  have hlast := findExponent_shared phi incs 0 e fun j hj => h j hj.le
  rw [Nat.add_zero] at hlast
  rw [hlast, findExponent, gcd_eq_natGcd, if_neg (h incs le_rfl)]

/-- The totient of an accepted pair leaves room for an exponent. -/
theorem three_le_totient {p q : Nat} (hp : 2 ≤ p) (hq : 2 ≤ q) (hbig : 128 ≤ p * q) : 3 ≤ totient p q := by
  obtain ⟨a, rfl⟩ := Nat.exists_eq_add_of_le' hp
  obtain ⟨b, rfl⟩ := Nat.exists_eq_add_of_le' hq
  show 3 ≤ (a + 1) * (b + 1)
  nlinarith

/-- The exponent draw lies in [2, φ - 1]. -/
theorem drawIn_eq_firstExponent {p q : Nat} (hphi : 3 ≤ totient p q) (r : Source) :
    r.drawIn 2 (totient p q - 1) = (firstExponent p q r, r.after 1) := by
  rw [Source.drawIn, Source.draw_eq, show totient p q - 1 - 2 + 1 = totient p q - 2 by omega]
  rfl

/-! ### kc.keygen (rules R198, R199) -/

section
variable {z : Search} (hmin : 2 ≤ z.pmin) (hle : z.pmin ≤ z.pmax) (hmax : z.pmax < 2 ^ 32)
include hmin hle hmax

theorem Search.AcceptsPair.three_le_totient {r r' : Source} {p q : Nat} (h : z.AcceptsPair r p q r') :
    3 ≤ totient p q := by
  obtain ⟨⟨hp, -⟩, ⟨hq, -⟩, -, hbig⟩ := z.findPair_found hle _ _ _ _ _ (h.findPair_eq hle hmax)
  exact Machine.three_le_totient (hmin.trans hp) (hmin.trans hq) hbig

theorem Search.GivesKey.keyPair_eq {r r' : Source} {p q e : Nat} (h : z.GivesKey r p q e r') :
    ∃ d, d < totient p q ∧ e * d % totient p q = 1 ∧ z.keyPair r = (some ⟨p, q, e, d⟩, r') := by
  obtain ⟨r1, hpair, rfl, k, hk, rfl, hgcd, hbefore⟩ := h
  have hphi := hpair.three_le_totient hmin hle hmax
  obtain ⟨d, hd, hlt, hinv⟩ := modinv_of_coprime (by omega) hgcd
  refine ⟨d, hlt, hinv.trans (Nat.mod_eq_of_lt (by omega)), ?_⟩
  simp only [Search.keyPair, hpair.findPair_eq hle hmax, drawIn_eq_firstExponent hphi,
    findExponent_first hk hgcd hbefore, hd, Option.map_some]

theorem Search.Exhausts.keyPair_eq {r r' : Source} (h : z.Exhausts r r') : z.keyPair r = (none, r') := by
  obtain hall | hnone | ⟨p, q, r1, hpair, rfl, hshared⟩ := h
  · simp only [Search.keyPair, Search.findPair_exhausted hle hmax (.inl hall)]
  · simp only [Search.keyPair, Search.findPair_exhausted hle hmax (.inr hnone)]
  · have hphi := hpair.three_le_totient hmin hle hmax
    simp only [Search.keyPair, hpair.findPair_eq hle hmax, drawIn_eq_firstExponent hphi, findExponent_none hshared]

end

theorem State.search_pmax_lt (s : State) : s.search.pmax < 2 ^ 32 := s.cfg.pmax.isLt

/-- The configuration check of rule R192 passes. -/
theorem State.search_legal {s : State} (hk : s.cfg.k ≠ 0) (hmin : 2 ≤ s.cfg.pmin.toNat)
    (hle : s.cfg.pmin.toNat ≤ s.cfg.pmax.toNat) : s.search.illegal = false := by
  have hk' : s.cfg.k.toNat ≠ 0 := fun h => hk (BitVec.eq_of_toNat_eq h)
  simp only [Search.illegal, State.search, Bool.or_eq_false_iff, beq_eq_false_iff_ne]
  exact ⟨⟨hk', decide_eq_false (by omega)⟩, decide_eq_false (by omega)⟩

theorem exec_kcKeygen_illegal {s : State} (h : s.search.illegal = true) : exec .kcKeygen s = .next (s.failed 0x23) := by
  show conclude (if s.search.illegal then _ else _) = _
  rw [if_pos h]
  exact conclude_raise_error s (by decide)

theorem exec_kcKeygen_exhausted {s : State} {r : Source} (hlegal : s.search.illegal = false)
    (h : s.search.keyPair s.source = (none, r)) :
    exec .kcKeygen s = .next (State.failed { s with source := r } 0x30) := by
  show conclude (if s.search.illegal then _ else _) = _
  rw [hlegal, h]
  exact conclude_raise_error _ (by decide)

theorem exec_kcKeygen_found {s : State} {r : Source} {k : KeyPair} (hlegal : s.search.illegal = false)
    (h : s.search.keyPair s.source = (some k, r)) :
    exec .kcKeygen s = .next (State.succeeded
      { s with source := r, keys := k.registers, status := { s.status with keygen := true } }) := by
  show conclude (if s.search.illegal then _ else _) = _
  rw [hlegal, h]
  exact conclude_done_succeeded _

/-- The three ways kc.keygen can end, each by its completion. -/
theorem exec_kcKeygen_ends (s : State) :
    (∃ r k, exec .kcKeygen s = .next (State.succeeded
      { s with source := r, keys := k, status := { s.status with keygen := true } })) ∨
    exec .kcKeygen s = .next (s.failed 0x23) ∨
    ∃ r, exec .kcKeygen s = .next (State.failed { s with source := r } 0x30) := by
  cases hlegal : s.search.illegal with
  | true => exact .inr (.inl (exec_kcKeygen_illegal hlegal))
  | false =>
    cases hfound : s.search.keyPair s.source with
    | mk found r =>
      cases found with
      | none => exact .inr (.inr ⟨r, exec_kcKeygen_exhausted hlegal hfound⟩)
      | some k => exact .inl ⟨r, _, exec_kcKeygen_found hlegal hfound⟩

/-- In a legal configuration an exhausted counter ends kc.keygen with EXHAUSTED. -/
theorem exec_kcKeygen_of_exhausts {s : State} (hk : s.cfg.k ≠ 0) (hmin : 2 ≤ s.cfg.pmin.toNat)
    (hle : s.cfg.pmin.toNat ≤ s.cfg.pmax.toNat) {r : Source} (h : s.search.Exhausts s.source r) :
    exec .kcKeygen s = .next (State.failed { s with source := r } 0x30) :=
  exec_kcKeygen_exhausted (State.search_legal hk hmin hle) (h.keyPair_eq hmin hle s.search_pmax_lt)

/-- In a legal configuration kc.keygen writes the key its searches are left with. -/
theorem exec_kcKeygen_of_givesKey {s : State} (hk : s.cfg.k ≠ 0) (hmin : 2 ≤ s.cfg.pmin.toNat)
    (hle : s.cfg.pmin.toNat ≤ s.cfg.pmax.toNat) {p q e : Nat} {r : Source} (h : s.search.GivesKey s.source p q e r) :
    ∃ d, d < totient p q ∧ e * d % totient p q = 1 ∧ exec .kcKeygen s = .next (State.succeeded
      { s with source := r, keys := (KeyPair.mk p q e d).registers, status := { s.status with keygen := true } }) := by
  obtain ⟨d, hlt, hinv, hpair⟩ := h.keyPair_eq hmin hle s.search_pmax_lt
  exact ⟨d, hlt, hinv, exec_kcKeygen_found (State.search_legal hk hmin hle) hpair⟩

/-- Settles O51: the counted searches end one of their ways, and the machine's searches go as they do. -/
theorem keygenEnds : Obligations.KeygenEnds := by
  refine ⟨fun s t hexec => ?_, fun s hk hmin hle => ⟨s.search.givesKey_or_exhausts s.source, fun p q e r hkey => ?_,
    fun r hnone => exec_kcKeygen_of_exhausts hk hmin hle hnone⟩⟩
  · obtain ⟨r, k, h⟩ | h | ⟨r, h⟩ := exec_kcKeygen_ends s <;> cases hexec.symm.trans h
    · exact ⟨.inl rfl, fun _ => rfl, fun _ => rfl⟩
    · exact ⟨.inr (.inl rfl), fun _ => rfl, fun _ => rfl⟩
    · exact ⟨.inr (.inr rfl), fun _ => rfl, fun _ => rfl⟩
  · exact exec_kcKeygen_of_givesKey hk hmin hle hkey

/-- Settles O52: with CAP = 0 the pair search is exhausted after no attempt. -/
theorem keygenWithCapZero : Obligations.KeygenWithCapZero := by
  intro s hk hmin hle hcap
  have hnone : s.search.Exhausts s.source s.source := by
    have hzero : s.search.cap = 0 := congrArg BitVec.toNat hcap
    refine .inl ?_
    rw [hzero]
    exact (s.search.rejectsPairs_zero _ _).mpr rfl
  exact exec_kcKeygen_of_exhausts hk hmin hle hnone

end Sys2Proof.Machine
end

section
/-! The key of kc.keygen (obligations O53, O54): what any key it finds satisfies (42_cipher.md rule R200), and the key that
draws of two primes and a coprime exponent name (rules R199, R202). -/

namespace Sys2Proof.Machine

/-! ### What a key satisfies (rule R200) -/

/-- The exponent and its inverse are those of the totient: φ - 1 is coprime to φ, so no exponent past it is reached. -/
theorem Search.keyPair_exponent {z : Search} (hmin : 2 ≤ z.pmin) (hle : z.pmin ≤ z.pmax) {r r' : Source} {k : KeyPair}
    (h : z.keyPair r = (some k, r')) :
    2 ≤ k.e ∧ k.e < totient k.p k.q ∧ Nat.gcd k.e (totient k.p k.q) = 1 ∧ k.d < totient k.p k.q ∧
      k.e * k.d % totient k.p k.q = 1 := by
  obtain ⟨r1, hpair, -, he, hd⟩ := z.keyPair_found h
  obtain ⟨⟨hp, -⟩, ⟨hq, -⟩, -, hbig⟩ := z.findPair_found hle _ _ _ _ _ hpair
  have hphi := three_le_totient (hmin.trans hp) (hmin.trans hq) hbig
  obtain ⟨hlow, hhigh⟩ := r1.drawIn_mem (lo := 2) (hi := totient k.p k.q - 1) (by omega)
  obtain ⟨hfirst, -, hcoprime, hbefore⟩ := findExponent_found _ _ _ _ he
  rw [gcd_eq_natGcd] at hcoprime
  have hlast : ¬totient k.p k.q - 1 < k.e := fun hlt => by
    refine hbefore _ hhigh hlt ?_
    rw [gcd_eq_natGcd]
    exact (Nat.coprime_self_sub_left (show 1 ≤ totient k.p k.q by omega)).mpr (Nat.coprime_one_left _)
  obtain ⟨d, hd', hlt, hinv⟩ := modinv_of_coprime (by omega) hcoprime
  obtain rfl : k.d = d := Option.some.inj (hd.symm.trans hd')
  exact ⟨by omega, by omega, hcoprime, hlt, hinv.trans (Nat.mod_eq_of_lt (by omega))⟩

/-- A prime range of at most 16 bits keeps n below 2^32 (rule R200). -/
theorem Search.keyPair_modulus_lt {z : Search} (hle : z.pmin ≤ z.pmax) {r r' : Source} {k : KeyPair}
    (h : z.keyPair r = (some k, r')) (hmax : z.pmax ≤ 65535) : k.p * k.q < 2 ^ 32 := by
  obtain ⟨r1, hpair, -⟩ := z.keyPair_found h
  obtain ⟨⟨-, hp⟩, ⟨-, hq⟩, -⟩ := z.findPair_found hle _ _ _ _ _ hpair
  calc k.p * k.q ≤ 65535 * 65535 := Nat.mul_le_mul (hp.trans hmax) (hq.trans hmax)
    _ < 2 ^ 32 := by norm_num

/-- KN, KE and KD hold n, e and d when those fit (rule R199). -/
theorem KeyPair.registers_public {k : KeyPair} (hn : k.p * k.q < 2 ^ 64) (he : k.e < 2 ^ 64) (hd : k.d < 2 ^ 64) :
    k.registers.kn.toNat = k.p * k.q ∧ k.registers.ke.toNat = k.e ∧ k.registers.kd.toNat = k.d :=
  ⟨Nat.mod_eq_of_lt hn, Nat.mod_eq_of_lt he, Nat.mod_eq_of_lt hd⟩

/-- Settles O53: a kc.keygen that ends with code 0x00 wrote a pair, an exponent and an inverse its searches found. -/
theorem keygenKeyInvariants : Obligations.KeygenKeyInvariants := by
  intro s t hexec hok
  obtain ⟨r, c, hc, h⟩ | ⟨k, r, hlegal, hkey, h⟩ := exec_kcKeygen_cases s <;> cases hexec.symm.trans h
  · exact absurd ((ErrCode.byte_eq_zero c).mp hok) hc
  obtain ⟨hmin, hle⟩ := Search.pmin_of_legal hlegal
  obtain ⟨-, hp, -, hq, hne, hbig⟩ := State.search_primes hlegal hkey
  obtain ⟨he, he', hgcd, hd, hinv⟩ := Search.keyPair_exponent hmin hle hkey
  obtain ⟨hkp, hkq, hn, hkphi⟩ := KeyPair.registers_toNat hp hq
  have hphi : totient k.p k.q ≤ k.p * k.q := Nat.mul_le_mul (Nat.sub_le _ _) (Nat.sub_le _ _)
  obtain ⟨hkn, hke, hkd⟩ := KeyPair.registers_public (k := k) hn (by omega) (by omega)
  simp only [State.complete_keys, hkn, hke, hkd, hkp, hkq, hkphi]
  exact ⟨trivial, hbig, hne, rfl, he, Nat.le_sub_one_of_lt he', hgcd, hd, hinv, rfl,
    Search.keyPair_modulus_lt hle hkey⟩

/-! ### The key the draws name (rule R202) -/

/-- A candidate draw that lands on a prime from 5 on ends its search after K witness draws of any value. -/
theorem Search.findsPrime_of_prime {z : Search} (hcap : 0 < z.cap) {r : Source} {p : Nat} (hdraw : z.candidate r = p)
    (hp : p.Prime) (h5 : 5 ≤ p) (hexact : exactFor z.mode p) : z.FindsPrime r p (r.after (z.k + 1)) := by
  subst hdraw
  have hodd := hp.eq_two_or_odd
  have hverdict : z.verdict r = (true, z.k) :=
    primeVerdict_passes _ _ _ _ h5 (by omega) fun _ _ => eulerPass_of_prime hp h5 hexact _
  have hpassed : z.passed r = r.after (z.k + 1) := by rw [Search.passed, hverdict, Nat.add_comm]
  exact hpassed ▸ z.findsPrime_first r hcap (congrArg Prod.fst hverdict)

/-- Settles O54: both prime searches end on their first try, and the pair and the exponent are accepted as drawn. -/
theorem keygenFromPrimeDraws : Obligations.KeygenFromPrimeDraws := by
  intro s k span p q phi e hk hmin hle hcap hp hq hp5 hq5 hne hbig hgcd
  have hcap' : 0 < s.search.cap := Nat.pos_of_ne_zero fun h => hcap (BitVec.eq_of_toNat_eq h)
  have hexact {c : Nat} {r : Source} (h : s.search.candidate r = c) : exactFor s.search.mode c :=
    .inr (h ▸ (Search.candidate_mem hle r).2.trans s.search_pmax_lt.le)
  have hdrawp : s.search.candidate s.source = p := rfl
  have hdrawq : s.search.candidate (s.source.after (k + 1)) = q := by rw [Search.candidate, Source.ahead_after]; rfl
  have hdrawe : firstExponent p q (s.source.after (2 * k + 2)) = e := by rw [firstExponent, Source.ahead_after]; rfl
  have hfindp : s.search.FindsPrime s.source p (s.source.after (k + 1)) :=
    Search.findsPrime_of_prime hcap' hdrawp hp hp5 (hexact hdrawp)
  have hfindq : s.search.FindsPrime (s.source.after (k + 1)) q (s.source.after (2 * k + 2)) := by
    have h := Search.findsPrime_of_prime hcap' hdrawq hq hq5 (hexact hdrawq)
    rwa [Source.after_after, show k + 1 + (s.search.k + 1) = 2 * k + 2 by change k + 1 + (k + 1) = _; ring] at h
  have hpair : s.search.AcceptsPair s.source p q (s.source.after (2 * k + 2)) :=
    ⟨0, hcap', _, rfl, ⟨_, hfindp, hfindq⟩, hne, hbig⟩
  have hkey : s.search.GivesKey s.source p q e (s.source.after (2 * k + 3)) :=
    ⟨_, hpair, (s.source.after_after (2 * k + 2) 1).symm, 0, Nat.zero_le _, hdrawe.symm, hgcd,
      fun j hj => absurd hj j.not_lt_zero⟩
  exact exec_kcKeygen_of_givesKey (fun h => hk (congrArg BitVec.toNat h)) hmin hle hkey

end Sys2Proof.Machine
end

section
/-! Block packing (obligations O55 to O57, O59): the size of a block, packing and unpacking in radix 128, the padded blocks of
a plaintext, and the stripping of a decoded text (42_cipher.md rules R203 to R208). -/

namespace Sys2Proof.Machine

/-! ### Bytes per block (rules R203, R204) -/

/-- The bit lengths of rule R204 are the thresholds of blockBytes. -/
theorem bpb_eq_blockBytes (n : Nat) : bpb n = blockBytes n := by
  have h22 : bitlen n ≥ 22 ↔ ¬n < 2 ^ 21 := by rw [← bitlen_le_iff]; omega
  have h15 : bitlen n ≥ 15 ↔ ¬n < 2 ^ 14 := by rw [← bitlen_le_iff]; omega
  unfold bpb blockBytes
  simp only [h22, h15]
  split_ifs <;> omega

theorem blockBytes_pos (n : Nat) : 0 < blockBytes n := by
  unfold blockBytes
  split_ifs <;> omega

/-- A block of digits is a residue (rule R203). -/
theorem pow_blockBytes_le {n : Nat} (hn : 128 ≤ n) : 128 ^ blockBytes n ≤ n := by
  unfold blockBytes
  split_ifs <;> omega

/-- Settles O55: bpb is blockBytes. -/
theorem kcBpbResult : Obligations.KcBpbResult := by
  intro d1 s1 s
  rw [← bpb_eq_blockBytes]
  exact conclude_done_succeeded _

/-! ### Packing (rules R205, R206) -/

theorem pack_map_range (f : Nat → Byte) (k : Nat) :
    pack ((List.range k).map f) = ∑ j ∈ Finset.range k, (f j).toNat * 128 ^ j := by
  induction k generalizing f with
  | zero => rfl
  | succ k ih =>
    rw [List.range_succ_eq_map, List.map_cons, List.map_map, pack, ih, Finset.sum_range_succ', Finset.mul_sum, pow_zero,
      mul_one, Nat.add_comm]
    congr 1
    exact Finset.sum_congr rfl fun j _ => by rw [pow_succ]; simp only [Function.comp_apply, Nat.succ_eq_add_one]; ring

theorem pack_lt {bs : List Byte} (h : ∀ b ∈ bs, b.toNat < 128) : pack bs < 128 ^ bs.length := by
  induction bs with
  | nil => exact Nat.one_pos
  | cons b bs ih =>
    rw [List.forall_mem_cons] at h
    have hrest := ih h.2
    rw [pack, List.length_cons, pow_succ]
    omega

@[simp] theorem length_unpack (m k : Nat) : (unpack m k).length = k := by
  induction k generalizing m with
  | zero => rfl
  | succ k ih => rw [unpack, List.length_cons, ih]

/-- Digit j of rule R206. -/
theorem unpack_getD (m : Nat) {k j : Nat} (hj : j < k) : ((unpack m k).getD j 0x00).toNat = m / 128 ^ j % 128 := by
  induction k generalizing m j with
  | zero => exact absurd hj j.not_lt_zero
  | succ k ih =>
    rw [unpack]
    cases j with
    | zero =>
      rw [List.getD_cons_zero, BitVec.toNat_ofNat, pow_zero, Nat.div_one]
      omega
    | succ j => rw [List.getD_cons_succ, ih _ (Nat.lt_of_succ_lt_succ hj), Nat.div_div_eq_div_mul, ← pow_succ']

/-- Bytes below 0x80 come back from their integer. -/
theorem unpack_pack {bs : List Byte} (h : ∀ b ∈ bs, b.toNat < 128) : unpack (pack bs) bs.length = bs := by
  induction bs with
  | nil => rfl
  | cons b bs ih =>
    rw [List.forall_mem_cons] at h
    have hlow : (b.toNat + 128 * pack bs) % 128 = b.toNat := by omega
    have hhigh : (b.toNat + 128 * pack bs) / 128 = pack bs := by omega
    rw [List.length_cons, pack, unpack, hlow, hhigh, ih h.2, BitVec.ofNat_toNat, BitVec.setWidth_eq]

/-! ### Blocks of a plaintext (rule R207) -/

@[simp] theorem length_plainBlock (p : List Byte) (k i : Nat) : (plainBlock p k i).length = k := by simp [plainBlock]

/-- Place j of block i. -/
theorem plainBlock_getD (p : List Byte) {k j : Nat} (i : Nat) (hj : j < k) :
    (plainBlock p k i).getD j 0x00 = p.getD (i * k + j) 0x00 := by
  rw [List.getD_eq_getElem _ _ (by rwa [length_plainBlock])]
  simp [plainBlock]

/-- The blocks cover the plaintext. -/
theorem length_le_blockCount_mul (len : Nat) {k : Nat} (hk : 0 < k) : len ≤ blockCount len k * k := by
  have hceil : len + k - 1 < k * ((len + k - 1) / k + 1) := Nat.lt_mul_div_succ _ hk
  calc len ≤ k * ((len + k - 1) / k) := by rw [Nat.mul_succ] at hceil; omega
    _ = (len + k - 1) / k * k := Nat.mul_comm _ _
    _ ≤ blockCount len k * k := Nat.mul_le_mul_right k (le_max_right _ _)

/-- There are no more blocks than bytes, but for the one block of an empty plaintext. -/
theorem blockCount_le (len : Nat) {k : Nat} (hk : 0 < k) : blockCount len k ≤ max 1 len := by
  have hceil : (len + k - 1) / k ≤ len := by
    rw [← Nat.lt_succ_iff, Nat.div_lt_iff_lt_mul hk, Nat.succ_mul]
    have := Nat.le_mul_of_pos_right len hk
    omega
  exact max_le_max_left 1 hceil

/-- The number of a flat list's places, where every piece has n. -/
theorem length_flatMap_const {α β : Type} (f : α → List β) {n : Nat} (hf : ∀ a, (f a).length = n) (l : List α) :
    (l.flatMap f).length = l.length * n := by
  simp [List.length_flatMap, hf]

/-- Place p of a flat list of pieces of n places is place p mod n of piece p div n. -/
theorem flatMap_getD_div {α β : Type} (f : α → List β) {n : Nat} (hf : ∀ a, (f a).length = n) (l : List α) {p : Nat}
    (hp : p < l.length * n) (a : α) (b : β) :
    (l.flatMap f).getD p b = (f (l.getD (p / n) a)).getD (p % n) b := by
  have hn : 0 < n := Nat.pos_of_ne_zero fun h => by simp [h] at hp
  rw [← flatMap_getD f hf l ((Nat.div_lt_iff_lt_mul hn).mpr hp) (Nat.mod_lt p hn) a b, Nat.div_add_mod']

/-- The blocks one after another are the plaintext padded with 0x00. -/
theorem flatMap_plainBlock_getD (p : List Byte) {k n i : Nat} (hi : i < n * k) :
    ((List.range n).flatMap (plainBlock p k)).getD i 0x00 = p.getD i 0x00 := by
  have hk : 0 < k := Nat.pos_of_ne_zero fun h => by simp [h] at hi
  have hblock : (List.range n).getD (i / k) 0 = i / k := by
    rw [List.getD_eq_getElem _ _ (by rw [List.length_range]; exact (Nat.div_lt_iff_lt_mul hk).mpr hi), List.getElem_range]
  rw [flatMap_getD_div _ (length_plainBlock p k) _ (by rwa [List.length_range]) 0, hblock,
    plainBlock_getD p _ (Nat.mod_lt i hk), Nat.div_add_mod']

/-! ### Stripping (rule R208) -/

/-- Stripping keeps the bytes up to the last that is not 0x00. -/
theorem stripNulls_eq_take {bs : List Byte} {len : Nat} (hlen : len ≤ bs.length)
    (hlast : ∀ i, i + 1 = len → bs.getD i 0x00 ≠ 0x00)
    (hzero : ∀ i, len ≤ i → i < bs.length → bs.getD i 0x00 = 0x00) : stripNulls bs = bs.take len := by
  change bs.rdropWhile (· == 0x00) = bs.take len
  induction bs using List.reverseRecOn with
  | nil => rw [List.take_nil]; rfl
  | append_singleton bs b ih =>
    rw [List.length_append, List.length_singleton] at hlen hzero
    have hb : (bs ++ [b]).getD bs.length 0x00 = b := by simp
    have hleft {i : Nat} (hi : i < bs.length) : (bs ++ [b]).getD i 0x00 = bs.getD i 0x00 := List.getD_append _ _ _ _ hi
    obtain hin | rfl := Nat.lt_or_eq_of_le hlen
    · have hin : len ≤ bs.length := Nat.le_of_lt_succ hin
      have hzerob : b = 0x00 := hb.symm.trans (hzero _ hin (Nat.lt_succ_self _))
      rw [List.rdropWhile_concat_pos _ _ _ (by simp [hzerob]), List.take_append_of_le_length hin]
      exact ih hin (fun i hi => hleft (i := i) (by omega) ▸ hlast i hi)
        fun i hi hi' => (hleft hi').symm.trans (hzero i hi (by omega))
    · have hnonzero : b ≠ 0x00 := hb ▸ hlast bs.length rfl
      rw [List.rdropWhile_concat_neg _ _ _ (by simpa using hnonzero), List.take_of_length_le (by simp)]

/-- A text with no 0x00 comes back from its padded blocks. -/
theorem stripNulls_plainBlocks {p : List Byte} (hp : ∀ b ∈ p, b ≠ 0x00) {k n : Nat} (hn : p.length ≤ n * k) :
    stripNulls ((List.range n).flatMap (plainBlock p k)) = p := by
  have hlen : ((List.range n).flatMap (plainBlock p k)).length = n * k := by
    rw [length_flatMap_const _ (length_plainBlock p k), List.length_range]
  have hbyte {i : Nat} (hi : i < n * k) := flatMap_plainBlock_getD p hi
  rw [stripNulls_eq_take (len := p.length) (hlen.symm ▸ hn)]
  · apply List.ext_getElem (by simp [hlen, hn])
    intro i hi hi'
    rw [List.getElem_take, ← List.getD_eq_getElem _ 0x00, hbyte (by omega), List.getD_eq_getElem]
  · intro i hi
    rw [hbyte (by omega), List.getD_eq_getElem _ _ (by omega)]
    exact hp _ (List.getElem_mem _)
  · intro i hi hi'
    rw [hbyte (hlen ▸ hi'), List.getD_eq_default _ _ hi]

end Sys2Proof.Machine
end

section
/-! The cipher commands (obligations O56 to O58): what kc.encode and kc.decode do by the ranges they check, the words
kc.encode stores and the digits kc.decode stores (42_cipher.md rules R207, R208, R210, R211). -/

namespace Sys2Proof.Machine

/-! ### Ciphertext words in BMEM (00_scope.md rule R11, rule R210) -/

theorem leNat_bytesLe64 (v : Word64) : leNat (bytesLe64 v) = v.toNat := by
  have hv := v.isLt
  simp only [bytesLe64, leNat, BitVec.extractLsb'_toNat, Nat.shiftRight_eq_div_pow]
  omega

/-- Word i of a stored ciphertext, byte by byte. -/
theorem State.memRead_cipherBytes (s : State) (a : Nat) {ws : List Nat} (hwf : s.bmem.wf) {i : Nat} (hi : i < ws.length) :
    (s.memWrite a (cipherBytes ws)).memRead (a + 8 * i) 8 = bytesLe64 (BitVec.ofNat 64 (ws.getD i 0)) := by
  refine List.ext_getElem (State.length_memRead _ _ _) fun j hj hj' => ?_
  rw [State.length_memRead] at hj
  rw [← List.getD_eq_getElem _ 0x00, ← List.getD_eq_getElem _ 0x00, State.getD_memRead _ _ _ _ hj,
    State.readByte_memWrite _ _ _ _ hwf, length_cipherBytes, if_pos (by omega),
    show a + 8 * i + j - a = i * 8 + j by omega]
  exact flatMap_getD (fun w => bytesLe64 (BitVec.ofNat 64 w)) (fun _ => rfl) ws hi hj 0 0x00

theorem State.length_cipherWords (s : State) (a n : Nat) : (s.cipherWords a n).length = n := by simp [State.cipherWords]

theorem State.cipherWords_getD (s : State) (a : Nat) {n i : Nat} (hi : i < n) :
    (s.cipherWords a n).getD i 0 = leNat (s.memRead (a + 8 * i) 8) := by
  rw [List.getD_eq_getElem _ _ (by rwa [State.length_cipherWords])]
  simp [State.cipherWords]

/-- Stored ciphertext words are read back. -/
theorem State.cipherWords_memWrite (s : State) (a : Nat) {ws : List Nat} (hwf : s.bmem.wf) (hws : ∀ w ∈ ws, w < 2 ^ 64) :
    (s.memWrite a (cipherBytes ws)).cipherWords a ws.length = ws := by
  refine List.ext_getElem (State.length_cipherWords _ _ _) fun i _ hi => ?_
  rw [← List.getD_eq_getElem _ 0, State.cipherWords_getD _ _ hi, State.memRead_cipherBytes s a hwf hi, leNat_bytesLe64,
    List.getD_eq_getElem _ _ hi]
  exact Nat.mod_eq_of_lt (hws _ (List.getElem_mem hi))

/-! ### The write of D1 and the completion -/

@[simp] theorem State.cipherWords_succeeded_writeXNat (s : State) (d : Reg) (v a n : Nat) :
    (s.writeXNat d v).succeeded.cipherWords a n = s.cipherWords a n := rfl

@[simp] theorem State.memRead_succeeded_writeXNat (s : State) (d : Reg) (v a n : Nat) :
    (s.writeXNat d v).succeeded.memRead a n = s.memRead a n :=
  State.memRead_congr _ _ _ _ fun _ _ _ => rfl

@[simp] theorem State.readByte_succeeded_writeXNat (s : State) (d : Reg) (v a : Nat) :
    (s.writeXNat d v).succeeded.readByte a = s.readByte a := rfl

@[simp] theorem State.readX_succeeded_writeXNat (s : State) (d : Reg) (v : Nat) :
    (s.writeXNat d v).succeeded.readX d = BitVec.ofNat 64 v :=
  s.readX_writeX_same d _

/-! ### The range checks of both commands (20_memory.md rule R76) -/

/-- Everything a command can do that checks the range it reads and the range it writes before it writes. -/
theorem conclude_checked (s t : State) (src len dst outLen : Nat) :
    ((s.params.bmemSize < src + len ∨ s.params.bmemSize < dst + outLen) ∧
      conclude (if !s.inRange src len then raise .ioRange s else if !s.inRange dst outLen then raise .ioRange s else done t) =
        .next (s.failed 0x10)) ∨
    (src + len ≤ s.params.bmemSize ∧ dst + outLen ≤ s.params.bmemSize ∧
      conclude (if !s.inRange src len then raise .ioRange s else if !s.inRange dst outLen then raise .ioRange s else done t) =
        .next t.succeeded) := by
  by_cases hsrc : src + len ≤ s.params.bmemSize
  · by_cases hdst : dst + outLen ≤ s.params.bmemSize
    · refine .inr ⟨hsrc, hdst, ?_⟩
      rw [if_neg (by simp [State.inRange, hsrc]), if_neg (by simp [State.inRange, hdst])]
      exact conclude_done_succeeded t
    · refine .inl ⟨.inr (Nat.lt_of_not_le hdst), ?_⟩
      rw [if_neg (by simp [State.inRange, hsrc]), if_pos (by simpa [State.inRange] using hdst)]
      exact conclude_raise_error s (by decide)
  · refine .inl ⟨.inl (Nat.lt_of_not_le hsrc), ?_⟩
    rw [if_pos (by simpa [State.inRange] using hsrc)]
    exact conclude_raise_error s (by decide)

/-! ### kc.encode (rules R207, R210) -/

/-- The ciphertext of kc.encode: the words of the plaintext its operands name under the key. -/
def State.encoded (s : State) (s1 s2 : Reg) : List Nat :=
  encodeText s.params.mulmodMode (s.memRead (s.xNat s1) (s.xNat s2)) s.keys.kn.toNat s.keys.ke.toNat

theorem State.length_encoded (s : State) (s1 s2 : Reg) :
    (s.encoded s1 s2).length = blockCount (s.xNat s2) (bpb s.keys.kn.toNat) := by
  rw [State.encoded, length_encodeText, State.length_memRead]

/-- Everything kc.encode can do with KN > 0. -/
theorem exec_kcEncode_cases (d1 s1 s2 s3 : Reg) {s : State} (hn : s.keys.kn ≠ 0) :
    ((s.params.bmemSize < s.xNat s1 + s.xNat s2 ∨ s.params.bmemSize < s.xNat s3 + 8 * (s.encoded s1 s2).length) ∧
      exec (.kcEncode d1 s1 s2 s3) s = .next (s.failed 0x10)) ∨
    (s.xNat s1 + s.xNat s2 ≤ s.params.bmemSize ∧ s.xNat s3 + 8 * (s.encoded s1 s2).length ≤ s.params.bmemSize ∧
      exec (.kcEncode d1 s1 s2 s3) s = .next (State.succeeded
        ((s.memWrite (s.xNat s3) (cipherBytes (s.encoded s1 s2))).writeXNat d1 (s.encoded s1 s2).length))) := by
  have hn' : s.keys.kn.toNat ≠ 0 := fun h => hn (BitVec.eq_of_toNat_eq h)
  rw [State.length_encoded]
  have hexec : exec (.kcEncode d1 s1 s2 s3) s = execKcEncode d1 s1 s2 s3 s := rfl
  rw [hexec, execKcEncode, if_neg hn']
  exact conclude_checked s _ _ _ _ _

/-- A plaintext byte as a digit of its block (rule R207). -/
theorem State.memRead_getD_toNat (s : State) (a n i : Nat) : ((s.memRead a n).getD i 0x00).toNat = plainByte s a n i := by
  unfold plainByte
  split
  next h => rw [State.getD_memRead s a n i h]
  next h => rw [List.getD_eq_default _ _ (by rw [State.length_memRead]; omega)]; rfl

/-- Word i of the ciphertext: the power of the radix-128 integer of block i. -/
theorem State.encoded_getD (s : State) (s1 s2 : Reg) {i : Nat} (hi : i < (s.encoded s1 s2).length) :
    (s.encoded s1 s2).getD i 0 = powmod s.params.mulmodMode
      (∑ j ∈ Finset.range (bpb s.keys.kn.toNat),
        plainByte s (s.xNat s1) (s.xNat s2) (i * bpb s.keys.kn.toNat + j) * 128 ^ j)
      s.keys.ke.toNat s.keys.kn.toNat := by
  rw [List.getD_eq_getElem _ _ hi]
  simp only [State.encoded, encodeText, List.getElem_map, List.getElem_range, plainBlock, pack_map_range,
    State.memRead_getD_toNat]

/-- Every ciphertext word is a residue, so it fits its 8 bytes. -/
theorem State.encoded_lt (s : State) (s1 s2 : Reg) (hn : s.keys.kn ≠ 0) : ∀ w ∈ s.encoded s1 s2, w < 2 ^ 64 := by
  have hn' : 0 < s.keys.kn.toNat := Nat.pos_of_ne_zero fun h => hn (BitVec.eq_of_toNat_eq h)
  intro w hw
  obtain ⟨i, -, rfl⟩ := List.mem_map.mp hw
  exact (powmod_lt _ _ _ hn').trans s.keys.kn.isLt

/-- Settles O56: what kc.encode stores is the ciphertext, word by word. -/
theorem kcEncodeResult : Obligations.KcEncodeResult := by
  intro d1 s1 s2 s3 s hn hwf k nblk hsrc hdst
  have hlen : (s.encoded s1 s2).length = nblk := by rw [State.length_encoded, bpb_eq_blockBytes]; rfl
  obtain ⟨hout, -⟩ | ⟨-, -, hexec⟩ := exec_kcEncode_cases d1 s1 s2 s3 hn
  · omega
  rw [hlen] at hexec
  refine ⟨_, hexec, rfl, State.readX_succeeded_writeXNat _ d1 _, fun i hi => ?_⟩
  rw [← hlen] at hi
  have hword := State.encoded_getD s s1 s2 hi
  rw [bpb_eq_blockBytes] at hword
  rw [State.memRead_succeeded_writeXNat, State.memRead_cipherBytes s _ hwf hi, leNat_bytesLe64, ← hword,
    List.getD_eq_getElem _ _ hi]
  exact Nat.mod_eq_of_lt (s.encoded_lt s1 s2 hn _ (List.getElem_mem hi))

/-! ### kc.decode (rules R206, R208, R211) -/

/-- The digits of the powers of the ciphertext words, in order (rule R208 before it strips). -/
def State.digits (s : State) (s1 s2 : Reg) : List Byte :=
  (s.cipherWords (s.xNat s1) (s.xNat s2)).flatMap fun w =>
    unpack (powmod s.params.mulmodMode w s.keys.kd.toNat s.keys.kn.toNat) (bpb s.keys.kn.toNat)

/-- Everything kc.decode can do with KN > 0. -/
theorem exec_kcDecode_cases (d1 s1 s2 s3 : Reg) {s : State} (hn : s.keys.kn ≠ 0) :
    ((s.params.bmemSize < s.xNat s1 + 8 * s.xNat s2 ∨
        s.params.bmemSize < s.xNat s3 + (stripNulls (s.digits s1 s2)).length) ∧
      exec (.kcDecode d1 s1 s2 s3) s = .next (s.failed 0x10)) ∨
    (s.xNat s1 + 8 * s.xNat s2 ≤ s.params.bmemSize ∧
      s.xNat s3 + (stripNulls (s.digits s1 s2)).length ≤ s.params.bmemSize ∧
      exec (.kcDecode d1 s1 s2 s3) s = .next (State.succeeded
        ((s.memWrite (s.xNat s3) (stripNulls (s.digits s1 s2))).writeXNat d1 (stripNulls (s.digits s1 s2)).length))) := by
  have hn' : s.keys.kn.toNat ≠ 0 := fun h => hn (BitVec.eq_of_toNat_eq h)
  have hexec : exec (.kcDecode d1 s1 s2 s3) s = execKcDecode d1 s1 s2 s3 s := rfl
  rw [hexec, execKcDecode, if_neg hn', show decodeText _ _ _ _ = stripNulls (s.digits s1 s2) from rfl]
  exact conclude_checked s _ _ _ _ _

theorem State.length_digits (s : State) (s1 s2 : Reg) :
    (s.digits s1 s2).length = s.xNat s2 * blockBytes s.keys.kn.toNat := by
  rw [State.digits, length_flatMap_const _ (fun _ => length_unpack _ _), State.length_cipherWords, bpb_eq_blockBytes]

/-- Digit p of the decoded text. -/
theorem State.digits_getD (s : State) (s1 s2 : Reg) {p : Nat} (hp : p < s.xNat s2 * blockBytes s.keys.kn.toNat) :
    ((s.digits s1 s2).getD p 0x00).toNat = decodedDigit s (s.xNat s1) p := by
  have hword : p / blockBytes s.keys.kn.toNat < s.xNat s2 := (Nat.div_lt_iff_lt_mul (blockBytes_pos _)).mpr hp
  rw [State.digits, bpb_eq_blockBytes, flatMap_getD_div _ (fun _ => length_unpack _ _) _
    (by rwa [State.length_cipherWords]) 0, unpack_getD _ (Nat.mod_lt _ (blockBytes_pos _)), State.cipherWords_getD _ _ hword]
  rfl

/-- The output of kc.decode is the digits up to the last that is not 0. -/
theorem State.stripNulls_digits {s : State} {s1 s2 : Reg} {len : Nat} (hlen : len ≤ (s.digits s1 s2).length)
    (hlast : len = 0 ∨ decodedDigit s (s.xNat s1) (len - 1) ≠ 0)
    (hzero : ∀ p, len ≤ p → p < (s.digits s1 s2).length → decodedDigit s (s.xNat s1) p = 0) :
    stripNulls (s.digits s1 s2) = (s.digits s1 s2).take len := by
  have hdigit {p : Nat} (hp : p < (s.digits s1 s2).length) := s.digits_getD s1 s2 (s.length_digits s1 s2 ▸ hp)
  refine stripNulls_eq_take hlen (fun i hi h => ?_) fun i hi hi' => BitVec.eq_of_toNat_eq ?_
  · subst hi
    refine hlast.resolve_left i.succ_ne_zero ?_
    rw [Nat.add_sub_cancel, ← hdigit hlen, h]
    rfl
  · rw [hdigit hi', hzero i hi hi']
    rfl

/-- Settles O57: the output is the digits up to the last that is not 0, stored if they fit. -/
theorem kcDecodeResult : Obligations.KcDecodeResult := by
  intro d1 s1 s2 s3 s len hn hwf total hsrc hlen hlast hzero
  change len ≤ s.xNat s2 * blockBytes s.keys.kn.toNat at hlen
  have htotal := s.length_digits s1 s2
  have hout := State.stripNulls_digits (htotal ▸ hlen) hlast (htotal ▸ hzero)
  have houtlen : (stripNulls (s.digits s1 s2)).length = len := by rw [hout, List.length_take_of_le (htotal ▸ hlen)]
  obtain ⟨hbad, hexec⟩ | ⟨-, hfit, hexec⟩ := exec_kcDecode_cases d1 s1 s2 s3 hn
  · exact ⟨fun hfit => by omega, fun _ => hexec⟩
  refine ⟨fun _ => ⟨_, hexec, rfl, ?_, fun p hp => ?_⟩, fun hbad => by omega⟩
  · rw [State.readX_succeeded_writeXNat, houtlen]
  · have hkept : ((s.digits s1 s2).take len).getD p 0x00 = (s.digits s1 s2).getD p 0x00 := by simp [hp]
    rw [State.readByte_succeeded_writeXNat, s.readByte_memWrite _ _ _ hwf, if_pos (by omega),
      Nat.add_sub_cancel_left, hout, hkept, s.digits_getD s1 s2 (hp.trans_le hlen)]

/-- Settles O58: the ranges are checked before anything is written. -/
theorem cipherRangeErrors : Obligations.CipherRangeErrors := by
  refine fun d1 s1 s2 s3 s hn => ⟨fun hout => ?_, fun hout => ?_⟩
  · have hlen := s.length_encoded s1 s2
    rw [bpb_eq_blockBytes] at hlen
    obtain ⟨-, hexec⟩ | ⟨hsrc, hdst, -⟩ := exec_kcEncode_cases d1 s1 s2 s3 hn
    · exact hexec
    · rw [hlen] at hdst
      exact absurd hout (by rw [not_or, Nat.not_lt, Nat.not_lt]; exact ⟨hsrc, hdst⟩)
  · obtain ⟨-, hexec⟩ | ⟨hsrc, -, -⟩ := exec_kcDecode_cases d1 s1 s2 s3 hn
    · exact hexec
    · omega

end Sys2Proof.Machine
end

section
/-! The round trip (obligation O59): with a key of two distinct primes the two powers are inverse to each other on residues,
and a text with bytes 0x01 to 0x7F comes back from the words kc.encode stored (42_cipher.md rule R212). -/

namespace Sys2Proof.Machine

/-! ### The two powers (rules R196 to R198) -/

/-- Fermat: an exponent that is 1 mod p - 1 leaves every residue of a prime p alone. -/
theorem pow_modEq_self {p : Nat} (hp : p.Prime) (m c : Nat) : m ^ (1 + (p - 1) * c) ≡ m [MOD p] := by
  have : Fact p.Prime := ⟨hp⟩
  rw [← ZMod.natCast_eq_natCast_iff, Nat.cast_pow]
  by_cases hm : (m : ZMod p) = 0
  · rw [hm, zero_pow (by omega)]
  · rw [pow_add, pow_mul, ZMod.pow_card_sub_one_eq_one hm, one_pow, pow_one, mul_one]

/-- An exponent that is 1 mod the totient leaves every residue of p * q alone. -/
theorem pow_modEq_self_mul {p q : Nat} (hp : p.Prime) (hq : q.Prime) (hne : p ≠ q) {x : Nat}
    (hx : x % totient p q = 1) (m : Nat) : m ^ x ≡ m [MOD p * q] := by
  obtain ⟨c, rfl⟩ : ∃ c, x = 1 + (p - 1) * (q - 1) * c :=
    ⟨x / totient p q, by have := Nat.mod_add_div x (totient p q); rw [hx] at this; exact this.symm⟩
  refine (Nat.modEq_and_modEq_iff_modEq_mul ((Nat.coprime_primes hp hq).mpr hne)).mp ⟨?_, ?_⟩
  · rw [Nat.mul_assoc]
    exact pow_modEq_self hp m _
  · rw [Nat.mul_comm (p - 1), Nat.mul_assoc]
    exact pow_modEq_self hq m _

/-- Where multiplication is exact, the power by d undoes the power by e. -/
theorem powmod_powmod {mode : MulmodMode} {p q e d : Nat} (hp : p.Prime) (hq : q.Prime) (hne : p ≠ q)
    (hinv : e * d % totient p q = 1) (hexact : exactFor mode (p * q)) {m : Nat} (hm : m < p * q) :
    powmod mode (powmod mode m e (p * q)) d (p * q) = m := by
  have hpos : 0 < p * q := Nat.mul_pos hp.pos hq.pos
  rw [powmod_exact _ _ hpos hexact, powmod_exact _ _ hpos hexact, ← Nat.pow_mod, ← pow_mul,
    pow_modEq_self_mul hp hq hne hinv m, Nat.mod_eq_of_lt hm]

/-! ### The text (rules R207, R208) -/

/-- The bytes of a padded block are digits where those of the text are. -/
theorem plainBlock_lt {text : List Byte} (h : ∀ b ∈ text, b.toNat ≤ 127) (k i : Nat) :
    ∀ b ∈ plainBlock text k i, b.toNat < 128 := by
  intro b hb
  obtain ⟨j, -, rfl⟩ := List.mem_map.mp hb
  obtain hin | hout := Nat.lt_or_ge (i * k + j) text.length
  · rw [List.getD_eq_getElem _ _ hin]
    exact Nat.lt_succ_of_le (h _ (List.getElem_mem hin))
  · rw [List.getD_eq_default _ _ hout]
    decide

/-- Decoding the words of a text of bytes 0x01 to 0x7F gives the text, where the two powers undo each other. -/
theorem decodeText_encodeText {mode : MulmodMode} {n e d : Nat} (hn : 128 ≤ n)
    (hinv : ∀ m < n, powmod mode (powmod mode m e n) d n = m) {text : List Byte}
    (htext : ∀ b ∈ text, 1 ≤ b.toNat ∧ b.toNat ≤ 127) : decodeText mode (encodeText mode text n e) n d = text := by
  have hword (i : Nat) : unpack (powmod mode (powmod mode (pack (plainBlock text (bpb n) i)) e n) d n) (bpb n) =
      plainBlock text (bpb n) i := by
    have hblock := plainBlock_lt (fun b hb => (htext b hb).2) (bpb n) i
    have hlt : pack (plainBlock text (bpb n) i) < n :=
      calc pack (plainBlock text (bpb n) i) < 128 ^ (plainBlock text (bpb n) i).length := pack_lt hblock
        _ = 128 ^ blockBytes n := by rw [length_plainBlock, bpb_eq_blockBytes]
        _ ≤ n := pow_blockBytes_le hn
    have hback := unpack_pack hblock
    rwa [length_plainBlock, ← hinv _ hlt] at hback
  rw [decodeText, encodeText, List.flatMap_map]
  simp only [hword]
  refine stripNulls_plainBlocks (fun b hb h => ?_) (length_le_blockCount_mul _ ?_)
  · rw [h] at hb
    exact absurd (htext _ hb).1 (by decide)
  · exact bpb_eq_blockBytes n ▸ blockBytes_pos n

/-! ### The commands (rules R210, R211) -/

/-- Bytes of a range, one by one. -/
theorem State.forall_mem_memRead {s : State} {a n : Nat} {P : Byte → Prop} (h : ∀ i < n, P (s.readByte (a + i))) :
    ∀ b ∈ s.memRead a n, P b := by
  intro b hb
  obtain ⟨i, hi, rfl⟩ := List.getElem_of_mem hb
  have hi' : i < n := by rwa [State.length_memRead] at hi
  rw [← List.getD_eq_getElem _ 0x00, State.getD_memRead _ _ _ _ hi']
  exact h i hi'

/-- The words a successful kc.encode stored, and their number in D1. -/
theorem exec_kcEncode_ok {d1 s1 s2 s3 : Reg} {s t : State} (hn : s.keys.kn ≠ 0) (hwf : s.bmem.wf)
    (hexec : exec (.kcEncode d1 s1 s2 s3) s = .next t) (hok : t.lastErr = 0x00) :
    t.xNat d1 = (s.encoded s1 s2).length ∧ t.cipherWords (s.xNat s3) (t.xNat d1) = s.encoded s1 s2 := by
  obtain ⟨-, h⟩ | ⟨-, -, h⟩ := exec_kcEncode_cases d1 s1 s2 s3 hn <;> cases hexec.symm.trans h
  · exact absurd (show (0x10 : Byte) = 0x00 from hok) (by decide)
  have hpos : 0 < bpb s.keys.kn.toNat := bpb_eq_blockBytes _ ▸ blockBytes_pos _
  have hfit : (s.encoded s1 s2).length < 2 ^ 64 := by
    have := blockCount_le (s.xNat s2) hpos
    have := s.xNat_lt s2
    rw [State.length_encoded]
    omega
  have hcount : State.xNat (State.succeeded ((s.memWrite (s.xNat s3) (cipherBytes (s.encoded s1 s2))).writeXNat d1
      (s.encoded s1 s2).length)) d1 = (s.encoded s1 s2).length := by
    rw [State.xNat, State.readX_succeeded_writeXNat]
    exact Nat.mod_eq_of_lt hfit
  refine ⟨hcount, ?_⟩
  rw [hcount, State.cipherWords_succeeded_writeXNat, State.cipherWords_memWrite s _ hwf (s.encoded_lt s1 s2 hn)]

/-- Settles O59: the words kc.decode reads are those kc.encode stored, and their decoded text is the plaintext. -/
theorem cipherRoundTrip : Obligations.CipherRoundTrip := by
  intro d1 s1 s2 s3 s t p q hp hq hne hkn hbig hinv hexact hwf htext hexec hok e1 r1 r2 r3 u hkeys hparams hwfu hcount hwords
    hsrc hdst
  have hn : s.keys.kn ≠ 0 := fun h => by
    rw [h] at hkn
    change 0 = p * q at hkn
    omega
  have hn' : u.keys.kn ≠ 0 := hkeys ▸ hn
  have hexact' : exactFor s.params.mulmodMode (p * q) := hexact.symm.imp_right Nat.le_of_lt
  obtain ⟨-, hstored⟩ := exec_kcEncode_ok hn hwf hexec hok
  have hback : decodeText s.params.mulmodMode (s.encoded s1 s2) s.keys.kn.toNat s.keys.kd.toNat =
      s.memRead (s.xNat s1) (s.xNat s2) := by
    refine decodeText_encodeText (hkn ▸ hbig) (fun m hm => ?_) (State.forall_mem_memRead htext)
    rw [hkn] at hm ⊢
    exact powmod_powmod hp hq hne hinv hexact' hm
  have hout : stripNulls (u.digits r1 r2) = s.memRead (s.xNat s1) (s.xNat s2) := by
    rw [State.digits, hwords, hstored, hkeys, hparams]
    exact hback
  obtain ⟨hbad, -⟩ | ⟨-, -, h⟩ := exec_kcDecode_cases e1 r1 r2 r3 hn'
  · rw [hout, State.length_memRead] at hbad
    omega
  rw [hout, State.length_memRead] at h
  refine ⟨_, h, rfl, ?_, ?_⟩
  · rw [State.readX_succeeded_writeXNat, State.xNat, BitVec.ofNat_toNat, BitVec.setWidth_eq]
  · have hread := u.memRead_memWrite (u.xNat r3) (s.memRead (s.xNat s1) (s.xNat s2)) hwfu
    rw [State.length_memRead] at hread
    rw [State.memRead_succeeded_writeXNat, hread]

end Sys2Proof.Machine
end

section
/-! Commands that fail a check (obligations O31, O40, O44, O46, O49): a check that fails before the first write completes the
command with its code and changes nothing else (60_exceptions.md rules R234 to R240); and the codes ar.prime and kc.keygen
never report, because the symbols and the inverse they compute are always defined (rules R238, R239). -/

namespace Sys2Proof.Machine

/-- A check raises its error before anything else of the command is done. -/
theorem conclude_check {P : Prop} [Decidable P] (h : P) (s : State) {c : ErrCode} (hc : c ≠ .ok) (rest : Result) :
    conclude (if P then raise c s else rest) = .next (s.failed c.byte) := by
  rw [if_pos h, conclude_raise_error s hc]

/-! ### The state checks of the digest engine (rules R234, R235) -/

/-- An update without a session. -/
theorem updatePart_closed {src len : Nat} {s : State} (hclosed : s.status.dsess = false) :
    updatePart src len s = raise .ioNoSession s := by
  obtain ⟨-, h⟩ | ⟨hopen, -⟩ | ⟨hopen, -⟩ := updatePart_cases src len s
  · exact h
  · simp [hclosed] at hopen
  · simp [hclosed] at hopen

/-- A final without a session. -/
theorem finalPart_closed {s : State} (hclosed : s.status.dsess = false) : finalPart s = raise .ioNoSession s := by
  obtain ⟨-, h⟩ | ⟨hopen, -⟩ := finalPart_cases s
  · exact h
  · simp [hclosed] at hopen

/-- Settles O31: the check of DSESS or DVALID comes before everything else. -/
theorem stateChecksChangeNothing : Obligations.StateChecksChangeNothing := by
  refine fun r1 r2 s => ⟨fun hclosed => ⟨?_, ?_⟩, fun hinvalid => ?_⟩
  · rw [exec_deUpdate, updatePart_closed hclosed]
    exact conclude_raise_error s (by decide)
  · rw [exec_deFinal, finalPart_closed hclosed]
    exact conclude_raise_error s (by decide)
  · obtain ⟨-, h⟩ | ⟨hvalid, -⟩ | ⟨hvalid, -⟩ := exec_deHex_cases r1 r2 s
    · exact h
    · simp [hinvalid] at hvalid
    · simp [hinvalid] at hvalid

/-! ### A modulus of 0 (rule R237) -/

theorem exec_arPowmod_zero (d1 s1 s2 s3 : Reg) {s : State} (hn : s.xNat s3 = 0) :
    exec (.arPowmod d1 s1 s2 s3) s = .next (s.failed 0x20) :=
  conclude_check hn s (by decide) _

theorem exec_arInv_zero (d1 s1 s2 : Reg) {s : State} (hm : s.xNat s2 = 0) :
    exec (.arInv d1 s1 s2) s = .next (s.failed 0x20) :=
  conclude_check hm s (by decide) _

theorem exec_kcEncode_zero (d1 s1 s2 s3 : Reg) {s : State} (hn : s.keys.kn = 0) :
    exec (.kcEncode d1 s1 s2 s3) s = .next (s.failed 0x20) :=
  conclude_check (congrArg BitVec.toNat hn) s (by decide) _

theorem exec_kcDecode_zero (d1 s1 s2 s3 : Reg) {s : State} (hn : s.keys.kn = 0) :
    exec (.kcDecode d1 s1 s2 s3) s = .next (s.failed 0x20) :=
  conclude_check (congrArg BitVec.toNat hn) s (by decide) _

/-- Settles O40: each of the four commands checks its modulus first. -/
theorem zeroModulusFails : Obligations.ZeroModulusFails := fun d1 s1 s2 s3 _ =>
  ⟨exec_arPowmod_zero d1 s1 s2 s3, exec_arInv_zero d1 s1 s2,
    fun hn => ⟨exec_kcEncode_zero d1 s1 s2 s3 hn, exec_kcDecode_zero d1 s1 s2 s3 hn⟩⟩

/-! ### An illegal configuration (rule R240) -/

theorem exec_arPrime_zero (d1 s1 : Reg) {s : State} (hk : s.cfg.k.toNat = 0) :
    exec (.arPrime d1 s1) s = .next (s.failed 0x23) :=
  conclude_check hk s (by decide) _

/-- The configuration check of rule R192 fails. -/
theorem State.search_illegal {s : State}
    (h : s.cfg.k = 0 ∨ s.cfg.pmin.toNat < 2 ∨ s.cfg.pmax.toNat < s.cfg.pmin.toNat) : s.search.illegal = true := by
  simp only [Search.illegal, State.search, Bool.or_eq_true, beq_iff_eq]
  obtain hk | hmin | hmax := h
  · exact .inl (.inl (congrArg BitVec.toNat hk))
  · exact .inl (.inr (decide_eq_true hmin))
  · exact .inr (decide_eq_true hmax)

/-- Settles O49: both commands check the configuration before they draw. -/
theorem illegalConfigurationFails : Obligations.IllegalConfigurationFails := fun d1 s1 _ =>
  ⟨fun hk => exec_arPrime_zero d1 s1 (congrArg BitVec.toNat hk), fun h => exec_kcKeygen_illegal (State.search_illegal h)⟩

/-! ### An even modulus of ar.jacobi (rule R238) -/

theorem exec_arJacobi_even (d1 s1 s2 : Reg) {s : State} (hn : s.xNat s2 % 2 = 0) :
    exec (.arJacobi d1 s1 s2) s = .next (s.failed 0x21) :=
  conclude_check hn s (by decide) _

/-- ar.prime completes with 0x00 or ARG (rule R168). -/
theorem exec_arPrime_lastErr {d1 s1 : Reg} {s t : State} (h : exec (.arPrime d1 s1) s = .next t) :
    t.lastErr = 0x00 ∨ t.lastErr = 0x23 := by
  by_cases hk : s.cfg.k.toNat = 0
  · cases (exec_arPrime_zero d1 s1 hk).symm.trans h
    exact .inr rfl
  · cases (exec_arPrime d1 s1 hk).symm.trans h
    exact .inl rfl

/-- kc.keygen completes with 0x00, ARG or EXHAUSTED (rule R199). -/
theorem exec_kcKeygen_lastErr {s t : State} (h : exec .kcKeygen s = .next t) :
    t.lastErr = 0x00 ∨ t.lastErr = 0x23 ∨ t.lastErr = 0x30 := by
  obtain ⟨r, k, hk⟩ | hk | ⟨r, hk⟩ := exec_kcKeygen_ends s <;> cases hk.symm.trans h
  · exact .inl rfl
  · exact .inr (.inl rfl)
  · exact .inr (.inr rfl)

/-- Settles O46: the parity check comes first, and DOMAIN is no code of ar.prime or kc.keygen. -/
theorem evenJacobiModulusFails : Obligations.EvenJacobiModulusFails := by
  refine ⟨fun d1 s1 s2 _ => exec_arJacobi_even d1 s1 s2, ?_⟩
  rintro d1 s1 s t (h | h)
  · obtain h | h := exec_arPrime_lastErr h <;> rw [h] <;> decide
  · obtain h | h | h := exec_kcKeygen_lastErr h <;> rw [h] <;> decide

/-! ### No inverse (rules R156, R198, R239) -/

theorem modinv_of_not_coprime {e m : Nat} (h : Nat.gcd e m ≠ 1) : modinv e m = none := by
  rw [modinv, egcd_eq, if_neg h]

theorem exec_arInv_none (d1 s1 s2 : Reg) {s : State} (hm : s.xNat s2 ≠ 0) (h : modinv (s.xNat s1) (s.xNat s2) = none) :
    exec (.arInv d1 s1 s2) s = .next (s.failed 0x22) := by
  show conclude (if s.xNat s2 = 0 then _ else _) = _
  rw [if_neg hm, h]
  exact conclude_raise_error s (by decide)

/-- The inverse of an exponent of rule R197 is not 0 or 1, and the only one. -/
theorem modinv_of_exponent {e phi : Nat} (he : 2 ≤ e) (hlt : e < phi) (h : Nat.gcd e phi = 1) :
    ∃ d, modinv e phi = some d ∧ 2 ≤ d ∧ d < phi ∧ e * d % phi = 1 ∧ ∀ x < phi, e * x % phi = 1 → x = d := by
  obtain ⟨d, hd, hdlt, hinv⟩ := modinv_of_coprime (by omega) h
  rw [Nat.mod_eq_of_lt (show 1 < phi by omega)] at hinv
  refine ⟨d, hd, ?_, hdlt, hinv, fun x hx hx' => ?_⟩
  · have hne0 : d ≠ 0 := by rintro rfl; simp at hinv
    have hne1 : d ≠ 1 := by
      rintro rfl
      rw [mul_one, Nat.mod_eq_of_lt hlt] at hinv
      omega
    omega
  · have hmod : e * x ≡ e * d [MOD phi] := hx'.trans hinv.symm
    exact (Nat.ModEq.cancel_left_of_coprime (Nat.gcd_comm e phi ▸ h) hmod).eq_of_lt_of_lt hx hdlt

/-- Once the pair and the exponent are found, the key is too. -/
theorem Search.keyPair_of_found {z : Search} (hlegal : z.illegal = false) {r r1 : Source} {p q e : Nat}
    (hpair : z.findPair z.cap r = (some (p, q), r1))
    (he : findExponent (totient p q) z.cap (r1.drawIn 2 (totient p q - 1)).1 = some e) :
    ∃ d, modinv e (totient p q) = some d ∧
      z.keyPair r = (some ⟨p, q, e, d⟩, (r1.drawIn 2 (totient p q - 1)).2) := by
  obtain ⟨hmin, hle⟩ := Search.pmin_of_legal hlegal
  obtain ⟨⟨hp, -⟩, ⟨hq, -⟩, -, hbig⟩ := z.findPair_found hle _ _ _ _ _ hpair
  have hphi := three_le_totient (hmin.trans hp) (hmin.trans hq) hbig
  obtain ⟨-, -, hcoprime, -⟩ := findExponent_found _ _ _ _ he
  rw [gcd_eq_natGcd] at hcoprime
  obtain ⟨d, hd, -⟩ := modinv_of_coprime (by omega) hcoprime
  refine ⟨d, hd, ?_⟩
  simp only [Search.keyPair, hpair, he, hd, Option.map_some]

/-- Settles O44: without an inverse ar.inv raises NOINV, and kc.keygen's exponent is coprime to the totient. -/
theorem noInverseFails : Obligations.NoInverseFails := by
  refine ⟨fun d1 s1 s2 s hm hgcd => ?_, fun s t h => ?_, fun e phi => modinv_of_exponent,
    fun s p q e r hlegal hpair he => ?_⟩
  · exact exec_arInv_none d1 s1 s2 (by omega) (modinv_of_not_coprime hgcd)
  · obtain h | h | h := exec_kcKeygen_lastErr h <;> rw [h] <;> decide
  · obtain ⟨d, hd, hkey⟩ := Search.keyPair_of_found hlegal hpair he
    exact ⟨d, hd, exec_kcKeygen_found hlegal hkey⟩

end Sys2Proof.Machine
end

section
/-! A word that is no command, and nop (obligations O7, O28; 60_exceptions.md rules R232, R254). -/

namespace Sys2Proof.Machine

/-- Settles O7: the decoder refuses a word that hits no row, and the engine completes it with ILLEGAL. -/
theorem illegalWordOnlyCompletes : Obligations.IllegalWordOnlyCompletes := by
  refine fun s hb hrows => ⟨?_, rfl, Eq.symm⟩
  have hrefused := decode_of_not_hits hrows
  obtain ⟨hidle, -⟩ | ⟨-, i, hd, -⟩ | ⟨-, -, -, hturn⟩ := engineTurn_cases s
  · simp [hb] at hidle
  · cases hrefused.symm.trans hd
  · rw [hturn, complete_error s (by decide)]
    rfl

/-- nop is the one command with OPC 0x00 (30_encoding.md rule R94). -/
theorem eq_nop_of_opc_zero {i : Instr} (h : i.format.opc = 0x00) : i = .nop := by
  cases i with
  | nop => rfl
  | deInit | deUpdate | deFinal | deHash | deHex | arPowmod | arGcd | arEgcd | arInv | arJacobi | arPrime | kcKeygen | kcBpb
  | kcEncode | kcDecode => simp [Instr.format] at h

/-- Settles O28: a word that decodes with OPC 0x00 is the word of nop. -/
theorem nopOnlyCompletes : Obligations.NopOnlyCompletes := by
  refine ⟨rfl, rfl, fun w hopc hw => ?_, fun s => conclude_done_succeeded s⟩
  cases hd : decode w with
  | error e => exact ⟨e, rfl⟩
  | ok i =>
    have hword : encode i = w := encodeDecode w i hd
    have hformat : i.format.opc = 0x00 := by rw [← ofWord_encode, hword]; exact hopc
    rw [eq_nop_of_opc_zero hformat] at hword
    exact absurd hword.symm hw

end Sys2Proof.Machine
end

section
/-! A failing command writes no result (obligation O11; 60_exceptions.md rules R233, R236): every command ends in a success or
in a failure, and what it wrote before it failed is nothing, draws, or an aborted session. -/

namespace Sys2Proof.Machine

/-- What a failing command i left in s before its completion (rule R236). -/
inductive WritesOfFailure (i : Instr) (s : State) : State → Prop
  | nothing : WritesOfFailure i s s
  | draws (hi : drawingCommand i = true) (r : Source) : WritesOfFailure i s { s with source := r }
  | abortedSession (a b : Reg) (hi : i = .deUpdate a b ∨ i = .deHash a b) (d : Session) :
      WritesOfFailure i s { s with de := d, status := s.status.abortSession }

/-- How a command i ended in s: it succeeded, or it failed with a code after the writes of a failing command. -/
inductive CommandEnds (i : Instr) (s : State) : Prop
  | success {u : State} (h : exec i s = .next u.succeeded)
  | failure {u : State} {code : Byte} (h : exec i s = .next (u.failed code)) (hu : WritesOfFailure i s u)

/-- A command whose checks fail before its first write. -/
theorem CommandEnds.unwritten {i : Instr} {s : State} {code : Byte} (h : exec i s = .next (s.failed code)) :
    CommandEnds i s :=
  .failure h .nothing

theorem exec_deUpdate_ends (s1 s2 : Reg) (s : State) : CommandEnds (.deUpdate s1 s2) s := by
  have hexec := exec_deUpdate s1 s2 s
  obtain ⟨-, h⟩ | ⟨-, -, h⟩ | ⟨-, -, h⟩ := updatePart_cases (s.xNat s1) (s.xNat s2) s <;> rw [h] at hexec
  · exact .unwritten (hexec.trans (conclude_raise_error s (by decide)))
  · exact .failure (hexec.trans (conclude_raise_error _ (by decide))) (.abortedSession s1 s2 (.inl rfl) s.de)
  · exact .success (hexec.trans (conclude_done_succeeded _))

theorem exec_deFinal_ends (s : State) : CommandEnds .deFinal s := by
  have hexec := exec_deFinal s
  obtain ⟨-, h⟩ | ⟨-, h⟩ := finalPart_cases s <;> rw [h] at hexec
  · exact .unwritten (hexec.trans (conclude_raise_error s (by decide)))
  · exact .success (hexec.trans (conclude_done_succeeded _))

theorem exec_deHash_ends (s1 s2 : Reg) (s : State) : CommandEnds (.deHash s1 s2) s := by
  obtain hin | hout := le_or_gt (s.xNat s1 + s.xNat s2) s.params.bmemSize
  · exact .success (exec_deHash_in hin)
  · exact .failure (exec_deHash_out hout) (.abortedSession s1 s2 (.inr rfl) _)

theorem exec_deHex_ends (d1 s1 : Reg) (s : State) : CommandEnds (.deHex d1 s1) s := by
  obtain ⟨-, h⟩ | ⟨-, -, h⟩ | ⟨-, -, h⟩ := exec_deHex_cases d1 s1 s
  · exact .unwritten h
  · exact .unwritten h
  · exact .success h

theorem exec_arInv_ends (d1 s1 s2 : Reg) (s : State) : CommandEnds (.arInv d1 s1 s2) s := by
  by_cases hm : s.xNat s2 = 0
  · exact .unwritten (exec_arInv_zero d1 s1 s2 hm)
  · cases h : modinv (s.xNat s1) (s.xNat s2) with
    | none => exact .unwritten (exec_arInv_none d1 s1 s2 hm h)
    | some d => exact .success (exec_arInv_some d1 s1 s2 hm h)

theorem exec_kcEncode_ends (d1 s1 s2 s3 : Reg) (s : State) : CommandEnds (.kcEncode d1 s1 s2 s3) s := by
  by_cases hn : s.keys.kn = 0
  · exact .unwritten (exec_kcEncode_zero d1 s1 s2 s3 hn)
  · obtain ⟨-, h⟩ | ⟨-, -, h⟩ := exec_kcEncode_cases d1 s1 s2 s3 hn
    · exact .unwritten h
    · exact .success h

theorem exec_kcDecode_ends (d1 s1 s2 s3 : Reg) (s : State) : CommandEnds (.kcDecode d1 s1 s2 s3) s := by
  by_cases hn : s.keys.kn = 0
  · exact .unwritten (exec_kcDecode_zero d1 s1 s2 s3 hn)
  · obtain ⟨-, h⟩ | ⟨-, -, h⟩ := exec_kcDecode_cases d1 s1 s2 s3 hn
    · exact .unwritten h
    · exact .success h

/-- Every command succeeds, or fails having written no result. -/
theorem exec_ends (i : Instr) (s : State) : CommandEnds i s := by
  cases i with
  | nop | deInit | arGcd | arEgcd | kcBpb => exact .success (conclude_done_succeeded _)
  | deUpdate s1 s2 => exact exec_deUpdate_ends s1 s2 s
  | deFinal => exact exec_deFinal_ends s
  | deHash s1 s2 => exact exec_deHash_ends s1 s2 s
  | deHex d1 s1 => exact exec_deHex_ends d1 s1 s
  | arPowmod d1 s1 s2 s3 =>
    by_cases hn : s.xNat s3 = 0
    · exact .unwritten (exec_arPowmod_zero d1 s1 s2 s3 hn)
    · exact .success (exec_arPowmod d1 s1 s2 s3 hn)
  | arInv d1 s1 s2 => exact exec_arInv_ends d1 s1 s2 s
  | arJacobi d1 s1 s2 =>
    obtain hn | hn := Nat.mod_two_eq_zero_or_one (s.xNat s2)
    · exact .unwritten (exec_arJacobi_even d1 s1 s2 hn)
    · exact .success (exec_arJacobi d1 s1 s2 hn)
  | arPrime d1 s1 =>
    by_cases hk : s.cfg.k.toNat = 0
    · exact .unwritten (exec_arPrime_zero d1 s1 hk)
    · exact .success (exec_arPrime d1 s1 hk)
  | kcKeygen =>
    obtain ⟨r, k, h⟩ | h | ⟨r, h⟩ := exec_kcKeygen_ends s
    · exact .success h
    · exact .unwritten h
    · exact .failure h (.draws rfl r)
  | kcEncode d1 s1 s2 s3 => exact exec_kcEncode_ends d1 s1 s2 s3 s
  | kcDecode d1 s1 s2 s3 => exact exec_kcDecode_ends d1 s1 s2 s3 s

/-- Settles O11: a command that fails wrote nothing before its completion, or took draws, or aborted its session. -/
theorem failingCommandWritesNoResult : Obligations.FailingCommandWritesNoResult := by
  intro i s t hexec hfail
  obtain ⟨h⟩ | ⟨h, hu⟩ := exec_ends i s <;> cases hexec.symm.trans h
  · exact absurd rfl hfail
  cases hu with
  | nothing => exact ⟨rfl, rfl, rfl, rfl, rfl, rfl, fun _ => rfl, fun _ => ⟨rfl, rfl, rfl⟩⟩
  | draws hi r =>
    exact ⟨rfl, rfl, rfl, rfl, rfl, rfl, fun hdraw => absurd (hi.symm.trans hdraw) (by decide), fun _ => ⟨rfl, rfl, rfl⟩⟩
  | abortedSession a b hi d =>
    refine ⟨rfl, rfl, rfl, rfl, rfl, rfl, fun _ => rfl, fun hother => ?_⟩
    obtain ⟨hupdate, hhash⟩ := hother a b
    exact absurd hi (by simp [hupdate, hhash])

end Sys2Proof.Machine
end
